-- ==== Sys2Proof/Word.lean ====
section
/-! DEFINITION. The word types of the core (spec 00_scope R12): a word is 32 bits, a byte 8 bits,
bit 0 the least significant. -/

namespace Sys2Proof

/-- A 32-bit word (R12). -/
abbrev Word := BitVec 32

/-- An 8-bit byte (R12): request codes, buffer bytes, register indices. -/
abbrev Byte := BitVec 8

end Sys2Proof
end

