-- ==== Sys2Proof/Config.lean ====
section
/-! DEFINITION. What an implementation fixes (the OPEN parameters of spec 00_scope R11, with their
constraints) and the free values, opaque constants no proof can evaluate (log 3, log 5). -/

namespace Sys2Proof

/-- The parameter `CMD_CODES` (46_host_adapter R331-R333): every host code byte but 0xF2 and 0x07, and
the byte strings the get-mode command answers for each probe mode. -/
structure CmdCodes where
  getVersion       : Byte
  dfu              : Byte
  getMode          : Byte
  getTargetVoltage : Byte
  writeMem32       : Byte
  readMem8         : Byte
  writeMem8        : Byte
  enterSwd         : Byte
  exitDebug        : Byte
  readCoreId       : Byte
  readReg          : Byte
  writeReg         : Byte
  readAllRegs      : Byte
  getLastRwStatus  : Byte
  modeUnknown      : List Byte
  modeDfu          : List Byte
  modeMass         : List Byte
  modeDebugJtag    : List Byte
  modeDebugSwd     : List Byte
  modeDebugSwim    : List Byte
  deriving DecidableEq, Repr

/-- The parameter `WRITE_RESP` (R337): what a memory-range write command answers. -/
inductive WriteResp where
  | silent   -- no response at all
  | status   -- a 2-byte status
  deriving DecidableEq, Repr

/-- The parameters of R11 that have no value in the source. No operation changes them. -/
structure Params where
  tEdge        : Nat
  nRetry       : Nat
  pwrPollMax   : Nat
  pwrPollSleep : Nat
  regPollMax   : Nat
  lrOnes       : Nat
  idleBits     : Nat
  cswWord      : Word
  cswByte      : Word
  idrCheck     : Bool
  xferBuf      : Nat
  codes        : CmdCodes
  statusOk     : BitVec 16
  statusFault  : BitVec 16
  regDumpMap   : List Byte
  writeResp    : WriteResp
  deriving DecidableEq, Repr

/-- The group bytes (R331) are distinct and are not 0xF2; the sub-command bytes (R332) are distinct and
are not 0x07. -/
abbrev CmdCodes.wf (c : CmdCodes) : Prop :=
  [(0xF2 : Byte), c.getVersion, c.dfu, c.getMode, c.getTargetVoltage].Nodup ∧
  [(0x07 : Byte), c.writeMem32, c.readMem8, c.writeMem8, c.enterSwd, c.exitDebug, c.readCoreId,
    c.readReg, c.writeReg, c.readAllRegs, c.getLastRwStatus].Nodup

/-- The constraints R11 puts on the parameters. -/
abbrev Params.wf (p : Params) : Prop :=
  1 ≤ p.pwrPollMax ∧ 1 ≤ p.regPollMax ∧ 50 ≤ p.lrOnes ∧ 2 ≤ p.idleBits ∧
  p.cswWord.extractLsb' 0 3 = 0b010#3 ∧ p.cswWord.extractLsb' 4 2 = 0b01#2 ∧
  p.cswByte.extractLsb' 0 3 = 0b000#3 ∧
  p.xferBuf % 4 = 0 ∧ 4 ≤ p.xferBuf ∧
  p.statusOk ≠ p.statusFault ∧ p.regDumpMap.length = 21 ∧ p.codes.wf

/-- The host codes of the test configuration TC1 (95_test_vectors section 1). DESIGN CHOICE, unsafe: the
mode bytes, which TC1 does not give (log 21). -/
def CmdCodes.tc1 : CmdCodes where
  getVersion := 0xF1
  dfu := 0xF3
  getMode := 0xF5
  getTargetVoltage := 0xF7
  writeMem32 := 0x08
  readMem8 := 0x0C
  writeMem8 := 0x0D
  enterSwd := 0x30
  exitDebug := 0x21
  readCoreId := 0x22
  readReg := 0x33
  writeReg := 0x34
  readAllRegs := 0x3A
  getLastRwStatus := 0x3B
  modeUnknown := [0x00]
  modeDfu := [0x01]
  modeMass := [0x02]
  modeDebugJtag := [0x03]
  modeDebugSwd := [0x04]
  modeDebugSwim := [0x05]

/-- The test configuration TC1 (95_test_vectors section 1). DESIGN CHOICE, unsafe: the values the machine
has right after reset; a statement for every state is a statement for every value of them (log 3). -/
def Params.tc1 : Params where
  tEdge := 1
  nRetry := 3
  pwrPollMax := 10
  pwrPollSleep := 1
  regPollMax := 10
  lrOnes := 56
  idleBits := 2
  cswWord := 0x23000012
  cswByte := 0x23000000
  idrCheck := true
  xferBuf := 64
  codes := CmdCodes.tc1
  statusOk := 0x0080
  statusFault := 0x0081
  regDumpMap := [0, 1, 2, 3, 4, 5, 6, 7, 8, 9, 10, 11, 12, 13, 14, 15, 16, 17, 18, 19, 20]
  writeResp := .status

/-! The free values (log 5): what a draw gives, indexed by the counter `draws` of State. -/

/-- The level a sample reads when nobody drives the line (10_state R37). -/
opaque Config.drawLevel : Nat → Bool

/-- An unspecified 32-bit word (10_state R62, 41_transaction R181, 45_session R309). -/
opaque Config.drawWord : Nat → Word

/-- An unspecified byte (43_memory_access R255, 46_host_adapter R339). -/
opaque Config.drawByte : Nat → Byte

/-- An unspecified response, bytes and length (46_host_adapter R331). -/
opaque Config.drawResponse : Nat → List Byte

end Sys2Proof
end

