-- ==== Sys2Proof/Machine/Types.lean ====
section
/-! DEFINITION. The enumerations and records of the machine: results, modes, trace cells, the calls and packets
the core is given, the answers of the target agent. -/

namespace Sys2Proof.Machine

/-- The Transaction Engine's result (10_state R42, 30_encoding R130, R131). -/
inductive Ack where
  | ok
  | wait
  | fault
  | parityError
  | protocolError (raw : BitVec 3)
  deriving DecidableEq, Repr

/-- The result code of every operation from the Error-Recovery Controller up (00_scope R18, R220):
0 cleared or success, 1 soft failure, 2 hard failure. -/
inductive Code where
  | ok
  | soft
  | hard
  deriving DecidableEq, Repr

/-- The number the spec writes for a code. -/
def Code.toNat : Code → Nat
  | .ok => 0
  | .soft => 1
  | .hard => 2

/-- Session state (10_state R38). -/
inductive Session where
  | closed
  | connecting
  | opened
  deriving DecidableEq, Repr

/-- The last-R/W-status latch (10_state R40). -/
inductive LastStatus where
  | ok
  | fault
  deriving DecidableEq, Repr

/-- Probe mode (10_state R41). -/
inductive ProbeMode where
  | unknown
  | dfu
  | mass
  | debugJtag
  | debugSwd
  | debugSwim
  deriving DecidableEq, Repr

/-- One record of the wire trace (10_state R44): direction, driven bit, sampled bit. -/
structure WireCell where
  dir : Bool
  out : Option Bool
  inp : Option Bool
  deriving DecidableEq, Repr

/-- The protocol the target's port speaks (10_state R71). -/
inductive PortProtocol where
  | swd
  | jtag
  deriving DecidableEq, Repr

/-- A register transfer of the target in progress (10_state R75). -/
structure RegTransfer where
  index   : Byte
  isWrite : Bool
  deriving DecidableEq, Repr

/-- One change of the target's state. A list of them is "any effect the target agent chooses" (60_exceptions R363, I43):
every register, byte and hidden state of the target that a transaction could touch has its change here. -/
inductive TargetChange where
  | protocol (p : PortProtocol)
  | expectsIdcode (b : Bool)
  | ctrlStat (w : Word)
  | select (w : Word)
  | rdbuf (w : Word)
  | stale (b : Bool)
  | csw (w : Word)
  | tar (w : Word)
  | apOther (key : Nat) (w : Word)
  | dpOther (bank : Nat) (w : Word)
  | memByte (a : Word) (b : Byte)
  | busy (n : Nat)
  | pwrLeft (n : Option Nat)
  | dcrdr (w : Word)
  | debugEn (b : Bool)
  | regReady (b : Bool)
  | transfer (x : Option RegTransfer)
  | regLeft (n : Option Nat)
  | coreReg (index : Byte) (w : Word)
  deriving DecidableEq, Repr

/-- How the target agent answers one transaction (95_test_vectors section 1, 60_exceptions R363; log 18). -/
inductive Answer where
  /-- as R62-R75 say -/
  | normal
  /-- ACK WAIT, nothing done -/
  | wait
  /-- ACK FAULT, STICKYERR set, nothing else done -/
  | fault
  /-- ACK OK and, for a read, this word with a wrong parity bit; the read is done, side effects included (R363) -/
  | badParity (word : Word)
  /-- these three ACK bits; when they are none of OK, WAIT and FAULT, nothing more is driven and the target agent chooses
  the effect (R363, I43) -/
  | raw (bits : BitVec 3) (effect : List TargetChange)
  /-- nothing driven, nothing done (R73) -/
  | silent
  deriving DecidableEq, Repr

/-- The host commands beside ReadMem32 (46_host_adapter R331, R332, R338). -/
inductive Command where
  | getVersion
  | dfu
  | getMode
  | getTargetVoltage
  | writeMem32 (addr : Word) (len : BitVec 16)
  | readMem8 (addr : Word) (len : BitVec 16)
  | writeMem8 (addr : Word) (len : BitVec 16)
  | enterSwd
  | exitDebug
  | readCoreId
  | readReg (index : Byte)
  | writeReg (index : Byte) (value : Word)
  | readAllRegs
  | getLastRwStatus
  | unsupported
  deriving DecidableEq, Repr

/-- The operation map (30_encoding R150): an operation is selected by being called. -/
inductive Operation where
  | setDataLineOutput
  | setDataLineInput
  | shiftOutBits (value : Word) (n : Nat)
  | shiftInBits (n : Nat)
  | executeTransaction (code : Byte) (data : Word)
  | executeTransactionWithRetry (code : Byte) (data : Word) (maxRetries : Nat)
  | lineReset
  | clearError (ack : Ack)
  | wrapped (code : Byte) (data : Word)
  | writeWord32Chunk (addr : Word) (buf : List Byte)
  | readWord32Chunk (addr : Word) (len : Nat)
  | writeMem32 (addr : Word) (buf : List Byte)
  | readMem32 (addr : Word) (len : Nat)
  | writeMem8 (addr : Word) (buf : List Byte)
  | readMem8 (addr : Word) (len : Nat)
  | writeWord (addr : Word) (value : Word)
  | readWord (addr : Word)
  | readCoreReg (index : Byte)
  | writeCoreReg (index : Byte) (value : Word)
  | openSession
  | closeSession
  | swdConnectSequence
  | swdDisconnectSequence
  deriving DecidableEq, Repr

/-- What the core can be given to run next (log 1): one transaction (a header and its data word), one 16-bit
line sequence, one host packet, or a call of an operation of R150. -/
inductive Request where
  | transaction (header : Byte) (data : Word)
  | sequence (value : BitVec 16)
  | packet (bytes : List Byte)
  | call (op : Operation)
  deriving DecidableEq, Repr

/-- The result of the last operation (10_state R44; 00_scope R18; log 7). -/
inductive OpResult where
  /-- no operation has ended yet -/
  | none
  /-- an operation without a result -/
  | done
  /-- a transaction's Ack; its data cell is State's `data` -/
  | ack (a : Ack)
  /-- the bits `shiftInBits` returns -/
  | bits (value : Word)
  /-- an Ack and a word (`executeTransaction`, `lineReset`) -/
  | ackWord (a : Ack) (value : Word)
  /-- a code -/
  | code (c : Code)
  /-- a code and a word (`readWord`, `readCoreReg`, `wrapped`) -/
  | codeWord (c : Code) (value : Word)
  /-- a code and a buffer -/
  | codeBytes (c : Code) (buf : List Byte)
  /-- the internal result of a host command (46_host_adapter R338) -/
  | host (internal : Int)
  deriving DecidableEq, Repr

end Sys2Proof.Machine
end

