-- ==== Sys2Proof/Syntax.lean ====
section
/-! DEFINITION. The instructions: one constructor per row of spec/opcode_table.json (30_encoding R125, R146,
R147; 46_host_adapter R332). -/

namespace Sys2Proof

/-- The eleven request codes with the data word a write sends, the two 16-bit switch sequences, and the one
host packet whose codes the source gives. -/
inductive Instr where
  /-- read DP IDCODE (R184) -/
  | rdIdcode
  /-- write DP ABORT (R185) -/
  | wrAbort (data : Word)
  /-- read DP CTRL/STAT (R186) -/
  | rdCtrlstat
  /-- write DP CTRL/STAT (R187) -/
  | wrCtrlstat (data : Word)
  /-- write DP SELECT (R188) -/
  | wrSelect (data : Word)
  /-- read DP RDBUFF (R189) -/
  | rdRdbuff
  /-- write AP CSW (R190) -/
  | wrCsw (data : Word)
  /-- write AP TAR (R191) -/
  | wrTar (data : Word)
  /-- read AP DRW (R192) -/
  | rdDrw
  /-- write AP DRW (R193) -/
  | wrDrw (data : Word)
  /-- read AP IDR (R194) -/
  | rdIdr
  /-- the 16-bit JTAG-to-SWD value (R146) -/
  | jtagToSwd
  /-- the 16-bit SWD-to-JTAG value (R147) -/
  | swdToJtag
  /-- the host packet ReadMem32 (R332, R334) -/
  | hostReadMem32 (addr : Word) (len : BitVec 16)
  deriving DecidableEq, Repr

end Sys2Proof
end

