-- ==== Sys2Proof/WellFormed.lean ====
section
/-! DEFINITION. Well-formed instructions. The operands' widths are in their types; the one relation the spec
puts on an instruction is the SELECT bank that tells RD_DRW from RD_IDR (30_encoding R127). -/

namespace Sys2Proof

/-- SELECT.APBANKSEL, bits [7:4] (10_state R55): the bank in force that R127 names. -/
abbrev ApBank := BitVec 4

/-- The bank of the AP identification register (30_encoding R142). -/
def idrBank : ApBank := 0xF

/-- RD_IDR stands for header 0x9F while APBANKSEL is 0xF, RD_DRW while it is not (R127; log 6 for the banks
the core never selects). Every other instruction is well-formed in every bank. -/
def Instr.wellFormed (bank : ApBank) : Instr → Bool
  | .rdDrw => bank != idrBank
  | .rdIdr => bank == idrBank
  | .rdIdcode => true
  | .wrAbort _ => true
  | .rdCtrlstat => true
  | .wrCtrlstat _ => true
  | .wrSelect _ => true
  | .rdRdbuff => true
  | .wrCsw _ => true
  | .wrTar _ => true
  | .wrDrw _ => true
  | .jtagToSwd => true
  | .swdToJtag => true
  | .hostReadMem32 _ _ => true

end Sys2Proof
end

