-- ==== Sys2Proof/Decode.lean ====
section
/-! DEFINITION. The decoder (30_encoding R120-R127, R146, R147; 46_host_adapter R330-R332), total on any
header, sequence value or packet, rejecting by name; and after it the encoder. -/

namespace Sys2Proof

open Sys2Proof.Machine

/-- Why nothing was decoded. -/
inductive DecodeError where
  /-- an 8-bit value outside the table (R126) -/
  | illegalRequestCode
  /-- a 16-bit value that is neither switch sequence (R146, R147) -/
  | unknownSequence
  /-- a host packet that is not of 16 bytes (R330) -/
  | badPacketLength
  deriving DecidableEq, Repr

/-! ## Request headers -/

/-- Header parity: APnDP ^ RnW ^ A2 ^ A3 (R120, R123). -/
def headerParity (apndp rnw : Bool) (a : BitVec 2) : Bool :=
  (apndp ^^ rnw) ^^ (a.getLsbD 0 ^^ a.getLsbD 1)

/-- A request header from its fields (R120): Start, APnDP, RnW, A2, A3, Parity, Stop, Park from bit 0 up. -/
def requestHeader (apndp rnw : Bool) (a : BitVec 2) : Byte :=
  0b1#1 ++ 0b0#1 ++ BitVec.ofBool (headerParity apndp rnw a) ++ a ++ BitVec.ofBool rnw ++
    BitVec.ofBool apndp ++ 0b1#1

/-- Bit 1 of a header, APnDP (R122). -/
def headerApndp (h : Byte) : Bool := h.getLsbD 1

/-- Bit 2 of a header, RnW (R122). -/
def headerRnw (h : Byte) : Bool := h.getLsbD 2

/-- Bits [4:3] of a header, A[3:2] (R122). -/
def headerAddr (h : Byte) : BitVec 2 := h.extractLsb' 3 2

/-- The fixed bits and the parity of R121, R123, R124 hold. -/
def headerFormOk (h : Byte) : Bool :=
  h.getLsbD 0 && !h.getLsbD 6 && h.getLsbD 7 &&
    (h.getLsbD 5 == headerParity (headerApndp h) (headerRnw h) (headerAddr h))

/-- The headers of R125, each from its register's space, direction and address. -/
def codeRdIdcode : Byte := requestHeader false true 0b00
def codeWrAbort : Byte := requestHeader false false 0b00
def codeRdCtrlstat : Byte := requestHeader false true 0b01
def codeWrCtrlstat : Byte := requestHeader false false 0b01
def codeWrSelect : Byte := requestHeader false false 0b10
def codeRdRdbuff : Byte := requestHeader false true 0b11
def codeWrCsw : Byte := requestHeader true false 0b00
def codeWrTar : Byte := requestHeader true false 0b01
def codeRdDrw : Byte := requestHeader true true 0b11
def codeWrDrw : Byte := requestHeader true false 0b11
def codeRdIdr : Byte := requestHeader true true 0b11

/-- The instruction of a header with its data word, in the AP bank in force (R125-R127). -/
def decodeHeader (bank : ApBank) (h : Byte) (data : Word) : Except DecodeError Instr :=
  if headerFormOk h then
    match headerApndp h, headerRnw h, (headerAddr h).toNat with
    | false, true, 0 => .ok .rdIdcode
    | false, false, 0 => .ok (.wrAbort data)
    | false, true, 1 => .ok .rdCtrlstat
    | false, false, 1 => .ok (.wrCtrlstat data)
    | false, false, 2 => .ok (.wrSelect data)
    | false, true, 3 => .ok .rdRdbuff
    | true, false, 0 => .ok (.wrCsw data)
    | true, false, 1 => .ok (.wrTar data)
    | true, true, 3 => .ok (if bank == idrBank then .rdIdr else .rdDrw)
    | true, false, 3 => .ok (.wrDrw data)
    | _, _, _ => .error .illegalRequestCode
  else .error .illegalRequestCode

/-! ## Line sequences -/

/-- The 16-bit JTAG-to-SWD value (R146). -/
def jtagToSwdValue : BitVec 16 := 0xE79E

/-- The 16-bit SWD-to-JTAG value (R147). -/
def swdToJtagValue : BitVec 16 := 0xE73C

/-- The instruction of a 16-bit line sequence. -/
def decodeSequence (v : BitVec 16) : Except DecodeError Instr :=
  if v = jtagToSwdValue then .ok .jtagToSwd
  else if v = swdToJtagValue then .ok .swdToJtag
  else .error .unknownSequence

/-! ## Host packets -/

/-- `PKT_LEN` (R330). -/
def packetLength : Nat := 16

/-- A packet field of `n` bytes at offset `k`, little-endian (R330): sum of `pkt[k+j] << 8j`. -/
def packetField (pkt : List Byte) (k : Nat) : Nat → Nat
  | 0 => 0
  | n + 1 => (pkt.getD k 0).toNat + 256 * packetField pkt (k + 1) n

/-- A 32-bit field at offset `k`. -/
def packetWord (pkt : List Byte) (k : Nat) : Word := BitVec.ofNat 32 (packetField pkt k 4)

/-- A 16-bit field at offset `k`. -/
def packetHalf (pkt : List Byte) (k : Nat) : BitVec 16 := BitVec.ofNat 16 (packetField pkt k 2)

/-- The debug-command group and the ReadMem32 sub-command, the two codes the source gives (R331, R332). -/
def groupDebug : Byte := 0xF2
def subReadMem32 : Byte := 0x07

/-- What a request stands for: an instruction of the table, another host command, or an operation. -/
inductive Decoded where
  | instr (i : Instr)
  | command (c : Command)
  | operation (op : Operation)
  deriving DecidableEq, Repr

/-- A debug-group packet: byte 1 selects the operation (R332); any other value is unsupported (R338). -/
def decodeDebug (codes : CmdCodes) (pkt : List Byte) : Decoded :=
  let sub := pkt.getD 1 0
  if sub = subReadMem32 then .instr (.hostReadMem32 (packetWord pkt 2) (packetHalf pkt 6))
  else if sub = codes.writeMem32 then .command (.writeMem32 (packetWord pkt 2) (packetHalf pkt 6))
  else if sub = codes.readMem8 then .command (.readMem8 (packetWord pkt 2) (packetHalf pkt 6))
  else if sub = codes.writeMem8 then .command (.writeMem8 (packetWord pkt 2) (packetHalf pkt 6))
  else if sub = codes.enterSwd then .command .enterSwd
  else if sub = codes.exitDebug then .command .exitDebug
  else if sub = codes.readCoreId then .command .readCoreId
  else if sub = codes.readReg then .command (.readReg (pkt.getD 2 0))
  else if sub = codes.writeReg then .command (.writeReg (pkt.getD 2 0) (packetWord pkt 3))
  else if sub = codes.readAllRegs then .command .readAllRegs
  else if sub = codes.getLastRwStatus then .command .getLastRwStatus
  else .command .unsupported

/-- A host packet: byte 0 selects the group (R331); a value that names no group is unsupported (R338). -/
def decodePacket (codes : CmdCodes) (pkt : List Byte) : Except DecodeError Decoded :=
  if pkt.length = packetLength then
    let group := pkt.getD 0 0
    if group = groupDebug then .ok (decodeDebug codes pkt)
    else if group = codes.getVersion then .ok (.command .getVersion)
    else if group = codes.dfu then .ok (.command .dfu)
    else if group = codes.getMode then .ok (.command .getMode)
    else if group = codes.getTargetVoltage then .ok (.command .getTargetVoltage)
    else .ok (.command .unsupported)
  else .error .badPacketLength

/-- An instruction as what was decoded. -/
def Decoded.ofInstr : Except DecodeError Instr → Except DecodeError Decoded
  | .ok i => .ok (.instr i)
  | .error e => .error e

/-- Any request, decoded with the host codes and the AP bank in force. -/
def decode (codes : CmdCodes) (bank : ApBank) : Request → Except DecodeError Decoded
  | .transaction h d => Decoded.ofInstr (decodeHeader bank h d)
  | .sequence v => Decoded.ofInstr (decodeSequence v)
  | .packet pkt => decodePacket codes pkt
  | .call op => .ok (.operation op)

/-! ## The table's words -/

/-- A request whose table bits are `w`, every further bit 0: 8 bits are a header, 16 bits are a line sequence
when they are one of the two switch values and the first two bytes of a host packet otherwise. -/
def requestOfTableWord (nbits w : Nat) : Option Request :=
  if nbits = 8 then some (.transaction (BitVec.ofNat 8 w) 0)
  else if nbits = 16 then
    if BitVec.ofNat 16 w = jtagToSwdValue ∨ BitVec.ofNat 16 w = swdToJtagValue then
      some (.sequence (BitVec.ofNat 16 w))
    else
      some (.packet (BitVec.ofNat 8 w :: BitVec.ofNat 8 (w / 256) :: List.replicate 14 0))
  else none

/-- The instruction the decoder reads from the table's bits, in the bank SELECT names after reset (log 6). -/
def decodeTableWord (nbits w : Nat) : Option Instr :=
  match requestOfTableWord nbits w with
  | none => none
  | some r =>
    match decode CmdCodes.tc1 0 r with
    | .ok (.instr i) => some i
    | _ => none

/-! ## The encoder -/

/-- The low and high bytes of a 16-bit value, and the four bytes of a word, least significant first (R330). -/
def halfBytes (v : BitVec 16) : List Byte := [v.extractLsb' 0 8, v.extractLsb' 8 8]
def wordBytes (v : Word) : List Byte :=
  [v.extractLsb' 0 8, v.extractLsb' 8 8, v.extractLsb' 16 8, v.extractLsb' 24 8]

/-- The request that carries an instruction: its header of R125 and its data word, its 16 bits of R146 or R147,
or its packet of R332. A read's data word is not sent; 0 stands in its place. -/
def encode : Instr → Request
  | .rdIdcode => .transaction codeRdIdcode 0
  | .wrAbort d => .transaction codeWrAbort d
  | .rdCtrlstat => .transaction codeRdCtrlstat 0
  | .wrCtrlstat d => .transaction codeWrCtrlstat d
  | .wrSelect d => .transaction codeWrSelect d
  | .rdRdbuff => .transaction codeRdRdbuff 0
  | .wrCsw d => .transaction codeWrCsw d
  | .wrTar d => .transaction codeWrTar d
  | .rdDrw => .transaction codeRdDrw 0
  | .wrDrw d => .transaction codeWrDrw d
  | .rdIdr => .transaction codeRdIdr 0
  | .jtagToSwd => .sequence jtagToSwdValue
  | .swdToJtag => .sequence swdToJtagValue
  | .hostReadMem32 addr len =>
    .packet ([groupDebug, subReadMem32] ++ wordBytes addr ++ halfBytes len ++ List.replicate 8 0)

end Sys2Proof
end

