-- ==== Sys2Proof/Machine/State.lean ====
section
/-! DEFINITION. The machine's state: everything spec 10_state and 70_reset give the core, the reference target's
registers of 10_state section 3, and the model's own fields (INVENTORY.md, State). Plain data. -/

namespace Sys2Proof.Machine

/-- The model faults of 60_exceptions R362. Each stops the machine, records only its reason and is raised before
any bit cell of the call that raises it. All are safe: no claim can rest on what the hardware does instead. -/
inductive Fault where
  /-- `executeTransaction` with a header outside the table (30_encoding R126). Safe. -/
  | illegalRequestCode
  /-- a PHY shift of more than 32 bits (40_phy R166). Safe. -/
  | shiftCountTooLarge
  /-- a shift in the wrong direction (40_phy R168). Safe. -/
  | phyMisuse
  /-- a word operation whose address or length is no multiple of 4 (20_memory R94). Safe. -/
  | misalignedWordAccess
  /-- a chunk primitive that leaves its 1024-byte page (43_memory_access R250). Safe. -/
  | chunkCrossesPage
  deriving DecidableEq, Repr

/-- Why a request has no meaning. -/
inductive Refusal where
  /-- raised by `exec` for an instruction that has no meaning yet; none is left. Safe. -/
  | notModelled (mnemonic : String)
  /-- raised by `step` for a 16-bit line sequence that is neither of 30_encoding R146, R147 (log 30). Safe. -/
  | unknownSequence
  /-- raised by `step` for a host packet that is not of 16 bytes: 46_host_adapter R339 has the packet delivered
  whole (log 30). Safe. -/
  | badPacketLength
  deriving DecidableEq, Repr

/-- The target agent (10_state R37, section 3.4). `attached = false` is an arbitrary target: its levels come from
State's `levels`. `attached = true` is the reference target of R62-R75 (log 4); with `statusLive` the CTRL/STAT fields that R62-R75
leave alone act as R54 names them (log 32). -/
structure Target where
  attached      : Bool
  protocol      : PortProtocol
  expectsIdcode : Bool
  idcode        : Word
  ctrlStat      : Word
  statusLive    : Bool
  select        : Word
  rdbuf         : Word
  stale         : Bool
  csw           : Word
  tar           : Word
  idr           : Word
  apOther       : List (Nat × Word)
  dpOther       : List (Nat × Word)
  mem           : List Host.Cell
  busErrors     : List Nat
  busy          : Nat
  pwrDelay      : Option Nat
  pwrLeft       : Option Nat
  dcrdr         : Word
  debugEn       : Bool
  regReady      : Bool
  transfer      : Option RegTransfer
  regDelay      : Option Nat
  regLeft       : Option Nat
  coreRegs      : List (Nat × Word)
  answers       : List Answer
  accepting     : Bool
  drive         : List (Option Bool)
  deriving DecidableEq, Repr

/-- The whole state. The first eight fields are the core's (70_reset R390: "No other state exists"). -/
structure State where
  clk        : Bool
  oe         : Bool
  dout       : Bool
  session    : Session
  coreId     : Word
  lastStatus : LastStatus
  mode       : ProbeMode
  trace      : List WireCell
  target     : Target
  params     : Params
  data       : Word
  result     : OpResult
  inbox      : List Request
  hostData   : List (List Byte)
  sent       : List (List Byte)
  levels     : List Bool
  draws      : Nat
  cleared    : Nat
  deriving DecidableEq, Repr

/-- The reference target's start state under TC1 (95_test_vectors section 1; DESIGN CHOICE, unsafe, log 4). TC1 calls the
start value of `rdbuf` unspecified; that it is 0 here is the model's choice (DESIGN CHOICE, unsafe, log 34). -/
def Target.tc1 : Target where
  attached := true
  protocol := .swd
  expectsIdcode := false
  idcode := 0x2BA01477
  ctrlStat := 0
  statusLive := false
  select := 0
  rdbuf := 0
  stale := true
  csw := 0
  tar := 0
  idr := 0x24770011
  apOther := []
  dpOther := []
  mem := []
  busErrors := []
  busy := 0
  pwrDelay := some 0
  pwrLeft := none
  dcrdr := 0
  debugEn := false
  regReady := false
  transfer := none
  regDelay := some 0
  regLeft := none
  coreRegs := [(15, 0x08000123)]
  answers := []
  accepting := false
  drive := []

/-- The state right after reset (70_reset R390). `clk`, `dout` and `lastStatus`, which R390 leaves unspecified, are
0, 0 and OK (DESIGN CHOICE, unsafe, log 2); the parameters and the target are those of TC1 (log 3, log 4). -/
def State.reset : State where
  clk := false
  oe := false
  dout := false
  session := .closed
  coreId := 0
  lastStatus := .ok
  mode := .unknown
  trace := []
  target := Target.tc1
  params := Params.tc1
  data := 0
  result := .none
  inbox := []
  hostData := []
  sent := []
  levels := []
  draws := 0
  cleared := 0

end Sys2Proof.Machine
end

