-- ==== Sys2Proof/Machine/Flags.lean ====
section
/-! DEFINITION. Conditions and flags: parity (00_scope R14), the ACK classes (30_encoding R130), the sticky and power
flags of CTRL/STAT (10_state R53, R54). -/

namespace Sys2Proof.Machine

/-- The bits of a value in wire order, bit 0 first (00_scope R15). -/
def lsbBits (n : Nat) (v : Word) : List Bool := (List.range n).map fun k => v.getLsbD k

/-- The value of bits received in wire order, first bit in bit 0 (40_phy R165). -/
def assemble : List Bool → Word
  | [] => 0
  | b :: bs => (assemble bs <<< 1) ||| (if b then 1 else 0)

/-- `popcount(v)` (R14). -/
def popcount (v : Word) : Nat := (lsbBits 32 v).count true

/-- `parity32(v)` (R14, R133): 1 exactly when the number of 1 bits is odd. -/
def parity32 (v : Word) : Bool := popcount v % 2 == 1

/-- The class of a 3-bit ACK (R130). -/
def classifyAck (raw : BitVec 3) : Ack :=
  if raw = 0b001#3 then .ok
  else if raw = 0b010#3 then .wait
  else if raw = 0b100#3 then .fault
  else .protocolError raw

/-- `code[2] = 1`: the request reads (30_encoding R122). -/
def isRead (code : Byte) : Bool := code.getLsbD 2

/-- `LEGAL_CODES`: the eleven codes of R125, ten distinct headers (R127). -/
def legalCodes : List Byte :=
  [codeRdIdcode, codeWrAbort, codeRdCtrlstat, codeWrCtrlstat, codeWrSelect, codeRdRdbuff,
    codeWrCsw, codeWrTar, codeRdDrw, codeWrDrw, codeRdIdr]

/-- The check of R126. -/
def isLegalCode (code : Byte) : Bool := legalCodes.contains code

/-! ## CTRL/STAT (R54) -/

/-- WDATAERR [7], STICKYERR [5], STICKYCMP [4], STICKYORUN [1]. -/
def stickyMask : Word := 0x000000B2
def stickyErrMask : Word := 0x00000020

/-- CDBGRSTREQ [26], CSYSPWRUPREQ [30], CDBGPWRUPREQ [28], TRNCNT, MASKLANE, TRNMODE, ORUNDETECT: the writable fields. -/
def ctrlStatWritable : Word := 0x54FFFF0D

/-- A sticky flag is set (R67). -/
def stickySet (ctrlStat : Word) : Bool := ctrlStat &&& stickyMask != 0

/-- What an ABORT write clears (R53, R68): bit 1 STICKYCMP, bit 2 STICKYERR, bit 3 WDATAERR, bit 4 STICKYORUN. -/
def abortClears (abort : Word) : Word :=
  (if abort.getLsbD 1 then 0x00000010 else 0) ||| (if abort.getLsbD 2 then 0x00000020 else 0) |||
  (if abort.getLsbD 3 then 0x00000080 else 0) ||| (if abort.getLsbD 4 then 0x00000002 else 0)

/-- CTRL/STAT after an ABORT write (R68). -/
def clearSticky (ctrlStat abort : Word) : Word := ctrlStat &&& ~~~ (abortClears abort)

/-- CTRL/STAT after a write: the writable fields take the value, the others stay (R187, I29). -/
def writeCtrlStat (old new : Word) : Word := (old &&& ~~~ ctrlStatWritable) ||| (new &&& ctrlStatWritable)

/-- The two power-up acknowledges (R54, R141). -/
def pwrAckMask : Word := 0xA0000000

/-- Each acknowledge takes the value of its request, one bit below it (R72). -/
def settlePower (ctrlStat : Word) : Word :=
  (ctrlStat &&& ~~~ pwrAckMask) ||| ((ctrlStat <<< 1) &&& pwrAckMask)

/-! ## The CTRL/STAT fields that only a target with `statusLive` acts on (R54; log 32) -/

/-- READOK [6]. -/
def readOkMask : Word := 0x00000040

/-- STICKYCMP [4] and STICKYORUN [1]. -/
def stickyCmpMask : Word := 0x00000010
def stickyOrunMask : Word := 0x00000002

/-- CTRL/STAT with READOK as given: "last AP or RDBUFF read was OK". -/
def setReadOk (ctrlStat : Word) (ok : Bool) : Word :=
  if ok then ctrlStat ||| readOkMask else ctrlStat &&& ~~~ readOkMask

/-- ORUNDETECT [0]: overrun detection enable. -/
def orunDetect (ctrlStat : Word) : Bool := ctrlStat.getLsbD 0

/-- TRNMODE [3:2]. -/
def trnMode (ctrlStat : Word) : BitVec 2 := ctrlStat.extractLsb' 2 2

/-- TRNMODE names a pushed transfer: 0b01 pushed verify, 0b10 pushed compare. -/
def pushedMode (ctrlStat : Word) : Bool := trnMode ctrlStat == 0b01#2 || trnMode ctrlStat == 0b10#2

/-- TRNCNT [23:12]. -/
def trnCnt (ctrlStat : Word) : Nat := (ctrlStat.extractLsb' 12 12).toNat

/-- The byte lanes MASKLANE [11:8] names, lane j for bit 8 + j. -/
def laneMask (ctrlStat : Word) : Word :=
  (if ctrlStat.getLsbD 8 then 0x000000FF else 0) ||| (if ctrlStat.getLsbD 9 then 0x0000FF00 else 0) |||
  (if ctrlStat.getLsbD 10 then 0x00FF0000 else 0) ||| (if ctrlStat.getLsbD 11 then 0xFF000000 else 0)

/-- CDBGRSTACK [27] takes the value of CDBGRSTREQ [26]. -/
def settleReset (ctrlStat : Word) : Word :=
  (ctrlStat &&& ~~~ (0x08000000 : Word)) ||| ((ctrlStat <<< 1) &&& 0x08000000)

/-! ## CSW (R57) -/

/-- The read-only fields SPIDEN [23], TrInProg [7], DeviceEn [6] (log 13). -/
def cswReadOnly : Word := 0x008000C0

/-- CSW after a write: "CSW takes the value (writable fields)" (R190). -/
def writeCsw (old new : Word) : Word := (old &&& cswReadOnly) ||| (new &&& ~~~ cswReadOnly)

/-- CSW.Size, bits [2:0]. -/
def cswSize (csw : Word) : BitVec 3 := csw.extractLsb' 0 3

/-- CSW.AddrInc, bits [5:4]. -/
def cswAddrInc (csw : Word) : BitVec 2 := csw.extractLsb' 4 2

/-- The bytes of one access of this Size; none for a reserved Size (R57, R64). -/
def sizeBytes (size : BitVec 3) : Option Nat :=
  if size = 0b000#3 then some 1
  else if size = 0b001#3 then some 2
  else if size = 0b010#3 then some 4
  else none

end Sys2Proof.Machine
end

