-- ==== Sys2Proof/Machine/Operands.lean ====
section
/-! DEFINITION. Operand forms: the data constants of 30_encoding R140-R143, byte lanes (20_memory R90), host buffers
and words (R91), response bytes (46_host_adapter R337), the chunk split (43_memory_access R253). -/

namespace Sys2Proof.Machine

/-! ## Constants -/

/-- R140: the four sticky-clear bits, DAPABORT clear. -/
def abortClearAll : Word := 0x0000001E
/-- R141. -/
def ctrlPwrupReq : Word := 0x50000000
def ctrlPwrdn : Word := 0x00000000
def ctrlPwrupAckMask : Word := 0xA0000000
/-- R142. -/
def selectBank0 : Word := 0x00000000
def selectIdrBank : Word := 0x000000F0
/-- R143. -/
def addrDhcsr : Word := 0xE000EDF0
def addrDcrsr : Word := 0xE000EDF4
def addrDcrdr : Word := 0xE000EDF8
def sRegRdy : Word := 0x00010000
def writeFlag : Word := 0x00010000
def dhcsrDebugEnable : Word := 0xA05F0001
def dhcsrDebugRelease : Word := 0xA05F0000
/-- `PAGE_SIZE` and `MAX_SHIFT` (00_scope R11). -/
def pageSize : Nat := 1024
def maxShift : Nat := 32

/-! ## SELECT (10_state R55) -/

/-- SELECT.APSEL, bits [31:24]. -/
def apSel (select : Word) : Byte := select.extractLsb' 24 8
/-- SELECT.APBANKSEL, bits [7:4]. -/
def apBankSel (select : Word) : ApBank := select.extractLsb' 4 4
/-- SELECT.DPBANKSEL, bits [3:0]. -/
def dpBankSel (select : Word) : BitVec 4 := select.extractLsb' 0 4

/-! ## Byte lanes (R90) -/

/-- `(addr & 3) * 8`. -/
def laneShift (addr : Word) : Nat := (addr.toNat % 4) * 8

/-- The DRW word of an 8-bit write: `zext_32(data) << ((addr & 3) * 8)`. -/
def laneWord (addr : Word) (b : Byte) : Word := b.setWidth 32 <<< laneShift addr

/-- The byte of an 8-bit read: `(word >> ((addr & 3) * 8)) & 0xFF`. -/
def laneByte (addr : Word) (w : Word) : Byte := (w >>> laneShift addr).setWidth 8

/-- `addr & ~3`. -/
def alignWord (addr : Word) : Word := addr &&& ~~~ 3

/-! ## Host buffers and words (R91) -/

/-- `{b3, b2, b1, b0}`: four buffer bytes as a word. -/
def bytesWord (b0 b1 b2 b3 : Byte) : Word := b3 ++ b2 ++ b1 ++ b0

/-- The words of a buffer, in order. -/
def bufWords : List Byte → List Word
  | b0 :: b1 :: b2 :: b3 :: rest => bytesWord b0 b1 b2 b3 :: bufWords rest
  | _ => []

/-- The bytes of words, in order, each least significant byte first. -/
def wordsBytes : List Word → List Byte
  | [] => []
  | w :: ws => wordBytes w ++ wordsBytes ws

/-! ## The chunk split (R253) -/

/-- `min(remaining, PAGE_SIZE - (addr mod PAGE_SIZE))`. -/
def chunkSize (addr : Word) (remaining : Nat) : Nat :=
  min remaining (pageSize - addr.toNat % pageSize)

/-- The chunks of a range; each takes at least one byte, so `fuel` = the length is enough. -/
def chunkList : Nat → Word → Nat → List (Word × Nat)
  | 0, _, _ => []
  | fuel + 1, addr, remaining =>
    if remaining = 0 then []
    else
      let c := chunkSize addr remaining
      (addr, c) :: chunkList fuel (addr + BitVec.ofNat 32 c) (remaining - c)

/-- The chunks of the range (addr, len), in address order. -/
def chunks (addr : Word) (len : Nat) : List (Word × Nat) := chunkList len addr len

/-- Alignment of a word operation (R94, R250). -/
def wordAligned (addr : Word) (len : Nat) : Bool := addr.toNat % 4 == 0 && len % 4 == 0

/-- The page precondition of the chunk primitives (R250). -/
def withinPage (addr : Word) (len : Nat) : Bool := addr.toNat % pageSize + len ≤ pageSize

end Sys2Proof.Machine
end

