-- ==== Sys2Proof/Machine/Ops.lean ====
section
/-! DEFINITION. The shared operations over State: the operation monads, `raise Fault` (00_scope R16, 60_exceptions R362),
draws (10_state R37), sparse stores and the target's memory (20_memory R92, R93), the named updates of State. The entry
and the return that stand for an exception (60_exceptions R366, R367) are `clearError` and `wrapped` of Recovery.lean,
over the transactions that need these. -/

namespace Sys2Proof.Machine

/-- An operation: it ends with a result and a state, or stops in a model fault. -/
abbrev Op (α : Type) : Type := StateT State (Except Fault) α

/-- A multi-step operation whose first non-zero code ends it at once (42_error_recovery R233): `W.X, v` is
`e <- wrapped(X, v); if e != 0: return e`. -/
abbrev Steps (α : Type) : Type := ExceptT Code Op α

/-- `raise Fault(reason)` (R16, R362). -/
def raise {α : Type} (f : Fault) : Op α := fun _ => .error f

/-- The code of a multi-step operation: 0 when every step returned 0. -/
def Steps.code (x : Steps Unit) : Op Code := do
  match ← x.run with
  | .ok _ => pure .ok
  | .error c => pure c

/-- `if e != 0: return e`. -/
def Steps.check (c : Code) : Steps Unit := if c = .ok then pure () else throw c

/-- `Delay(t)` changes no state (R16, 10_state R34; log 23). -/
def delay (_t : Nat) : Op Unit := pure ()

/-- `Yield()` changes no state of the core (R16, 10_state R35; log 23). -/
def yieldCore : Op Unit := pure ()

/-! ## Named updates -/

def State.setOe (b : Bool) (s : State) : State := { s with oe := b }
def State.setSession (x : Session) (s : State) : State := { s with session := x }
def State.setCoreId (w : Word) (s : State) : State := { s with coreId := w }
def State.setLastStatus (x : LastStatus) (s : State) : State := { s with lastStatus := x }
def State.setMode (m : ProbeMode) (s : State) : State := { s with mode := m }
def State.setTarget (t : Target) (s : State) : State := { s with target := t }
def State.setData (w : Word) (s : State) : State := { s with data := w }
def State.setResult (r : OpResult) (s : State) : State := { s with result := r }
def State.setInbox (q : List Request) (s : State) : State := { s with inbox := q }
def State.setDraws (n : Nat) (s : State) : State := { s with draws := n }
def State.setCleared (n : Nat) (s : State) : State := { s with cleared := n }

/-- `transmit(buffer)`: the buffer is handed to the host; the bytes it says it took are ignored (46_host_adapter R339). -/
def State.transmit (buf : List Byte) (s : State) : State := { s with sent := s.sent ++ [buf] }

/-! ## Draws (log 5) -/

/-- An unspecified word. -/
def drawWord : Op Word := fun s => .ok (Config.drawWord s.draws, s.setDraws (s.draws + 1))

/-- An unspecified response. -/
def drawResponse : Op (List Byte) := fun s => .ok (Config.drawResponse s.draws, s.setDraws (s.draws + 1))

/-- `n` unspecified bytes, the first with counter `k`. -/
def drawnBytes (k : Nat) : Nat → List Byte
  | 0 => []
  | n + 1 => Config.drawByte k :: drawnBytes (k + 1) n

/-- `n` unspecified bytes. -/
def drawBytes (n : Nat) : Op (List Byte) :=
  fun s => .ok (drawnBytes s.draws n, s.setDraws (s.draws + n))

/-! ## Sparse stores: keys strictly rising, no entry equal to what an unlisted key reads as -/

/-- What key `k` reads as. -/
def sparseGet {β : Type} (dflt : β) : List (Nat × β) → Nat → β
  | [], _ => dflt
  | (a, v) :: rest, k => if a = k then v else sparseGet dflt rest k

/-- The store with key `k` at `v`, in canonical form. -/
def sparseSet {β : Type} [DecidableEq β] (dflt : β) : List (Nat × β) → Nat → β → List (Nat × β)
  | [], k, v => if v = dflt then [] else [(k, v)]
  | (a, w) :: rest, k, v =>
    if k < a then (if v = dflt then (a, w) :: rest else (k, v) :: (a, w) :: rest)
    else if k = a then (if v = dflt then rest else (k, v) :: rest)
    else (a, w) :: sparseSet dflt rest k v

/-- The canonical form holds. -/
abbrev SparseWf {β : Type} (dflt : β) (m : List (Nat × β)) : Prop :=
  m.Pairwise (fun x y => x.1 < y.1) ∧ ∀ c ∈ m, c.2 ≠ dflt

/-! ## The target's memory -/

/-- What a byte nothing has written reads as (95_test_vectors section 1: "every byte 0x00"; DESIGN CHOICE, unsafe, log 16). -/
def Memory.unlisted : Byte := 0

/-- The canonical form of memory, with every address inside the 32-bit space (10_state R51). -/
abbrev Memory.wf (m : List Host.Cell) : Prop :=
  SparseWf Memory.unlisted m ∧ ∀ c ∈ m, c.1 < 2 ^ 32

/-- `MemRead(addr, 1)`. -/
def Memory.readByte (m : List Host.Cell) (a : Word) : Byte := sparseGet Memory.unlisted m a.toNat

/-- `MemWrite(addr, 1, v)`. -/
def Memory.writeByte (m : List Host.Cell) (a : Word) (v : Byte) : List Host.Cell :=
  sparseSet Memory.unlisted m a.toNat v

/-- `MemRead(a & ~3, 4)`, assembled little-endian (20_memory R93). -/
def Memory.readWord (m : List Host.Cell) (a : Word) : Word :=
  let b := alignWord a
  bytesWord (Memory.readByte m b) (Memory.readByte m (b + 1)) (Memory.readByte m (b + 2)) (Memory.readByte m (b + 3))

/-- `MemWrite(a & ~3, 4, w)`: byte `w[8j+7:8j]` at `(a & ~3) + j` (20_memory R92). -/
def Memory.writeWord (m : List Host.Cell) (a : Word) (w : Word) : List Host.Cell :=
  let b := alignWord a
  Memory.writeByte (Memory.writeByte (Memory.writeByte (Memory.writeByte m b (w.extractLsb' 0 8))
    (b + 1) (w.extractLsb' 8 8)) (b + 2) (w.extractLsb' 16 8)) (b + 3) (w.extractLsb' 24 8)

/-- `MemWrite(a, 1, w[8*(a&3)+7 : 8*(a&3)])`: the byte in its lane, the other lanes ignored (20_memory R92). -/
def Memory.writeLane (m : List Host.Cell) (a : Word) (w : Word) : List Host.Cell :=
  Memory.writeByte m a (laneByte a w)

/-- The bus word of a byte read: the byte in its lane, the other lanes from a draw (20_memory R93). -/
def Memory.readLane (m : List Host.Cell) (a : Word) (fresh : Word) : Word :=
  (fresh &&& ~~~ (laneWord a 0xFF)) ||| laneWord a (Memory.readByte m a)

/-- A halfword write in its two lanes (PRESUMED, log 14: R57 names the size, no rule gives the access). -/
def Memory.writeHalf (m : List Host.Cell) (a : Word) (w : Word) : List Host.Cell :=
  let b := a &&& ~~~ 1
  Memory.writeByte (Memory.writeByte m b (laneByte b w)) (b + 1) (laneByte (b + 1) w)

/-- The bus word of a halfword read, the other lanes from a draw (PRESUMED, log 14). -/
def Memory.readHalf (m : List Host.Cell) (a : Word) (fresh : Word) : Word :=
  let b := a &&& ~~~ 1
  (fresh &&& ~~~ (laneWord b 0xFF ||| laneWord (b + 1) 0xFF)) |||
    laneWord b (Memory.readByte m b) ||| laneWord (b + 1) (Memory.readByte m (b + 1))

end Sys2Proof.Machine
end

