-- ==== Sys2Proof/Machine/TargetModel.lean ====
section
/-! DEFINITION. The reference target of 10_state section 3.4 (R62-R75): how it answers a request and what a transaction
with ACK OK does to its registers. It is not normative for any real target (R10, D44; log 4). The functions are pure;
`n` is the number of the first free value they may use (log 5). -/

namespace Sys2Proof.Machine

/-- How many free values one reaction of the target may use: four for each of the 2^12 transfers a request can stand for
when TRNCNT counts (log 32). -/
def targetDraws : Nat := 16384

/-! ## Register addressing (10_state R50) -/

/-- `{SELECT.APBANKSEL, A[3:2], 0b00}`. -/
def apRegAddr (select : Word) (code : Byte) : Nat :=
  (apBankSel select).toNat * 16 + (headerAddr code).toNat * 4

/-- The key of an AP register in `apOther`: APSEL above its register address. -/
def apRegKey (select : Word) (code : Byte) : Nat :=
  (apSel select).toNat * 256 + apRegAddr select code

/-- The AP registers of AP 0 the spec gives (R57-R60); every other AP register is only stored (log 15). -/
inductive ApReg where
  | csw
  | tar
  | drw
  | idr
  | other
  deriving DecidableEq, Repr

/-- The register an AP request reaches (R50, 70_reset R398). -/
def apReg (select : Word) (code : Byte) : ApReg :=
  if apSel select = 0 then
    if apRegAddr select code = 0x00 then .csw
    else if apRegAddr select code = 0x04 then .tar
    else if apRegAddr select code = 0x0C then .drw
    else if apRegAddr select code = 0xFC then .idr
    else .other
  else .other

/-- The DP register at address 0x4 is CTRL/STAT in DP bank 0 only (R50, R54). -/
def ctrlStatSelected (t : Target) : Bool := dpBankSel t.select == 0

/-! ## TAR (R64) -/

/-- TAR after a DRW access: only TAR[9:0] advances; with an AddrInc or Size the rule does not cover, a free value
(log 14). -/
def nextTar (csw tar fresh : Word) : Word :=
  if cswAddrInc csw = 0b00#2 then tar
  else
    match cswAddrInc csw == 0b01#2, sizeBytes (cswSize csw) with
    | true, some k => (tar &&& 0xFFFFFC00) ||| ((tar + BitVec.ofNat 32 k) &&& 0x000003FF)
    | _, _ => fresh

/-! ## The debug registers (R75) -/

/-- The transfer in progress is done: DCRDR goes to the register or comes from it. DESIGN CHOICE, unsafe: with a delay above
0, R75 does not say whether the value moves when DCRSR is written or when the transfer is done; it is the latter here, in both
directions. So a DCRDR write during a register write changes what the register gets, and a DCRDR write during a register read
is lost, because DCRDR then takes the register's value as it is at the end (log 17). -/
def Target.finishTransfer (t : Target) : Target :=
  match t.transfer with
  | none => t
  | some x =>
    if x.isWrite then
      { t with coreRegs := sparseSet 0 t.coreRegs x.index.toNat t.dcrdr, regReady := true, transfer := none,
               regLeft := none }
    else
      { t with dcrdr := sparseGet 0 t.coreRegs x.index.toNat, regReady := true, transfer := none, regLeft := none }

/-- A word write of DCRSR starts a transfer of register `v[7:0]`, a write when `v[16]` is 1. -/
def Target.startTransfer (t : Target) (v : Word) : Target :=
  let t := { t with transfer := some ⟨v.extractLsb' 0 8, v.getLsbD 16⟩, regReady := false, regLeft := t.regDelay }
  if t.regDelay = some 0 then t.finishTransfer else t

/-- The word a read of DHCSR gives: S_REGRDY in bit 16, C_DEBUGEN in bit 0. -/
def Target.dhcsrWord (t : Target) : Word :=
  (if t.regReady then sRegRdy else 0) ||| (if t.debugEn then 1 else 0)

/-- A DHCSR read counts down a transfer in progress. -/
def Target.countRegRead (t : Target) : Target :=
  match t.regLeft with
  | none => t
  | some k => if k ≤ 1 then t.finishTransfer else { t with regLeft := some (k - 1) }

/-- A word read in the core register window, or none elsewhere. -/
def Target.debugRead (fresh : Word) (t : Target) (a : Word) : Option (Word × Target) :=
  if a = addrDhcsr then some (t.dhcsrWord, t.countRegRead)
  else if a = addrDcrsr then some (fresh, t)
  else if a = addrDcrdr then some (if t.transfer = none then t.dcrdr else fresh, t)
  else none

/-- A word write in the core register window, or none elsewhere. -/
def Target.debugWrite (t : Target) (a w : Word) : Option Target :=
  if a = addrDhcsr then some (if w.extractLsb' 16 16 = 0xA05F#16 then { t with debugEn := w.getLsbD 0 } else t)
  else if a = addrDcrsr then some (t.startTransfer w)
  else if a = addrDcrdr then some { t with dcrdr := w }
  else none

/-! ## Target-memory accesses (20_memory R92, R93) -/

/-- The bus answers an access to this address with an error (R67, log 16). -/
def Target.busError (t : Target) (a : Word) : Bool := t.busErrors.contains (alignWord a).toNat

/-- The bus word of a DRW read at TAR with width CSW.Size (R66). -/
def Target.busRead (n : Nat) (t : Target) : Word × Target :=
  let fresh := Config.drawWord n
  if t.busError t.tar then (fresh, { t with ctrlStat := t.ctrlStat ||| stickyErrMask })
  else
    match sizeBytes (cswSize t.csw) with
    | some 4 =>
      match t.debugRead fresh (alignWord t.tar) with
      | some r => r
      | none => (Memory.readWord t.mem t.tar, t)
    | some 2 => (Memory.readHalf t.mem t.tar fresh, t)
    | some 1 => (Memory.readLane t.mem t.tar fresh, t)
    | _ => (fresh, t)

/-- A DRW write of `w` at TAR with width CSW.Size (R65). With a reserved Size the aligned word takes a free value
(log 14). -/
def Target.busWrite (n : Nat) (w : Word) (t : Target) : Target :=
  if t.busError t.tar then { t with ctrlStat := t.ctrlStat ||| stickyErrMask }
  else
    match sizeBytes (cswSize t.csw) with
    | some 4 =>
      match t.debugWrite (alignWord t.tar) w with
      | some t' => t'
      | none => { t with mem := Memory.writeWord t.mem t.tar w }
    | some 2 => { t with mem := Memory.writeHalf t.mem t.tar w }
    | some 1 => { t with mem := Memory.writeLane t.mem t.tar w }
    | _ => { t with mem := Memory.writeWord t.mem t.tar (Config.drawWord n) }

/-! ## What a transaction with ACK OK does -/

/-- CTRL/STAT read: the word, and one step of the power-up delay (R63, R72). -/
def Target.readCtrlStat (t : Target) : Word × Target :=
  match t.pwrLeft with
  | none => (t.ctrlStat, t)
  | some k =>
    (t.ctrlStat,
      if k ≤ 1 then { t with ctrlStat := settlePower t.ctrlStat, pwrLeft := none }
      else { t with pwrLeft := some (k - 1) })

/-- CTRL/STAT after a write, but for the power-up acknowledges; with `statusLive` CDBGRSTACK follows CDBGRSTREQ (log 32). -/
def Target.statusWritten (t : Target) (w : Word) : Word :=
  let v := Machine.writeCtrlStat t.ctrlStat w
  if t.statusLive then settleReset v else v

/-- CTRL/STAT write: the writable fields, then the acknowledges at once or after the delay (R72). -/
def Target.writeCtrlStat (t : Target) (w : Word) : Target :=
  let t := { t with ctrlStat := t.statusWritten w }
  match t.pwrDelay with
  | none => { t with pwrLeft := none }
  | some 0 => { t with ctrlStat := settlePower t.ctrlStat, pwrLeft := none }
  | some (k + 1) => { t with pwrLeft := some (k + 1) }

/-- An AP read: it returns the result of the previous AP read, a free value when `stale`, then performs the addressed
read into `rdbuf` (R62). -/
def Target.apRead (n : Nat) (code : Byte) (t : Target) : Word × Target :=
  let returned := if t.stale then Config.drawWord (n + 1) else t.rdbuf
  match apReg t.select code with
  | .drw =>
    let (w, t) := t.busRead n
    (returned, { t with rdbuf := w, stale := false, tar := nextTar t.csw t.tar (Config.drawWord (n + 2)) })
  | .idr => (returned, { t with rdbuf := t.idr, stale := false })
  | .csw => (returned, { t with rdbuf := t.csw, stale := false })
  | .tar => (returned, { t with rdbuf := t.tar, stale := false })
  | .other => (returned, { t with rdbuf := Config.drawWord n, stale := false })

/-- AP transactions and RDBUFF reads: what READOK is about (R54), what can be answered WAIT or FAULT (R67, R69). -/
def blockable (code : Byte) : Bool := headerApndp code || code == codeRdRdbuff

/-- READOK after this request, of a target with `statusLive` (R54 "last AP or RDBUFF read was OK"; log 32). The reference
target's stays as it is: "A DP read of RDBUFF ... changes nothing else" (R63). -/
def Target.noteRead (code : Byte) (ok : Bool) (t : Target) : Target :=
  if t.statusLive && isRead code && blockable code then { t with ctrlStat := setReadOk t.ctrlStat ok } else t

/-- STICKYORUN after a WAIT, of a target with `statusLive` and ORUNDETECT set (R54; PRESUMED, log 32). -/
def Target.noteOverrun (t : Target) : Target :=
  if t.statusLive && orunDetect t.ctrlStat then { t with ctrlStat := t.ctrlStat ||| stickyOrunMask } else t

/-- The word a read request gets, and the target after it (R62, R63, R66). -/
def Target.performRead (n : Nat) (code : Byte) (t : Target) : Word × Target :=
  if headerApndp code then
    let (w, t) := t.apRead n code
    (w, t.noteRead code true)
  else if code = codeRdIdcode then (t.idcode, t)
  else if code = codeRdRdbuff then (t.rdbuf, t.noteRead code true)
  else if ctrlStatSelected t then t.readCtrlStat
  else (Config.drawWord n, t)

/-- A pushed transfer: the word is compared with the one read at TAR, in the byte lanes of MASKLANE, and nothing is written;
a match in pushed compare and a mismatch in pushed verify set STICKYCMP (R54; PRESUMED, log 32). -/
def Target.pushCompare (n : Nat) (w : Word) (t : Target) : Target :=
  let (r, u) := t.busRead n
  if t.busError t.tar then u
  else if ((r ^^^ w) &&& laneMask t.ctrlStat == 0) == (trnMode t.ctrlStat == 0b10#2) then
    { u with ctrlStat := u.ctrlStat ||| stickyCmpMask }
  else u

/-- One transfer of a DRW write: the memory write (R65), or a pushed transfer; then TAR (R64). -/
def Target.drwWrite (n : Nat) (w : Word) (t : Target) : Target :=
  let u := if t.statusLive && pushedMode t.ctrlStat then t.pushCompare n w else t.busWrite n w
  { u with tar := nextTar u.csw u.tar (Config.drawWord (n + 2)) }

/-- `k` more transfers after the first, each counting TRNCNT down, until a sticky flag is set (R54; PRESUMED, log 32). -/
def Target.drwWrites (n : Nat) (w : Word) : Nat → Target → Target
  | 0, t => t.drwWrite n w
  | k + 1, t =>
    let u := t.drwWrite n w
    if stickySet u.ctrlStat then u
    else Target.drwWrites (n + 4) w k { u with ctrlStat := u.ctrlStat - 0x00001000 }

/-- A DRW write is one memory write and nothing else (R65): the target does not act on TRNMODE and TRNCNT, or they are 0,
normal transfer mode (45_session R306). -/
def Target.normalTransfer (t : Target) : Bool := !t.statusLive || t.ctrlStat &&& 0x00FFF00C == 0

/-- An AP write (R57-R59, R65; IDR is read-only). -/
def Target.apWrite (n : Nat) (code : Byte) (w : Word) (t : Target) : Target :=
  match apReg t.select code with
  | .csw => { t with csw := writeCsw t.csw w }
  | .tar => { t with tar := w }
  | .drw => t.drwWrites n w (if t.statusLive then trnCnt t.ctrlStat else 0)
  | .idr => t
  | .other => { t with apOther := sparseSet 0 t.apOther (apRegKey t.select code) w }

/-- The effect of a write request's data word (R53-R55, R65, R68). -/
def Target.performWrite (n : Nat) (code : Byte) (w : Word) (t : Target) : Target :=
  if headerApndp code then t.apWrite n code w
  else if code = codeWrAbort then
    { t with ctrlStat := clearSticky t.ctrlStat w, busy := if w.getLsbD 0 then 0 else t.busy }
  else if code = codeWrSelect then { t with select := w, stale := true }
  else if ctrlStatSelected t then t.writeCtrlStat w
  else { t with dpOther := sparseSet 0 t.dpOther (dpBankSel t.select).toNat w }

/-! ## How the target answers a request -/

/-- The reference target's own ACK: FAULT while a sticky flag is set (R67), WAIT while the AP is busy (R69). -/
def Target.naturalAck (t : Target) (code : Byte) : Ack :=
  if blockable code then
    if stickySet t.ctrlStat then .fault
    else if t.busy ≠ 0 then .wait
    else .ok
  else .ok

/-- The levels after the header when nothing but an ACK and a turnaround follow: turnaround, ack[0..2] (R135). -/
def ackLevels (raw : BitVec 3) : List (Option Bool) :=
  [none, some (raw.getLsbD 0), some (raw.getLsbD 1), some (raw.getLsbD 2)]

/-- The levels of an OK read: turnaround, ACK, 32 data bits, the parity bit, turnaround (R135). -/
def readLevels (w : Word) (parity : Bool) : List (Option Bool) :=
  ackLevels 0b001 ++ (lsbBits 32 w).map some ++ [some parity, none]

/-- The target answers OK: a read is performed and its word driven; a write waits for its data. -/
def Target.answerOk (n : Nat) (code : Byte) (t : Target) : Target :=
  if isRead code then
    let (w, t) := t.performRead n code
    { t with drive := readLevels w (parity32 w) }
  else { t with accepting := true, drive := ackLevels 0b001 }

/-- The target answers WAIT. -/
def Target.answerWait (t : Target) : Target := { t with drive := ackLevels 0b010 }

/-- The target answers FAULT. -/
def Target.answerFault (t : Target) : Target := { t with drive := ackLevels 0b100 }

/-- The target drives nothing (R73). -/
def Target.stayMute (t : Target) : Target := { t with drive := [] }

/-- The target does not answer: its port speaks JTAG, or it expects a read of IDCODE (R71; log 11, log 12). -/
def Target.deaf (t : Target) (code : Byte) : Bool :=
  t.protocol == .jtag || (t.expectsIdcode && code != codeRdIdcode)

/-- The answer as R62-R75 say. -/
def Target.answerNormally (n : Nat) (code : Byte) (t : Target) : Target :=
  if t.deaf code then t.stayMute
  else
    let t := if code = codeRdIdcode then { t with expectsIdcode := false } else t
    match t.naturalAck code with
    | .fault => (t.noteRead code false).answerFault
    | .wait => (({ t with busy := t.busy - 1 } : Target).noteRead code false).noteOverrun.answerWait
    | _ => t.answerOk n code

/-- One change the target agent chose (60_exceptions R363); stores keep their canonical form. -/
def Target.change (t : Target) : TargetChange → Target
  | .protocol p => { t with protocol := p }
  | .expectsIdcode b => { t with expectsIdcode := b }
  | .ctrlStat w => { t with ctrlStat := w }
  | .select w => { t with select := w }
  | .rdbuf w => { t with rdbuf := w }
  | .stale b => { t with stale := b }
  | .csw w => { t with csw := w }
  | .tar w => { t with tar := w }
  | .apOther key w => { t with apOther := sparseSet 0 t.apOther key w }
  | .dpOther bank w => { t with dpOther := sparseSet 0 t.dpOther bank w }
  | .memByte a b => { t with mem := Memory.writeByte t.mem a b }
  | .busy n => { t with busy := n }
  | .pwrLeft n => { t with pwrLeft := n }
  | .dcrdr w => { t with dcrdr := w }
  | .debugEn b => { t with debugEn := b }
  | .regReady b => { t with regReady := b }
  | .transfer x => { t with transfer := x }
  | .regLeft n => { t with regLeft := n }
  | .coreReg index w => { t with coreRegs := sparseSet 0 t.coreRegs index.toNat w }

/-- Injected ACK bits: the ones of OK, WAIT and FAULT are those answers, with what R363 says they do; any other is followed by
silence, and the target takes the effect the agent chose (R363, I43). -/
def Target.answerRaw (n : Nat) (code : Byte) (bits : BitVec 3) (effect : List TargetChange) (t : Target) : Target :=
  match classifyAck bits with
  | .ok => t.answerOk n code
  | .wait => (t.noteRead code false).answerWait
  | .fault => (t.noteRead code false).answerFault
  | _ => { effect.foldl Target.change t with drive := ackLevels bits }

/-- The answer the target agent injects (log 18). -/
def Target.answerInjected (n : Nat) (code : Byte) (a : Answer) (t : Target) : Target :=
  let t := if code = codeRdIdcode then { t with expectsIdcode := false } else t
  match a with
  | .normal => t.answerNormally n code
  | .wait => (t.noteRead code false).answerWait
  | .fault => (({ t with ctrlStat := t.ctrlStat ||| stickyErrMask } : Target).noteRead code false).answerFault
  | .badParity w =>
    if isRead code then { (t.performRead n code).2 with drive := readLevels w (!parity32 w) }
    else t.answerOk n code
  | .raw bits effect => t.answerRaw n code bits effect
  | .silent => t.stayMute

/-- The target has sampled a request header: it prepares its levels. The first injected answer is used up (log 18). -/
def Target.onRequest (n : Nat) (code : Byte) (t : Target) : Target :=
  if t.attached then
    match t.answers with
    | [] => ({ t with accepting := false } : Target).answerNormally n code
    | a :: rest => ({ t with accepting := false, answers := rest } : Target).answerInjected n code a
  else t.stayMute

/-- The core has sent the data word of a write whose ACK it read as OK. The target takes it when it did answer OK
(`accepting`), not when the core took noise for an ACK. A target that is not attached only has the SELECT value in force
recorded (log 6). -/
def Target.onData (n : Nat) (code : Byte) (w : Word) (t : Target) : Target :=
  if t.attached then
    if t.accepting then { t.performWrite n code w with accepting := false } else t
  else if code = codeWrSelect then { t with select := w }
  else t

/-- The target has seen a line reset: its port is in its reset state (R71); what the read pipeline holds is unspecified
(R62; log 11). DESIGN CHOICE, unsafe: SELECT, CTRL/STAT with its sticky flags, a busy AP and every other register stay as they
were, where the source gives nothing on the state a line reset leaves (91_not_in_source N12; log 11). -/
def Target.onLineReset (n : Nat) (t : Target) : Target :=
  if t.attached then
    if t.protocol = .swd then { t with expectsIdcode := true, stale := true, rdbuf := Config.drawWord n } else t
  else t

/-- The target has seen a switch sequence: its port speaks that protocol (R71). DESIGN CHOICE, unsafe: nothing else at the
target changes, SELECT, CSW, TAR, the read pipeline and whether it expects a read of IDCODE included, so a port switched back
to SWD answers at once, with no line reset; R71 says only which protocol a sequence selects (log 12). -/
def Target.onSwitch (p : PortProtocol) (t : Target) : Target :=
  if t.attached then { t with protocol := p } else t

end Sys2Proof.Machine
end

