-- ==== Sys2Proof/Machine/Phy.lean ====
section
/-! DEFINITION. The Bit-Level PHY (40_phy R160-R170) and the level `Sample()` returns (10_state R37). -/

namespace Sys2Proof.Machine

/-! ## Ports (10_state R36: "The ports equal the state at all times") -/

/-- Port SWCLK. -/
def State.swclk (s : State) : Bool := s.clk
/-- Port SWDIO_OE. -/
def State.swdioOe (s : State) : Bool := s.oe
/-- Port SWDIO_OUT. -/
def State.swdioOut (s : State) : Bool := s.dout

/-! ## Samples (R37) -/

/-- A level nobody modelled drives: the target agent's next level, a free value when none is given (log 5). -/
def State.drawLevel (s : State) : Bool × State :=
  match s.levels with
  | b :: rest => (b, { s with levels := rest })
  | [] => (Config.drawLevel s.draws, s.setDraws (s.draws + 1))

/-- `Sample()`: the target's bit when the target drives the line, else a draw. -/
def State.sample (s : State) : Bool × State :=
  match s.target.drive with
  | some b :: rest => (b, s.setTarget { s.target with drive := rest })
  | none :: rest => (s.setTarget { s.target with drive := rest }).drawLevel
  | [] => s.drawLevel

/-! ## Bit cells (R162) -/

/-- The trace record of an out-cell (10_state R44). -/
def WireCell.driven (b : Bool) : WireCell := ⟨true, some b, none⟩

/-- The trace record of an in-cell (10_state R44). -/
def WireCell.sampled (b : Bool) : WireCell := ⟨false, none, some b⟩

/-- Out-cell driving `b`: data, clock low, clock high, one trace record. -/
def State.outCell (b : Bool) (s : State) : State :=
  let s := { s with dout := b }
  let s := { s with clk := false }
  let s := { s with clk := true }
  { s with trace := s.trace ++ [WireCell.driven b] }

/-- In-cell: clock low, sample, clock high, one trace record. -/
def State.inCell (s : State) : Bool × State :=
  let s := { s with clk := false }
  let (b, s) := s.sample
  let s := { s with clk := true }
  (b, { s with trace := s.trace ++ [WireCell.sampled b] })

/-- Out-cells driving these bits in order. -/
def State.outCells : List Bool → State → State
  | [], s => s
  | b :: bs, s => State.outCells bs (s.outCell b)

/-- `n` in-cells: the sampled bits in wire order. -/
def State.inCells : Nat → State → List Bool × State
  | 0, s => ([], s)
  | n + 1, s =>
    let (b, s) := s.inCell
    let (bs, s) := State.inCells n s
    (b :: bs, s)

/-! ## The four PHY operations -/

/-- `setDataLineOutput()` (R161). -/
def setDataLineOutput : Op Unit := modify (State.setOe true)

/-- `setDataLineInput()` (R163). -/
def setDataLineInput : Op Unit := modify (State.setOe false)

/-- `shiftOutBits(value, n)` (R164, R166, R168). -/
def shiftOutBits (value : Word) (n : Nat) : Op Unit := do
  let s ← get
  if maxShift < n then raise .shiftCountTooLarge
  else if s.oe = false then raise .phyMisuse
  else modify (State.outCells (lsbBits n value))

/-- `shiftInBits(n)` (R165, R166, R168). -/
def shiftInBits (n : Nat) : Op Word := do
  let s ← get
  if maxShift < n then raise .shiftCountTooLarge
  else if s.oe = true then raise .phyMisuse
  else
    let (bits, s) := s.inCells n
    set s
    pure (assemble bits)

/-! ## Runs of one level (42_error_recovery R224) -/

/-- `while n > 0: k <- min(n, 32); shiftOutBits(value, k); n <- n - k`; `fuel` = `n` is enough. -/
def sendRunLoop (value : Word) : Nat → Nat → Op Unit
  | 0, _ => pure ()
  | fuel + 1, n =>
    if n = 0 then pure ()
    else do
      shiftOutBits value (min n maxShift)
      sendRunLoop value fuel (n - min n maxShift)

/-- `sendOnes(n)`. -/
def sendOnes (n : Nat) : Op Unit := sendRunLoop 0xFFFFFFFF n n

/-- `sendZeros(n)`. -/
def sendZeros (n : Nat) : Op Unit := sendRunLoop 0x00000000 n n

/-- A target reaction that may use free values (log 5): the target changes, the counter passes what it may have used. -/
def targetReacts (f : Nat → Target → Target) : Op Unit :=
  modify fun s => (s.setTarget (f s.draws s.target)).setDraws (s.draws + targetDraws)

/-- `LINE_RESET` (30_encoding R145): `LR_ONES` ones; the target sees a line reset (10_state R71). -/
def lineResetRun : Op Unit := do
  let s ← get
  sendOnes s.params.lrOnes
  targetReacts Target.onLineReset

/-- `IDLE` (R148): `IDLE_BITS` zeros. -/
def idleRun : Op Unit := do
  let s ← get
  sendZeros s.params.idleBits

/-- `JTAG_TO_SWD` (R146): the 16-bit value, LSB-first; the target's port then speaks SWD (10_state R71). -/
def sendJtagToSwd : Op Unit := do
  shiftOutBits (jtagToSwdValue.setWidth 32) 16
  targetReacts fun _ t => t.onSwitch .swd

/-- `SWD_TO_JTAG` (R147): the 16-bit value, LSB-first; the target's port then speaks JTAG (10_state R71). -/
def sendSwdToJtag : Op Unit := do
  shiftOutBits (swdToJtagValue.setWidth 32) 16
  targetReacts fun _ t => t.onSwitch .jtag

end Sys2Proof.Machine
end

