-- ==== Sys2Proof/Machine/Transaction.lean ====
section
/-! DEFINITION. The Transaction Engine (41_transaction R180-R196) and the meanings of the eleven request codes
(R184-R194). -/

namespace Sys2Proof.Machine

/-! ## The exchange (R180) -/

/-- The data phase of an OK read: data, parity, turnaround, then drive again (R135, conflict C1). -/
def readDataPhase : Op (Ack × Word) := do
  let d ← shiftInBits 32
  let p ← shiftInBits 1
  let _ ← shiftInBits 1
  setDataLineOutput
  pure (if p.getLsbD 0 = parity32 d then .ok else .parityError, d)

/-- The data phase of an OK write: turnaround, drive, data, parity; then the target has the word. -/
def writeDataPhase (code : Byte) (data : Word) : Op (Ack × Word) := do
  let _ ← shiftInBits 1
  setDataLineOutput
  shiftOutBits data 32
  shiftOutBits (if parity32 data then 1 else 0) 1
  targetReacts fun n => Target.onData n code data
  pure (.ok, data)

/-- After WAIT or FAULT: a turnaround, then drive again; no data phase. -/
def noDataPhase (a : Ack) (data : Word) : Op (Ack × Word) := do
  let _ ← shiftInBits 1
  setDataLineOutput
  pure (a, data)

/-- After any other ACK: a full data, parity and turnaround phase, sampled and discarded. -/
def discardedPhase (a : Ack) (data : Word) : Op (Ack × Word) := do
  let _ ← shiftInBits 32
  let _ ← shiftInBits 1
  let _ ← shiftInBits 1
  setDataLineOutput
  pure (a, data)

/-- `executeTransaction(code, data) -> Ack` (R180). The result pairs the Ack with what the in/out cell `data` holds
afterwards: the received word on an OK read, what it held before on every other path (R181). -/
def executeTransaction (code : Byte) (data : Word) : Op (Ack × Word) :=
  if isLegalCode code then do
    shiftOutBits (code.setWidth 32) 8
    targetReacts fun n => Target.onRequest n code
    setDataLineInput
    let _ ← shiftInBits 1
    let raw ← shiftInBits 3
    match classifyAck (raw.setWidth 3) with
    | .ok => if isRead code then readDataPhase else writeDataPhase code data
    | .wait => noDataPhase .wait data
    | .fault => noDataPhase .fault data
    | a => discardedPhase a data
  else raise .illegalRequestCode

/-! ## Retry (R195) -/

/-- `while r = WAIT and left > 0`: the whole exchange again. -/
def retryLoop (code : Byte) : Nat → Ack × Word → Op (Ack × Word)
  | 0, r => pure r
  | left + 1, r =>
    if r.1 = .wait then do
      let r ← executeTransaction code r.2
      retryLoop code left r
    else pure r

/-- `executeTransactionWithRetry(code, data, maxRetries) -> Ack` (R195). -/
def executeTransactionWithRetry (code : Byte) (data : Word) (maxRetries : Nat) : Op (Ack × Word) := do
  let r ← executeTransaction code data
  retryLoop code maxRetries r

/-! ## From an operation to an outcome -/

/-- An operation run as one step: its result is recorded (10_state R44, log 7); a model fault stops the machine. -/
def Op.outcome (x : Op OpResult) (s : State) : Host.Outcome State Fault Refusal :=
  match x s with
  | .ok (r, s') => .next (s'.setResult r)
  | .error f => .fault f

/-- One transaction as an instruction: its data cell is State's `data` (log 7). -/
def transact (code : Byte) (data : Word) : Op OpResult := do
  let (a, d) ← executeTransaction code data
  modify (State.setData d)
  pure (.ack a)

/-! ## The eleven request codes (R184-R194) -/

/-- `RD_IDCODE` (R184). -/
def execRdIdcode (s : State) : Host.Outcome State Fault Refusal :=
  (transact codeRdIdcode s.data).outcome s

/-- `WR_ABORT` (R185). -/
def execWrAbort (data : Word) (s : State) : Host.Outcome State Fault Refusal :=
  (transact codeWrAbort data).outcome s

/-- `RD_CTRLSTAT` (R186). -/
def execRdCtrlstat (s : State) : Host.Outcome State Fault Refusal :=
  (transact codeRdCtrlstat s.data).outcome s

/-- `WR_CTRLSTAT` (R187). -/
def execWrCtrlstat (data : Word) (s : State) : Host.Outcome State Fault Refusal :=
  (transact codeWrCtrlstat data).outcome s

/-- `WR_SELECT` (R188). -/
def execWrSelect (data : Word) (s : State) : Host.Outcome State Fault Refusal :=
  (transact codeWrSelect data).outcome s

/-- `RD_RDBUFF` (R189). -/
def execRdRdbuff (s : State) : Host.Outcome State Fault Refusal :=
  (transact codeRdRdbuff s.data).outcome s

/-- `WR_CSW` (R190). -/
def execWrCsw (data : Word) (s : State) : Host.Outcome State Fault Refusal :=
  (transact codeWrCsw data).outcome s

/-- `WR_TAR` (R191). -/
def execWrTar (data : Word) (s : State) : Host.Outcome State Fault Refusal :=
  (transact codeWrTar data).outcome s

/-- `RD_DRW` (R192). -/
def execRdDrw (s : State) : Host.Outcome State Fault Refusal :=
  (transact codeRdDrw s.data).outcome s

/-- `WR_DRW` (R193). -/
def execWrDrw (data : Word) (s : State) : Host.Outcome State Fault Refusal :=
  (transact codeWrDrw data).outcome s

/-- `RD_IDR` (R194). -/
def execRdIdr (s : State) : Host.Outcome State Fault Refusal :=
  (transact codeRdIdr s.data).outcome s

end Sys2Proof.Machine
end

