-- ==== Sys2Proof/Machine/Recovery.lean ====
section
/-! DEFINITION. The Error-Recovery Controller (42_error_recovery R220-R234): the connect and line-reset sequences,
`clearError`, the error wrap. The wrap's call of `clearError` stands for taking an exception, its code for the return
(60_exceptions R366-R368). -/

namespace Sys2Proof.Machine

/-! ## Line reset (R224, R225) -/

/-- `swdConnectSequence()` (R224). -/
def swdConnectSequence : Op Unit := do
  setDataLineOutput
  lineResetRun
  sendJtagToSwd
  lineResetRun
  idleRun

/-- `lineReset() -> (Ack, id)` (R225): one IDCODE read, no retry; `id` is unspecified unless the Ack is OK (R181). -/
def lineReset : Op (Ack × Word) := do
  swdConnectSequence
  let id ← drawWord
  executeTransaction codeRdIdcode id

/-! ## clearError (R220) -/

/-- A transaction with the full retry budget (R195, 00_scope R11). -/
def withFullRetry (code : Byte) (data : Word) : Op (Ack × Word) := do
  let s ← get
  executeTransactionWithRetry code data s.params.nRetry

/-- Step 1 (R226): read CTRL/STAT, value discarded; if that is not OK, a line reset whose result is ignored. -/
def recoverLink : Op Unit := do
  let tmp ← drawWord
  let (r, _) ← withFullRetry codeRdCtrlstat tmp
  if r = .ok then pure ()
  else do
    let _ ← lineReset
    pure ()

/-- The recovery path, steps 1 to 3 (R226-R229). -/
def recoveryPath : Op Code := do
  recoverLink
  let (r, _) ← withFullRetry codeWrAbort abortClearAll
  if r = .ok then do
    let s ← get
    let (r, _) ← withFullRetry codeWrCsw s.params.cswWord
    pure (if r = .ok then .ok else .hard)
  else pure .hard

/-- `clearError(ack) -> code` (R220). DESIGN CHOICE: a `protocolError` whose bits are the pattern of OK, WAIT or FAULT, which
10_state R42 excludes and no transaction ends with, takes the recovery path like the other patterns with a bit set (log 33). -/
def clearError (a : Ack) : Op Code :=
  match a with
  | .ok => pure .ok
  | .parityError => pure .soft
  | .protocolError raw => if raw = 0b000#3 then pure .soft else recoveryPath
  | .wait => recoveryPath
  | .fault => recoveryPath

/-! ## The error wrap (R232, R233) -/

/-- A failure was cleared: what the running operation reads into a buffer from here on is unspecified (43_memory_access
R252, R257; log 9). -/
def noteCleared (e : Code) : Op Unit := modify fun s => if e = .ok then s.setCleared (s.cleared + 1) else s

/-- `wrapped(code, data) -> code'` (R232), with what the `data` cell holds afterwards (R181). -/
def wrapped (code : Byte) (data : Word) : Op (Code × Word) := do
  let (a, d) ← withFullRetry code data
  if a = .ok then pure (.ok, d)
  else do
    let e ← clearError a
    noteCleared e
    pure (e, d)

/-- `W.X, v` in a multi-step operation (R233): the first non-zero code ends it. -/
def wrapWrite (code : Byte) (data : Word) : Steps Unit := do
  let (e, _) ← (wrapped code data : Op (Code × Word))
  Steps.check e

/-- `W.X, x` for a read into a local cell (R233). The cell starts unspecified (10_state R43), and stays so when a failed
read was cleared and the operation goes on (R181, log 9). -/
def wrapRead (code : Byte) : Steps Word := do
  let x ← (drawWord : Op Word)
  let (e, d) ← (wrapped code x : Op (Code × Word))
  Steps.check e
  pure d

/-! ## The switch sequences as instructions (30_encoding R146, R147; log 24) -/

/-- `JTAG_TO_SWD` (R146, R151): its sixteen bits. -/
def execJtagToSwd (s : State) : Host.Outcome State Fault Refusal :=
  (do sendJtagToSwd; pure OpResult.done : Op OpResult).outcome s

/-- `SWD_TO_JTAG` (R147, R151): its sixteen bits. -/
def execSwdToJtag (s : State) : Host.Outcome State Fault Refusal :=
  (do sendSwdToJtag; pure OpResult.done : Op OpResult).outcome s

end Sys2Proof.Machine
end

