-- ==== Sys2Proof/Machine/MemoryAccess.lean ====
section
/-! DEFINITION. The Memory Access Layer (43_memory_access R250-R260). -/

namespace Sys2Proof.Machine

/-! ## Preconditions (R250) -/

/-- The alignment check of every word operation. -/
def checkAligned (addr : Word) (len : Nat) : Op Unit :=
  if wordAligned addr len then pure () else raise .misalignedWordAccess

/-- The page check of the chunk primitives. -/
def checkPage (addr : Word) (len : Nat) : Op Unit :=
  if withinPage addr len then pure () else raise .chunkCrossesPage

/-! ## Chunk primitives -/

/-- `write DRW for each word`. -/
def writeWordsLoop : List Word → Steps Unit
  | [] => pure ()
  | w :: ws => do
    wrapWrite codeWrDrw w
    writeWordsLoop ws

/-- The transactions of `writeWord32Chunk`, of at least one word. -/
def writeChunkSteps (addr : Word) (words : List Word) : Steps Unit := do
  let s ← (get : Op State)
  wrapWrite codeWrCsw s.params.cswWord
  wrapWrite codeWrTar addr
  writeWordsLoop words
  let _ ← wrapRead codeRdRdbuff
  pure ()

/-- `writeWord32Chunk(addr, buf, len) -> code` (R251); `len` is the buffer's length. -/
def writeWord32Chunk (addr : Word) (buf : List Byte) : Op Code := do
  checkAligned addr buf.length
  checkPage addr buf.length
  if buf.length = 0 then pure .ok
  else (writeChunkSteps addr (bufWords buf)).code

/-- The word that goes into the buffer: the one received, or an unspecified one when a failure was cleared since the count of
cleared failures was `k`, when the operation started ("A word stored after a cleared failure is unspecified", R252, R257). -/
def storedWord (k : Nat) (w : Word) : Op Word := do
  let s ← get
  if s.cleared = k then pure w else drawWord

/-- `W.code, w; setWord(buf, i, w)`. -/
def readStored (k : Nat) (code : Byte) : Steps Word := do
  let w ← wrapRead code
  (storedWord k w : Op Word)

/-- The reads `codes` one after the other, each word stored: the code, and the words stored before a step failed. -/
def readsStored (k : Nat) : List Byte → Op (Code × List Word)
  | [] => pure (.ok, [])
  | code :: codes => do
    match ← (readStored k code).run with
    | .ok w => do
      let (e, ws) ← readsStored k codes
      pure (e, w :: ws)
    | .error e => pure (e, [])

/-- The reads whose words are stored: `read DRW for remaining words-1`, each word the one the DRW read before it asked for,
and the `final read from RDBUFF`. -/
def storedReads (n : Nat) : List Byte := List.replicate (n - 1) codeRdDrw ++ [codeRdRdbuff]

/-- The steps of `readWord32Chunk` before the first word is stored: CSW, TAR, the pipeline fill. -/
def startRead (addr : Word) : Steps Unit := do
  let s ← (get : Op State)
  wrapWrite codeWrCsw s.params.cswWord
  wrapWrite codeWrTar addr
  let _ ← wrapRead codeRdDrw
  pure ()

/-- The transactions of `readWord32Chunk` of `n` ≥ 1 words: the code, and the words stored before a step failed. -/
def readChunkSteps (addr : Word) (n : Nat) : Op (Code × List Word) := do
  let s ← get
  let e ← (startRead addr).code
  if e = .ok then readsStored s.cleared (storedReads n) else pure (e, [])

/-- `readWord32Chunk(addr, buf, len) -> code` (R252), with the buffer it fills: the words stored, and on a non-zero code
unspecified bytes where none was stored yet. -/
def readWord32Chunk (addr : Word) (len : Nat) : Op (Code × List Byte) := do
  checkAligned addr len
  checkPage addr len
  if len = 0 then pure (.ok, [])
  else do
    let (e, ws) ← readChunkSteps addr (len / 4)
    let rest ← drawBytes (len - 4 * ws.length)
    pure (e, wordsBytes ws ++ rest)

/-! ## The public 32-bit operations (R254, R255) -/

/-- A chunk written, and written once more when that failed. -/
def writeChunkRetried (addr : Word) (buf : List Byte) : Op Code := do
  let e ← writeWord32Chunk addr buf
  if e = .ok then pure .ok else writeWord32Chunk addr buf

/-- The chunks of `writeMem32` in order; the first that fails twice ends it. -/
def writeMem32Loop : List (Word × Nat) → List Byte → Op Code
  | [], _ => pure .ok
  | (a, c) :: rest, buf => do
    let e ← writeChunkRetried a (buf.take c)
    if e = .ok then writeMem32Loop rest (buf.drop c) else pure e

/-- `writeMem32(addr, buf, len) -> code` (R254). -/
def writeMem32 (addr : Word) (buf : List Byte) : Op Code := do
  checkAligned addr buf.length
  writeMem32Loop (chunks addr buf.length) buf

/-- A chunk read, and read once more when that failed. -/
def readChunkRetried (addr : Word) (len : Nat) : Op (Code × List Byte) := do
  let (e, bytes) ← readWord32Chunk addr len
  if e = .ok then pure (.ok, bytes) else readWord32Chunk addr len

/-- The chunks of `readMem32` in order; after a chunk that fails twice, its bytes and all later ones are unspecified
(R255, log 22). -/
def readMem32Loop : List (Word × Nat) → Op (Code × List Byte)
  | [] => pure (.ok, [])
  | (a, c) :: rest => do
    let (e, bytes) ← readChunkRetried a c
    if e = .ok then do
      let (e', more) ← readMem32Loop rest
      pure (e', bytes ++ more)
    else do
      let bytes ← drawBytes (c + (rest.map Prod.snd).sum)
      pure (e, bytes)

/-- `readMem32(addr, buf, len) -> code` (R255), with the buffer. -/
def readMem32 (addr : Word) (len : Nat) : Op (Code × List Byte) := do
  checkAligned addr len
  readMem32Loop (chunks addr len)

/-! ## 8-bit operations (R256, R257) -/

/-- `byteWrite(a, b)`. -/
def byteWrite (a : Word) (b : Byte) : Steps Unit := do
  wrapWrite codeWrTar a
  wrapWrite codeWrDrw (laneWord a b)

/-- Each byte, retried once; the first that fails twice ends the loop. -/
def writeBytesLoop : Word → List Byte → Op Code
  | _, [] => pure .ok
  | a, b :: bs => do
    let e ← (byteWrite a b).code
    let e ← if e = .ok then pure Code.ok else (byteWrite a b).code
    if e = .ok then writeBytesLoop (a + 1) bs else pure e

/-- `writeMem8(addr, buf, len) -> code` (R256): the CSW restore always runs; the first failure's code wins. -/
def writeMem8 (addr : Word) (buf : List Byte) : Op Code := do
  let s ← get
  let (e, _) ← wrapped codeWrCsw s.params.cswByte
  let e ← if e = .ok then writeBytesLoop addr buf else pure e
  let (r, _) ← wrapped codeWrCsw s.params.cswWord
  pure (if e = .ok then r else e)

/-- `byteRead(a, i)`, with the count of cleared failures when the operation started ("A byte stored after a cleared failure
is unspecified", R257). -/
def byteRead (k : Nat) (a : Word) : Steps Byte := do
  wrapWrite codeWrTar a
  let _ ← wrapRead codeRdDrw
  let w ← readStored k codeRdRdbuff
  pure (laneByte a w)

/-- A byte read, and read once more when that failed. -/
def byteReadRetried (k : Nat) (a : Word) : Op (Except Code Byte) := do
  match ← (byteRead k a).run with
  | .ok b => pure (.ok b)
  | .error _ => (byteRead k a).run

/-- Each byte, retried once; after a byte that fails twice, it and all later ones are unspecified (log 22). -/
def readBytesLoop (k : Nat) : Word → Nat → Op (Code × List Byte)
  | _, 0 => pure (.ok, [])
  | a, n + 1 => do
    match ← byteReadRetried k a with
    | .ok b => do
      let (e, bs) ← readBytesLoop k (a + 1) n
      pure (e, b :: bs)
    | .error c => do
      let bs ← drawBytes (n + 1)
      pure (c, bs)

/-- The bytes of a read that did not start (its width switch failed): all unspecified. -/
def unreadBytes (e : Code) (len : Nat) : Op (Code × List Byte) := do
  let bs ← drawBytes len
  pure (e, bs)

/-- `readMem8(addr, buf, len) -> code` (R257), with the buffer. -/
def readMem8 (addr : Word) (len : Nat) : Op (Code × List Byte) := do
  let s ← get
  let (e, _) ← wrapped codeWrCsw s.params.cswByte
  let (e, bs) ← if e = .ok then readBytesLoop s.cleared addr len else unreadBytes e len
  let (r, _) ← wrapped codeWrCsw s.params.cswWord
  pure (if e = .ok then r else e, bs)

/-! ## Single words (R258, R259) -/

/-- `writeWord(addr, value) -> code` (R258): one chunk, no chunk retry. -/
def writeWord (addr value : Word) : Op Code := writeWord32Chunk addr (wordBytes value)

/-- `readWord(addr) -> (code, value)` (R259): one chunk, no chunk retry; `word(b, 0)` of its buffer. -/
def readWord (addr : Word) : Op (Code × Word) := do
  let (e, bytes) ← readWord32Chunk addr 4
  pure (e, (bufWords bytes).headD 0)

end Sys2Proof.Machine
end

