-- ==== Sys2Proof/Machine/CoreRegister.lean ====
section
/-! DEFINITION. The Core Register Access Layer (44_core_register R280-R283). -/

namespace Sys2Proof.Machine

/-- The ready poll's attempts that are left; a timeout is code 1 (R280, R283). -/
def pollReadyLoop : Nat → Op Code
  | 0 => pure .soft
  | k + 1 => do
    let (e, s) ← readWord addrDhcsr
    if e = .ok then
      if s &&& sRegRdy ≠ 0 then pure .ok
      else do
        if k = 0 then pure () else yieldCore
        pollReadyLoop k
    else pure e

/-- `pollReady() -> code` (R280). -/
def pollReady : Op Code := do
  let s ← get
  pollReadyLoop s.params.regPollMax

/-- `(e, -)`: a code with an unspecified word. -/
def failedWord (e : Code) : Op (Code × Word) := do
  let v ← drawWord
  pure (e, v)

/-- `readCoreReg(index) -> (code, value)` (R281). -/
def readCoreReg (index : Byte) : Op (Code × Word) := do
  let e ← writeWord addrDcrsr (index.setWidth 32)
  if e = .ok then do
    let e ← pollReady
    if e = .ok then do
      let (e, v) ← readWord addrDcrdr
      if e = .ok then pure (.ok, v) else failedWord e
    else failedWord e
  else failedWord e

/-- `writeCoreReg(index, value) -> code` (R282). -/
def writeCoreReg (index : Byte) (value : Word) : Op Code := do
  let e ← writeWord addrDcrdr value
  if e = .ok then do
    let e ← writeWord addrDcrsr (index.setWidth 32 ||| writeFlag)
    if e = .ok then pollReady else pure e
  else pure e

end Sys2Proof.Machine
end

