-- ==== Sys2Proof/Machine/SessionManager.lean ====
section
/-! DEFINITION. The Debug Session Manager (45_session R300-R316). -/

namespace Sys2Proof.Machine

/-! ## open -/

/-- The power-up poll's attempts that are left; a timeout is code 2 (R305). -/
def powerUpPollLoop : Nat → Steps Unit
  | 0 => throw .hard
  | k + 1 => do
    let s ← wrapRead codeRdCtrlstat
    if s &&& ctrlPwrupAckMask = ctrlPwrupAckMask then pure ()
    else do
      if k = 0 then pure ()
      else do
        let st ← (get : Op State)
        (delay st.params.pwrPollSleep : Op Unit)
        (yieldCore : Op Unit)
      powerUpPollLoop k

/-- `powerUpPoll()` (R305). -/
def powerUpPoll : Steps Unit := do
  let s ← (get : Op State)
  powerUpPollLoop s.params.pwrPollMax

/-- AP identification (R307): the pipelined read, then RDBUFF; IDR = 0 fails when `IDR_CHECK`. -/
def identifyAp : Steps Unit := do
  wrapWrite codeWrSelect selectIdrBank
  let _ ← wrapRead codeRdIdr
  let idr ← wrapRead codeRdRdbuff
  let s ← (get : Op State)
  if s.params.idrCheck && idr == 0 then throw .hard else pure ()

/-- The steps of `open` after the core identifier is stored (R302-R308). -/
def openSteps : Steps Unit := do
  wrapWrite codeWrAbort abortClearAll
  wrapWrite codeWrSelect selectBank0
  wrapWrite codeWrCtrlstat ctrlPwrupReq
  powerUpPoll
  wrapWrite codeWrCtrlstat ctrlPwrupReq
  identifyAp
  wrapWrite codeWrSelect selectBank0
  let s ← (get : Op State)
  wrapWrite codeWrCsw s.params.cswWord
  let e ← (writeWord addrDhcsr dhcsrDebugEnable : Op Code)
  Steps.check e

/-- `fail(c)` (R309): Closed, and `coreId` unspecified (conflict C3, log 8). -/
def openFailed (c : Code) : Op Code := do
  let id ← drawWord
  modify fun s => (s.setSession .closed).setCoreId id
  pure c

/-- `open() -> code` (R301). -/
def openSession : Op Code := do
  modify (State.setSession .connecting)
  let (r, id) ← lineReset
  if r = .ok then do
    modify (State.setCoreId id)
    match ← openSteps.run with
    | .ok _ => do
      modify (State.setSession .opened)
      pure .ok
    | .error c => openFailed c
  else openFailed .hard

/-! ## close -/

/-- `swdDisconnectSequence()` (R316). -/
def swdDisconnectSequence : Op Unit := do
  setDataLineOutput
  lineResetRun
  sendSwdToJtag
  lineResetRun
  setDataLineInput

/-- `close()` (R311, R312): every step runs whatever the one before it returned. -/
def closeSession : Op Unit := do
  modify (State.setCoreId 0)
  let _ ← writeWord addrDhcsr dhcsrDebugRelease
  let _ ← wrapped codeWrCtrlstat ctrlPwrdn
  swdDisconnectSequence
  modify (State.setSession .closed)

end Sys2Proof.Machine
end

