-- ==== Sys2Proof/Machine/Adapter.lean ====
section
/-! DEFINITION. The Command Protocol Adapter (46_host_adapter R330-R344): the memory-range loop, the responses, the host
commands, and the meaning of the ReadMem32 packet. -/

namespace Sys2Proof.Machine

/-! ## Responses (R337) -/

/-- A 16-bit status, least significant byte first. -/
def statusBytes (p : Params) (ok : Bool) : List Byte :=
  halfBytes (if ok then p.statusOk else p.statusFault)

/-- One `transmit` call; its result is ignored (R339). -/
def transmit (buf : List Byte) : Op Unit := modify (State.transmit buf)

/-- A 2-byte status response. -/
def respondStatus (ok : Bool) : Op Unit := do
  let s ← get
  transmit (statusBytes s.params ok)

/-- `receive(buf, n)` (R339): the next receive event's bytes, at most `n`; the missing ones are unspecified. -/
def receive (n : Nat) : Op (List Byte) := do
  let s ← get
  let got := (s.hostData.headD []).take n
  set { s with hostData := s.hostData.tail }
  let missing ← drawBytes (n - got.length)
  pure (got ++ missing)

/-! ## The memory-range loop (R334-R336) -/

/-- `kind` of R334. -/
inductive RangeKind where
  | r32
  | w32
  | r8
  | w8
  deriving DecidableEq, Repr

/-- A write kind. -/
def RangeKind.isWrite : RangeKind → Bool
  | .w32 => true
  | .w8 => true
  | .r32 => false
  | .r8 => false

/-- `layerOp(kind)(a, buf, n)`: the code, and for a read the bytes to transmit. -/
def layerOp (kind : RangeKind) (a : Word) (n : Nat) : Op (Code × List Byte) :=
  match kind with
  | .r32 => readMem32 a n
  | .r8 => readMem8 a n
  | .w32 => do
    let buf ← receive n
    let e ← writeMem32 a buf
    pure (e, [])
  | .w8 => do
    let buf ← receive n
    let e ← writeMem8 a buf
    pure (e, [])

/-- One sub-chunk: the layer, the latch (R336), the transmit of a read, the reopen after a failure (R335). -/
def subChunk (kind : RangeKind) (a : Word) (n : Nat) : Op Bool := do
  let (e, bytes) ← layerOp kind a n
  modify (State.setLastStatus (if e = .ok then .ok else .fault))
  if kind.isWrite then pure () else transmit bytes
  if e = .ok then pure true
  else do
    let _ ← openSession
    pure false

/-- `while rem > 0` of R334; `fuel` = the length is enough. The result is `allOk`. -/
def memRangeLoop (kind : RangeKind) : Nat → Word → Nat → Bool → Op Bool
  | 0, _, _, allOk => pure allOk
  | fuel + 1, a, remaining, allOk =>
    if remaining = 0 then pure allOk
    else do
      let s ← get
      let n := min remaining s.params.xferBuf
      let good ← subChunk kind a n
      memRangeLoop kind fuel (a + BitVec.ofNat 32 n) (remaining - n) (allOk && good)

/-- `memRange(kind, addr, len)` (R334), with the write response of R337. -/
def memRange (kind : RangeKind) (addr : Word) (len : Nat) : Op Unit := do
  let allOk ← memRangeLoop kind len addr len true
  let s ← get
  if kind.isWrite && s.params.writeResp == .status then respondStatus allOk else pure ()

/-! ## The host commands (R332, R333, R337, R338) -/

/-- The get-mode answer (R333). -/
def modeBytes (c : CmdCodes) : ProbeMode → List Byte
  | .unknown => c.modeUnknown
  | .dfu => c.modeDfu
  | .mass => c.modeMass
  | .debugJtag => c.modeDebugJtag
  | .debugSwd => c.modeDebugSwd
  | .debugSwim => c.modeDebugSwim

/-- A response of a collaborator outside the core, bytes and length unspecified (R331). -/
def respondForeign : Op Unit := do
  let bytes ← drawResponse
  transmit bytes

/-- `readCoreReg(REGDUMP_MAP[i])` in order, past a failed read, whose word is unspecified (R337). -/
def readRegsLoop : List Byte → Op (List Word)
  | [] => pure []
  | i :: rest => do
    let (_, v) ← readCoreReg i
    let vs ← readRegsLoop rest
    pure (v :: vs)

/-- Every supported command ends with internal result 0, an unsupported one with -1 (R338). -/
def runCommand : Command → Op Int
  | .getVersion => do
    respondForeign
    pure 0
  | .dfu => do
    respondForeign
    pure 0
  | .getTargetVoltage => do
    respondForeign
    pure 0
  | .getMode => do
    let s ← get
    transmit (modeBytes s.params.codes s.mode)
    pure 0
  | .writeMem32 addr len => do
    memRange .w32 addr len.toNat
    pure 0
  | .readMem8 addr len => do
    memRange .r8 addr len.toNat
    pure 0
  | .writeMem8 addr len => do
    memRange .w8 addr len.toNat
    pure 0
  | .enterSwd => do
    modify (State.setMode .debugSwd)
    let e ← openSession
    respondStatus (e == .ok)
    pure 0
  | .exitDebug => do
    closeSession
    respondStatus true
    pure 0
  | .readCoreId => do
    let s ← get
    transmit (wordBytes s.coreId)
    pure 0
  | .readReg index => do
    let (_, v) ← readCoreReg index
    transmit (wordBytes v)
    pure 0
  | .writeReg index value => do
    let e ← writeCoreReg index value
    respondStatus (e == .ok)
    pure 0
  | .readAllRegs => do
    let s ← get
    let ws ← readRegsLoop s.params.regDumpMap
    transmit (wordsBytes ws)
    pure 0
  | .getLastRwStatus => do
    let s ← get
    respondStatus (s.lastStatus == .ok)
    pure 0
  | .unsupported => do
    respondStatus false
    pure (-1)

/-! ## The ReadMem32 packet -/

/-- `HOST_ReadMem32` (R332, R334). -/
def execHostReadMem32 (addr : Word) (len : BitVec 16) (s : State) : Host.Outcome State Fault Refusal :=
  (do memRange .r32 addr len.toNat; pure (OpResult.host 0) : Op OpResult).outcome s

end Sys2Proof.Machine
end

