-- ==== Sys2Proof/Machine/Calls.lean ====
section
/-! DEFINITION. The operation map (30_encoding R150): each operation run as one call. -/

namespace Sys2Proof.Machine

/-- One call of an operation, with its result (00_scope R18). -/
def runOperation : Operation → Op OpResult
  | .setDataLineOutput => do
    setDataLineOutput
    pure .done
  | .setDataLineInput => do
    setDataLineInput
    pure .done
  | .shiftOutBits value n => do
    shiftOutBits value n
    pure .done
  | .shiftInBits n => do
    let r ← shiftInBits n
    pure (.bits r)
  | .executeTransaction code data => do
    let (a, d) ← executeTransaction code data
    pure (.ackWord a d)
  | .executeTransactionWithRetry code data maxRetries => do
    let (a, d) ← executeTransactionWithRetry code data maxRetries
    pure (.ackWord a d)
  | .lineReset => do
    let (a, id) ← lineReset
    pure (.ackWord a id)
  | .clearError ack => do
    let c ← clearError ack
    pure (.code c)
  | .wrapped code data => do
    let (c, d) ← wrapped code data
    pure (.codeWord c d)
  | .writeWord32Chunk addr buf => do
    let c ← writeWord32Chunk addr buf
    pure (.code c)
  | .readWord32Chunk addr len => do
    let (c, bytes) ← readWord32Chunk addr len
    pure (.codeBytes c bytes)
  | .writeMem32 addr buf => do
    let c ← writeMem32 addr buf
    pure (.code c)
  | .readMem32 addr len => do
    let (c, bytes) ← readMem32 addr len
    pure (.codeBytes c bytes)
  | .writeMem8 addr buf => do
    let c ← writeMem8 addr buf
    pure (.code c)
  | .readMem8 addr len => do
    let (c, bytes) ← readMem8 addr len
    pure (.codeBytes c bytes)
  | .writeWord addr value => do
    let c ← writeWord addr value
    pure (.code c)
  | .readWord addr => do
    let (c, w) ← readWord addr
    pure (.codeWord c w)
  | .readCoreReg index => do
    let (c, w) ← readCoreReg index
    pure (.codeWord c w)
  | .writeCoreReg index value => do
    let c ← writeCoreReg index value
    pure (.code c)
  | .openSession => do
    let c ← openSession
    pure (.code c)
  | .closeSession => do
    closeSession
    pure .done
  | .swdConnectSequence => do
    swdConnectSequence
    pure .done
  | .swdDisconnectSequence => do
    swdDisconnectSequence
    pure .done

end Sys2Proof.Machine
end

