-- ==== Sys2Proof/Machine/Dispatch.lean ====
section
/-! DEFINITION. The dispatch: one arm per instruction. -/

namespace Sys2Proof.Machine

def exec (i : Instr) (s : State) : Host.Outcome State Fault Refusal :=
  match i with
  | .rdIdcode => Sys2Proof.Machine.execRdIdcode s
  | .wrAbort data => Sys2Proof.Machine.execWrAbort data s
  | .rdCtrlstat => Sys2Proof.Machine.execRdCtrlstat s
  | .wrCtrlstat data => Sys2Proof.Machine.execWrCtrlstat data s
  | .wrSelect data => Sys2Proof.Machine.execWrSelect data s
  | .rdRdbuff => Sys2Proof.Machine.execRdRdbuff s
  | .wrCsw data => Sys2Proof.Machine.execWrCsw data s
  | .wrTar data => Sys2Proof.Machine.execWrTar data s
  | .rdDrw => Sys2Proof.Machine.execRdDrw s
  | .wrDrw data => Sys2Proof.Machine.execWrDrw data s
  | .rdIdr => Sys2Proof.Machine.execRdIdr s
  | .jtagToSwd => Sys2Proof.Machine.execJtagToSwd s
  | .swdToJtag => Sys2Proof.Machine.execSwdToJtag s
  | .hostReadMem32 addr len => Sys2Proof.Machine.execHostReadMem32 addr len s

end Sys2Proof.Machine
end

