-- ==== Sys2Proof/Machine/Step.lean ====
section
/-! DEFINITION. One step: the next request is decoded and run to its end (70_reset R391, 46_host_adapter R344; log 1). -/

namespace Sys2Proof.Machine

/-- What was decoded, run as one step. -/
def runDecoded : Decoded → State → Host.Outcome State Fault Refusal
  | .instr i, s => exec i s
  | .command c, s => (do let r ← runCommand c; pure (OpResult.host r) : Op OpResult).outcome s
  | .operation op, s => (runOperation op).outcome s

/-- A request that decodes to nothing: an illegal request code is a model fault (30_encoding R126), the rest is refused
(log 30). -/
def rejectRequest : DecodeError → Host.Outcome State Fault Refusal
  | .illegalRequestCode => .fault .illegalRequestCode
  | .unknownSequence => .refused .unknownSequence
  | .badPacketLength => .refused .badPacketLength

/-- What the next request decodes to, with the host codes and the SELECT bank in force. -/
def State.decodeRequest (s : State) (r : Request) : Except DecodeError Decoded :=
  decode s.params.codes (apBankSel s.target.select) r

/-- One step: with an empty inbox the core waits and nothing changes (R391); otherwise the oldest request is taken out
and run. -/
def step (s : State) : Host.Outcome State Fault Refusal :=
  match s.inbox with
  | [] => .next s
  | r :: rest =>
    match s.decodeRequest r with
    | .ok d => runDecoded d (s.setInbox rest)
    | .error e => rejectRequest e

/-- `s` with the request of these table bits put where `step` takes its next request (log 1). -/
def State.withFetchWord (s : State) (nbits w : Nat) : State :=
  match requestOfTableWord nbits w with
  | some r => s.setInbox (r :: s.inbox)
  | none => s

end Sys2Proof.Machine
end

