-- ==== Sys2Proof/Safety.lean ====
section
/-! DEFINITION. What the claims say of a run: the invariant every step keeps, what an operation leaves alone, when the
reference target is ready to be worked with. -/

namespace Sys2Proof.Machine

/-! ## The invariant -/

/-- A trace record is an out-cell's or an in-cell's (10_state R44). -/
def WireCell.wf (c : WireCell) : Prop := c = WireCell.driven (c.out.getD false) ∨ c = WireCell.sampled (c.inp.getD false)

/-- The bit of the last out-cell of a trace. -/
def lastDriven : List WireCell → Option Bool
  | [] => none
  | c :: rest => lastDriven rest <|> c.out

/-- The stores of the target agent are in their canonical form (10_state R51; 70_reset R398; 10_state R75). -/
structure Target.Inv (t : Target) : Prop where
  mem      : Memory.wf t.mem
  coreRegs : SparseWf 0 t.coreRegs
  apOther  : SparseWf 0 t.apOther
  dpOther  : SparseWf 0 t.dpOther

/-- The wire state and the trace agree: every record is a cell's, SWCLK is high after a cell (40_phy R162), SWDIO_OUT is
the last bit driven (10_state R32). -/
structure State.WireInv (s : State) : Prop where
  cells : ∀ c ∈ s.trace, c.wf
  clock : s.trace ≠ [] → s.clk = true
  line  : ∀ b, lastDriven s.trace = some b → s.dout = b

/-- The invariant of a run: the trace and the wire agree, the target's stores are canonical, and no session is left in
Connecting between two operations (45_session R301, R309). -/
structure State.Inv (s : State) : Prop where
  wire    : s.WireInv
  target  : s.target.Inv
  session : s.session ≠ .connecting

/-! ## Frames -/

/-- Everything above the wire is as before: an operation below the Session Manager changes only `clk`, `oe`, `dout`, the
target, the samples still to come, and appends to the trace (10_state R38-R41, R44). -/
structure WireOnly (s t : State) : Prop where
  session    : t.session = s.session
  coreId     : t.coreId = s.coreId
  lastStatus : t.lastStatus = s.lastStatus
  mode       : t.mode = s.mode
  params     : t.params = s.params
  data       : t.data = s.data
  result     : t.result = s.result
  inbox      : t.inbox = s.inbox
  hostData   : t.hostData = s.hostData
  sent       : t.sent = s.sent
  trace      : s.trace <+: t.trace

/-- The two cells of a single transaction beside its frame (log 7): `data` is `d`, `result` is `r`. -/
def EndsWith (s t : State) (d : Word) (r : OpResult) : Prop :=
  WireOnly ((s.setData d).setResult r) t

/-! ## The reference target -/

/-- The reference target answers the next transaction itself, OK (10_state R67, R69, R71, R73): it is attached, speaks SWD,
is past the IDCODE read, has no injected answer to give, no sticky flag and no busy AP. -/
structure Target.Ready (t : Target) : Prop where
  attached : t.attached = true
  protocol : t.protocol = .swd
  inSync   : t.expectsIdcode = false
  answers  : t.answers = []
  clear    : stickySet t.ctrlStat = false
  idle     : t.busy = 0

/-- The target between two transactions: it drives nothing and awaits no data word (log 10). -/
def Target.settled (t : Target) : Target := { t with accepting := false, drive := [] }

/-- The reference target answers a transaction with the Debug Port by itself, sticky flags and a busy AP or not
(10_state R67: "DP accesses to IDCODE, ABORT, CTRL/STAT and SELECT are still answered OK"). -/
structure Target.Listening (t : Target) : Prop where
  attached : t.attached = true
  protocol : t.protocol = .swd
  inSync   : t.expectsIdcode = false
  answers  : t.answers = []

/-- The reference target is ready and SELECT names bank 0 of AP 0 (70_reset R398). -/
structure Target.Bank0 (t : Target) : Prop where
  ready : t.Ready
  ap    : apSel t.select = 0
  bank  : apBankSel t.select = 0

/-- CTRL/STAT after an AP or RDBUFF read answered OK: READOK [6] is set by a target with `statusLive` (10_state R54, log 32)
and left alone by the reference target (R63). -/
def Target.afterRead (t : Target) : Word := if t.statusLive then t.ctrlStat ||| 0x00000040 else t.ctrlStat

/-- CTRL/STAT after this request was answered WAIT or FAULT: of a target with `statusLive` an AP or RDBUFF read so answered
clears READOK (10_state R54, log 32). -/
def Target.afterFailed (t : Target) (code : Byte) : Word :=
  if t.statusLive && isRead code && blockable code then t.ctrlStat &&& 0xFFFFFFBF else t.ctrlStat

/-- CSW names single-increment word accesses (10_state R57; what 00_scope R11 asks of `CSW_WORD`). -/
structure WordMode (csw : Word) : Prop where
  size : cswSize csw = 0b010#3
  inc  : cswAddrInc csw = 0b01#2

/-- The word at this address is plain memory: the bus takes it and it is no debug register of 10_state R75. -/
structure Target.Plain (t : Target) (a : Word) : Prop where
  bus   : t.busError a = false
  dhcsr : alignWord a ≠ addrDhcsr
  dcrsr : alignWord a ≠ addrDcrsr
  dcrdr : alignWord a ≠ addrDcrdr

/-- TAR after one word access: TAR[9:0] advances by 4 and wraps, TAR[31:10] stays (10_state R64). -/
def tarNext (tar : Word) : Word := (tar &&& 0xFFFFFC00) ||| ((tar + 4) &&& 0x000003FF)

/-! ## What a target shows on the wire -/

/-- The levels of an exchange answered WAIT: turnaround, 0 1 0, turnaround (30_encoding R130, R135). -/
def waitLevels (xy : Bool × Bool) : List Bool := [xy.1, false, true, false, xy.2]

/-- The cells of a write with ACK OK: the header, the turnarounds and the ACK, the data word, its parity (30_encoding
R135). `x` and `y` are the turnaround samples. -/
def okWriteCells (code : Byte) (data : Word) (x y : Bool) : List WireCell :=
  (lsbBits 8 (code.setWidth 32)).map WireCell.driven ++ [x, true, false, false, y].map WireCell.sampled ++
    (lsbBits 32 data ++ [parity32 data]).map WireCell.driven

/-- The cells of the line reset and switch sequence, `2 * LR_ONES + 16` of them (42_error_recovery R224, 45_session
R316). -/
def switchCells (p : Params) (value : BitVec 16) : List WireCell :=
  (List.replicate p.lrOnes true ++ lsbBits 16 (value.setWidth 32) ++ List.replicate p.lrOnes true).map WireCell.driven

end Sys2Proof.Machine
end

