-- ==== Sys2Proof/Certificates/Slice0/Obligations.lean ====
section
/-! DEFINITION. The statements for the provers, from the numbered rules of spec/. -/

open Sys2Proof Sys2Proof.Machine

/-! ## Encoding -/

/-- Each row of the opcode table decodes to its instruction (30_encoding R125, R146, R147; 46_host_adapter R332). Header
0x9F, which two rows share, reads as RD_DRW in the SELECT bank the machine starts with (log 6) and as RD_IDR in bank 0xF. -/
def Obligations.TableWordsDecode : Prop :=
  decodeTableWord 8 0xA5 = some .rdIdcode ∧
  decodeTableWord 8 0x81 = some (.wrAbort 0) ∧
  decodeTableWord 8 0x8D = some .rdCtrlstat ∧
  decodeTableWord 8 0xA9 = some (.wrCtrlstat 0) ∧
  decodeTableWord 8 0xB1 = some (.wrSelect 0) ∧
  decodeTableWord 8 0xBD = some .rdRdbuff ∧
  decodeTableWord 8 0xA3 = some (.wrCsw 0) ∧
  decodeTableWord 8 0x8B = some (.wrTar 0) ∧
  decodeTableWord 8 0x9F = some .rdDrw ∧
  decodeHeader 0xF 0x9F 0 = .ok .rdIdr ∧
  decodeTableWord 8 0xBB = some (.wrDrw 0) ∧
  decodeTableWord 16 0xE79E = some .jtagToSwd ∧
  decodeTableWord 16 0xE73C = some .swdToJtag ∧
  decodeTableWord 16 0x07F2 = some (.hostReadMem32 0 0)

/-- Decoding the encoding of any well-formed instruction gives it back, whatever the host codes are, with every operand at
every value. -/
def Obligations.DecodeInvertsEncode : Prop :=
  ∀ (codes : CmdCodes) (bank : ApBank) (i : Instr), i.wellFormed bank = true →
    decode codes bank (encode i) = .ok (.instr i)

/-- The other direction for headers: what a header and a data word decode to in a bank is well-formed there, is encoded by
the same header, and by the same data word when the header is a write's (30_encoding R122, R125, R127). -/
def Obligations.HeaderHasOneMeaning : Prop :=
  ∀ (bank : ApBank) (h : Byte) (data : Word) (i : Instr), decodeHeader bank h data = .ok i →
    i.wellFormed bank = true ∧ ∃ d, encode i = .transaction h d ∧ (isRead h = false → d = data)

/-- A header outside the table stops with `IllegalRequestCode` before any cell, as a transaction and as
a call of `executeTransaction` (R126). -/
def Obligations.IllegalHeaderFaults : Prop :=
  ∀ h : Byte, h ∉ ([0xA5, 0x81, 0x8D, 0xA9, 0xB1, 0xBD, 0xA3, 0x8B, 0x9F, 0xBB] : List Byte) →
    ∀ (s : State) (d : Word) (rest : List Request),
      (s.inbox = .transaction h d :: rest → step s = .fault .illegalRequestCode) ∧
      (s.inbox = .call (.executeTransaction h d) :: rest → step s = .fault .illegalRequestCode)

/-! ## The Bit-Level PHY -/

/-- `shiftOutBits` (40_phy R164): more than 32 bits fault, a released line faults, both before any cell; otherwise one
out-cell for each bit, least significant first, SWCLK left high and the last bit on the line, nothing else changed. -/
def Obligations.ShiftOutDrivesBits : Prop :=
  ∀ (v : Word) (n : Nat) (s : State),
    (32 < n → shiftOutBits v n s = .error .shiftCountTooLarge) ∧
    (n ≤ 32 → s.oe = false → shiftOutBits v n s = .error .phyMisuse) ∧
    (n ≤ 32 → s.oe = true → shiftOutBits v n s = .ok ((), { s with
      clk := if n = 0 then s.clk else true
      dout := if n = 0 then s.dout else v.getLsbD (n - 1)
      trace := s.trace ++ (List.range n).map fun k => WireCell.driven (v.getLsbD k) }))

/-- `shiftInBits` (40_phy R165): more than 32 bits fault, a driven line faults, both before any cell; otherwise one in-cell
for each bit, the k-th sample in bit k of the result, the bits above 0; a sample is the bit the target drives when it drives
(10_state R37), and only the levels it was to drive are used up at the target. -/
def Obligations.ShiftInSamplesBits : Prop :=
  ∀ (n : Nat) (s : State),
    (32 < n → shiftInBits n s = .error .shiftCountTooLarge) ∧
    (n ≤ 32 → s.oe = true → shiftInBits n s = .error .phyMisuse) ∧
    (n ≤ 32 → s.oe = false → ∃ r t, shiftInBits n s = .ok (r, t) ∧ t.oe = false ∧ t.dout = s.dout ∧
      t.clk = (if n = 0 then s.clk else true) ∧
      t.trace = s.trace ++ (List.range n).map (fun k => WireCell.sampled (r.getLsbD k)) ∧
      (∀ k, n ≤ k → r.getLsbD k = false) ∧
      (∀ k < n, ∀ b, s.target.drive[k]? = some (some b) → r.getLsbD k = b) ∧
      t.target = { s.target with drive := s.target.drive.drop n } ∧ WireOnly s t)

/-! ## Transactions with an arbitrary target -/

/-- A read whose ACK is OK, for each of the five reads, against whatever the target shows (41_transaction R180; 30_encoding
R131, R132, R133, R135): 8 header cells, then 38 in-cells: turnaround, ACK 1 0 0, 32 data bits, the parity bit, turnaround.
The data cell takes the word received, also when its parity is wrong and the Ack is PARITY_ERROR. Nothing else changes. -/
def Obligations.OkReadOfAnyTarget : Prop :=
  ∀ (i : Instr) (h : Byte) (d : Word) (s : State) (w : Word) (x p y : Bool) (rest : List Bool),
    encode i = .transaction h d → isRead h = true → s.oe = true → s.target.attached = false →
    s.levels = [x, true, false, false] ++ lsbBits 32 w ++ [p, y] ++ rest →
    ∃ n, exec i s = .next { s with
      clk := true
      dout := true
      trace := s.trace ++ (lsbBits 8 (h.setWidth 32)).map WireCell.driven ++
        ([x, true, false, false] ++ lsbBits 32 w ++ [p, y]).map WireCell.sampled
      target := { s.target with drive := [] }
      data := w
      result := .ack (if p = parity32 w then .ok else .parityError)
      levels := rest
      draws := n }

/-- A write whose ACK is OK, for each of the six writes, against whatever the target shows (41_transaction R180;
30_encoding R132, R133, R135): 8 header cells, 5 in-cells (turnaround, ACK 1 0 0, turnaround), 32 data cells, the parity cell.
The model records a SELECT value sent, because it decides what header 0x9F stands for (log 6). Nothing else changes. -/
def Obligations.OkWriteToAnyTarget : Prop :=
  ∀ (i : Instr) (h : Byte) (d : Word) (s : State) (x y : Bool) (rest : List Bool),
    encode i = .transaction h d → isRead h = false → s.oe = true → s.target.attached = false →
    s.levels = [x, true, false, false, y] ++ rest →
    ∃ n, exec i s = .next { s with
      clk := true
      dout := parity32 d
      trace := s.trace ++ okWriteCells h d x y
      target := { s.target with drive := [], select := if h = 0xB1 then d else s.target.select }
      data := d
      result := .ack .ok
      levels := rest
      draws := n }

/-- WAIT and FAULT (41_transaction R180, R181): 13 cells, no data phase; the data cell holds what it held, which for a write
is the word it was to send. Nothing else changes. -/
def Obligations.WaitAndFaultEndAtOnce : Prop :=
  ∀ (i : Instr) (h : Byte) (d : Word) (s : State) (fault x y : Bool) (rest : List Bool),
    encode i = .transaction h d → s.oe = true → s.target.attached = false →
    s.levels = [x, false, !fault, fault, y] ++ rest →
    ∃ n, exec i s = .next { s with
      clk := true
      dout := true
      trace := s.trace ++ (lsbBits 8 (h.setWidth 32)).map WireCell.driven ++
        [x, false, !fault, fault, y].map WireCell.sampled
      target := { s.target with drive := [] }
      data := if isRead h then s.data else d
      result := .ack (if fault then .fault else .wait)
      levels := rest
      draws := n }

/-- Any other ACK (41_transaction R180, R181): 46 cells, the 34 after the ACK sampled and discarded, the line never driven
before the end; the data cell holds what it held. Nothing else changes. -/
def Obligations.ProtocolErrorDiscardsAPhase : Prop :=
  ∀ (i : Instr) (h : Byte) (d : Word) (s : State) (x a b c : Bool) (z : List Bool) (rest : List Bool),
    encode i = .transaction h d → s.oe = true → s.target.attached = false →
    (a, b, c) ∉ [(true, false, false), (false, true, false), (false, false, true)] → z.length = 34 →
    s.levels = [x, a, b, c] ++ z ++ rest →
    ∃ n, exec i s = .next { s with
      clk := true
      dout := true
      trace := s.trace ++ (lsbBits 8 (h.setWidth 32)).map WireCell.driven ++ ([x, a, b, c] ++ z).map WireCell.sampled
      target := { s.target with drive := [] }
      data := if isRead h then s.data else d
      result := .ack (.protocolError (BitVec.ofBool c ++ BitVec.ofBool b ++ BitVec.ofBool a))
      levels := rest
      draws := n }

/-- Every one of the eleven requests, on a driven line and whatever the target does, runs to its end with the line driven
(41_transaction R182, R183): 13 cells for WAIT and FAULT, 46 otherwise, and nothing above the wire changed but the data cell
and the result. -/
def Obligations.TransactionsComplete : Prop :=
  ∀ (i : Instr) (h : Byte) (d : Word) (s : State), encode i = .transaction h d → s.oe = true →
    ∃ t a w, exec i s = .next t ∧ t.oe = true ∧ EndsWith s t w (.ack a) ∧
      t.trace.length = s.trace.length + (if a = .wait ∨ a = .fault then 13 else 46) ∧
      (isRead h = false → w = d) ∧
      (isRead h = true → a ≠ .ok → a ≠ .parityError → w = s.data)

/-- On a released line every row of the table stops with `PhyMisuse` (40_phy R168, 70_reset R392): the eleven requests, the two
switch sequences, which do not drive the line themselves (the model's reading, log 24), and the host read when it has a whole
word to read; so does `close` (45_session R315). `open` and the connect sequence drive the line first and do not. -/
def Obligations.ReleasedLineFaults : Prop :=
  ∀ s : State, s.oe = false →
    (∀ i h d, encode i = .transaction h d → exec i s = .fault .phyMisuse) ∧
    exec .jtagToSwd s = .fault .phyMisuse ∧
    exec .swdToJtag s = .fault .phyMisuse ∧
    (∀ addr len, wordAligned addr len.toNat = true → len ≠ 0 → s.params.xferBuf % 4 = 0 → 0 < s.params.xferBuf →
      exec (.hostReadMem32 addr len) s = .fault .phyMisuse) ∧
    closeSession s = .error .phyMisuse

/-- The retry bound (41_transaction R196), counted in cells of the trace, 13 for an attempt answered WAIT and 46 for one
answered OK: `n ≤ maxRetries` WAITs and an OK return OK after `n + 1` attempts, `maxRetries + 1` WAITs return WAIT after
exactly so many, and no target makes it longer than `maxRetries + 1` attempts of at most 46 cells. -/
def Obligations.RetryIsBounded : Prop :=
  ∀ (code : Byte) (data : Word) (m : Nat) (s : State), isLegalCode code = true → s.oe = true →
    (∃ r t, executeTransactionWithRetry code data m s = .ok (r, t) ∧
      t.trace.length ≤ s.trace.length + 46 * (m + 1)) ∧
    (∀ (waits : List (Bool × Bool)) (rest : List Bool), s.target.attached = false →
      (waits.length = m + 1 → s.levels = waits.flatMap waitLevels ++ rest →
        ∃ t, executeTransactionWithRetry code data m s = .ok ((.wait, data), t) ∧ t.levels = rest ∧
          t.trace.length = s.trace.length + 13 * (m + 1)) ∧
      (∀ x w y, waits.length ≤ m → isRead code = true →
        s.levels = waits.flatMap waitLevels ++ [x, true, false, false] ++ lsbBits 32 w ++ [parity32 w, y] ++ rest →
        ∃ t, executeTransactionWithRetry code data m s = .ok ((.ok, w), t) ∧ t.levels = rest ∧
          t.trace.length = s.trace.length + 13 * waits.length + 46) ∧
      (∀ x y, waits.length ≤ m → isRead code = false →
        s.levels = waits.flatMap waitLevels ++ [x, true, false, false, y] ++ rest →
        ∃ t, executeTransactionWithRetry code data m s = .ok ((.ok, data), t) ∧ t.levels = rest ∧
          t.trace.length = s.trace.length + 13 * waits.length + 46))

/-! ## The eleven requests against the reference target (10_state section 3.4) -/

/-- RD_IDCODE (41_transaction R184; 10_state R63, R70): on a driven line, with a reference target that speaks SWD, after a
line reset or not, sticky flags and a busy AP or not, it ends with OK and the IDCODE; the target registers are unchanged
and it expects no further IDCODE read. -/
def Obligations.ReadIdcodeEffect : Prop :=
  ∀ s : State, s.oe = true → s.target.attached = true → s.target.protocol = .swd → s.target.answers = [] →
    ∃ t, exec .rdIdcode s = .next t ∧ t.oe = true ∧ EndsWith s t s.target.idcode (.ack .ok) ∧
      t.target = { s.target.settled with expectsIdcode := false }

/-- WR_ABORT (41_transaction R185; 10_state R53, R67, R68): OK even while a sticky flag is set; each of the four clear bits
clears its flag, DAPABORT ends a busy AP access (the model's choice, log 19), the rest of CTRL/STAT and of the target is
unchanged. -/
def Obligations.WriteAbortEffect : Prop :=
  ∀ (d : Word) (s : State), s.oe = true → s.target.Listening →
    ∃ t, exec (.wrAbort d) s = .next t ∧ t.oe = true ∧ EndsWith s t d (.ack .ok) ∧
      t.target = { s.target.settled with
        ctrlStat := t.target.ctrlStat
        busy := if d.getLsbD 0 then 0 else s.target.busy } ∧
      (∀ k, k ∉ [1, 4, 5, 7] → t.target.ctrlStat.getLsbD k = s.target.ctrlStat.getLsbD k) ∧
      t.target.ctrlStat.getLsbD 4 = (s.target.ctrlStat.getLsbD 4 && !d.getLsbD 1) ∧
      t.target.ctrlStat.getLsbD 5 = (s.target.ctrlStat.getLsbD 5 && !d.getLsbD 2) ∧
      t.target.ctrlStat.getLsbD 7 = (s.target.ctrlStat.getLsbD 7 && !d.getLsbD 3) ∧
      t.target.ctrlStat.getLsbD 1 = (s.target.ctrlStat.getLsbD 1 && !d.getLsbD 4)

/-- RD_CTRLSTAT (41_transaction R186; 10_state R54, R63, R72): OK and the value of CTRL/STAT in DP bank 0; nothing changes
at the target unless a power-up delay is running, which this read counts (the model's choice of how, log 29). -/
def Obligations.ReadCtrlStatEffect : Prop :=
  ∀ s : State, s.oe = true → s.target.Listening → dpBankSel s.target.select = 0 →
    ∃ t, exec .rdCtrlstat s = .next t ∧ t.oe = true ∧ EndsWith s t s.target.ctrlStat (.ack .ok) ∧
      (s.target.pwrLeft = none → t.target = s.target.settled) ∧
      (∀ k, 1 < k → s.target.pwrLeft = some k → t.target = { s.target.settled with pwrLeft := some (k - 1) }) ∧
      (∀ k ≤ 1, s.target.pwrLeft = some k →
        t.target = { s.target.settled with pwrLeft := none, ctrlStat := t.target.ctrlStat } ∧
        t.target.ctrlStat.getLsbD 31 = s.target.ctrlStat.getLsbD 30 ∧
        t.target.ctrlStat.getLsbD 29 = s.target.ctrlStat.getLsbD 28 ∧
        ∀ j, j ≠ 31 → j ≠ 29 → t.target.ctrlStat.getLsbD j = s.target.ctrlStat.getLsbD j)

/-- WR_CTRLSTAT (41_transaction R187; 10_state R54, R72): the writable fields take the value (the model's choice of the mask,
log 13), the sticky flags and the other read-only fields stay, but for CDBGRSTACK of a target that acts on CDBGRSTREQ (log 32).
With a power-up delay of 0 each acknowledge takes its request at once; with a longer one both stay and the delay starts to
run, with none at all they stay (the model's choice of how, log 29). -/
def Obligations.WriteCtrlStatEffect : Prop :=
  ∀ (d : Word) (s : State), s.oe = true → s.target.Listening → dpBankSel s.target.select = 0 →
    ∃ t, exec (.wrCtrlstat d) s = .next t ∧ t.oe = true ∧ EndsWith s t d (.ack .ok) ∧
      t.target = { s.target.settled with
        ctrlStat := t.target.ctrlStat
        pwrLeft := if s.target.pwrDelay = some 0 then none else s.target.pwrDelay } ∧
      (∀ k ∈ [0, 2, 3, 8, 9, 10, 11, 12, 13, 14, 15, 16, 17, 18, 19, 20, 21, 22, 23, 26, 28, 30],
        t.target.ctrlStat.getLsbD k = d.getLsbD k) ∧
      (∀ k ∈ [1, 4, 5, 6, 7, 24, 25], t.target.ctrlStat.getLsbD k = s.target.ctrlStat.getLsbD k) ∧
      t.target.ctrlStat.getLsbD 27 =
        (if s.target.statusLive then d.getLsbD 26 else s.target.ctrlStat.getLsbD 27) ∧
      (s.target.pwrDelay = some 0 →
        t.target.ctrlStat.getLsbD 31 = d.getLsbD 30 ∧ t.target.ctrlStat.getLsbD 29 = d.getLsbD 28) ∧
      (s.target.pwrDelay ≠ some 0 →
        t.target.ctrlStat.getLsbD 31 = s.target.ctrlStat.getLsbD 31 ∧
        t.target.ctrlStat.getLsbD 29 = s.target.ctrlStat.getLsbD 29)

/-- WR_SELECT (41_transaction R188; 10_state R55, R62): SELECT takes the value and the next AP read's value is stale. -/
def Obligations.WriteSelectEffect : Prop :=
  ∀ (d : Word) (s : State), s.oe = true → s.target.Listening →
    ∃ t, exec (.wrSelect d) s = .next t ∧ t.oe = true ∧ EndsWith s t d (.ack .ok) ∧
      t.target = { s.target.settled with select := d, stale := true }

/-- RD_RDBUFF (41_transaction R189; 10_state R56, R63): the result of the last AP read, and nothing changes at the target but
READOK of a target that keeps it (10_state R54; the model's choice of when, log 32). -/
def Obligations.ReadRdbuffEffect : Prop :=
  ∀ s : State, s.oe = true → s.target.Ready →
    ∃ t, exec .rdRdbuff s = .next t ∧ t.oe = true ∧ EndsWith s t s.target.rdbuf (.ack .ok) ∧
      t.target = { s.target.settled with ctrlStat := s.target.afterRead }

/-- WR_CSW (41_transaction R190; 10_state R57): in bank 0 of AP 0 CSW takes the value but for its read-only bits 23, 7 and
6 (the model's choice of mask, log 13), and nothing else changes at the target. -/
def Obligations.WriteCswEffect : Prop :=
  ∀ (d : Word) (s : State), s.oe = true → s.target.Bank0 →
    ∃ t, exec (.wrCsw d) s = .next t ∧ t.oe = true ∧ EndsWith s t d (.ack .ok) ∧
      t.target = { s.target.settled with csw := t.target.csw } ∧
      (∀ k < 32, k ∉ [6, 7, 23] → t.target.csw.getLsbD k = d.getLsbD k) ∧
      (∀ k ∈ [6, 7, 23], t.target.csw.getLsbD k = s.target.csw.getLsbD k)

/-- WR_TAR (41_transaction R191; 10_state R58): in bank 0 of AP 0 TAR takes the value, unchecked, and nothing else changes
at the target. -/
def Obligations.WriteTarEffect : Prop :=
  ∀ (d : Word) (s : State), s.oe = true → s.target.Bank0 →
    ∃ t, exec (.wrTar d) s = .next t ∧ t.oe = true ∧ EndsWith s t d (.ack .ok) ∧
      t.target = { s.target.settled with tar := d }

/-- WR_DRW (41_transaction R193; 10_state R64, R65; 20_memory R90, R92). With word size byte j of the word goes to address
(TAR & ~3) + j, with byte size the byte in lane TAR & 3 goes to address TAR; every other byte of memory reads as before.
TAR stays with AddrInc 0b00 and advances by the size inside its page with AddrInc 0b01. Nothing else changes at the target.
That is normal transfer mode. A target that acts on TRNMODE compares instead, in the lanes of MASKLANE, and writes nothing:
pushed compare sets STICKYCMP on a match, pushed verify on a mismatch (10_state R54; presumed, log 32). -/
def Obligations.WriteDrwEffect : Prop :=
  ∀ (d : Word) (s : State), s.oe = true → s.target.Bank0 → Memory.wf s.target.mem →
    (s.target.normalTransfer = true → cswSize s.target.csw = 0b010#3 → s.target.Plain s.target.tar →
      ∃ t, exec (.wrDrw d) s = .next t ∧ t.oe = true ∧ EndsWith s t d (.ack .ok) ∧
        t.target = { s.target.settled with mem := t.target.mem, tar := t.target.tar } ∧
        (∀ j < 4, Memory.readByte t.target.mem (alignWord s.target.tar + BitVec.ofNat 32 j) =
          d.extractLsb' (8 * j) 8) ∧
        (∀ b, alignWord b ≠ alignWord s.target.tar →
          Memory.readByte t.target.mem b = Memory.readByte s.target.mem b) ∧
        (cswAddrInc s.target.csw = 0b00#2 → t.target.tar = s.target.tar) ∧
        (cswAddrInc s.target.csw = 0b01#2 → t.target.tar = tarNext s.target.tar)) ∧
    (s.target.statusLive = true → trnCnt s.target.ctrlStat = 0 → cswSize s.target.csw = 0b010#3 →
      s.target.Plain s.target.tar → trnMode s.target.ctrlStat = 0b01#2 ∨ trnMode s.target.ctrlStat = 0b10#2 →
      ∃ t, exec (.wrDrw d) s = .next t ∧ t.oe = true ∧ EndsWith s t d (.ack .ok) ∧
        t.target = { s.target.settled with ctrlStat := t.target.ctrlStat, tar := t.target.tar } ∧
        (∀ k, k ≠ 4 → t.target.ctrlStat.getLsbD k = s.target.ctrlStat.getLsbD k) ∧
        (t.target.ctrlStat.getLsbD 4 = true ↔ (trnMode s.target.ctrlStat = 0b10#2 ↔
          ∀ j < 4, s.target.ctrlStat.getLsbD (8 + j) = true →
            Memory.readByte s.target.mem (alignWord s.target.tar + BitVec.ofNat 32 j) = d.extractLsb' (8 * j) 8)) ∧
        (cswAddrInc s.target.csw = 0b00#2 → t.target.tar = s.target.tar) ∧
        (cswAddrInc s.target.csw = 0b01#2 → t.target.tar = tarNext s.target.tar)) ∧
    (s.target.normalTransfer = true → cswSize s.target.csw = 0b000#3 → s.target.busError s.target.tar = false →
      ∃ t, exec (.wrDrw d) s = .next t ∧ t.oe = true ∧ EndsWith s t d (.ack .ok) ∧
        t.target = { s.target.settled with mem := t.target.mem, tar := t.target.tar } ∧
        Memory.readByte t.target.mem s.target.tar = d.extractLsb' (8 * (s.target.tar.toNat % 4)) 8 ∧
        (∀ b, b ≠ s.target.tar → Memory.readByte t.target.mem b = Memory.readByte s.target.mem b) ∧
        (cswAddrInc s.target.csw = 0b00#2 → t.target.tar = s.target.tar) ∧
        (cswAddrInc s.target.csw = 0b01#2 →
          t.target.tar.toNat = s.target.tar.toNat / 1024 * 1024 + (s.target.tar.toNat % 1024 + 1) % 1024))

/-- RD_DRW (41_transaction R192; 10_state R62, R64, R66; 20_memory R93): OK with what RDBUFF held unless that is stale. With
word size RDBUFF takes the word at TAR & ~3 byte by byte; with byte size it takes the byte at TAR in lane TAR & 3, and of its
other lanes nothing is said. TAR moves as after a write. Memory and all else are unchanged but READOK of a target that keeps
it (log 32). -/
def Obligations.ReadDrwEffect : Prop :=
  ∀ s : State, s.oe = true → s.target.Bank0 →
    (cswSize s.target.csw = 0b010#3 → s.target.Plain s.target.tar →
      ∃ t w, exec .rdDrw s = .next t ∧ t.oe = true ∧ EndsWith s t w (.ack .ok) ∧
        (s.target.stale = false → w = s.target.rdbuf) ∧
        t.target = { s.target.settled with
          ctrlStat := s.target.afterRead, rdbuf := t.target.rdbuf, stale := false, tar := t.target.tar } ∧
        (∀ j < 4, t.target.rdbuf.extractLsb' (8 * j) 8 =
          Memory.readByte s.target.mem (alignWord s.target.tar + BitVec.ofNat 32 j)) ∧
        (cswAddrInc s.target.csw = 0b00#2 → t.target.tar = s.target.tar) ∧
        (cswAddrInc s.target.csw = 0b01#2 → t.target.tar = tarNext s.target.tar)) ∧
    (cswSize s.target.csw = 0b000#3 → s.target.busError s.target.tar = false →
      ∃ t w, exec .rdDrw s = .next t ∧ t.oe = true ∧ EndsWith s t w (.ack .ok) ∧
        (s.target.stale = false → w = s.target.rdbuf) ∧
        t.target = { s.target.settled with
          ctrlStat := s.target.afterRead, rdbuf := t.target.rdbuf, stale := false, tar := t.target.tar } ∧
        t.target.rdbuf.extractLsb' (8 * (s.target.tar.toNat % 4)) 8 = Memory.readByte s.target.mem s.target.tar ∧
        (cswAddrInc s.target.csw = 0b00#2 → t.target.tar = s.target.tar) ∧
        (cswAddrInc s.target.csw = 0b01#2 →
          t.target.tar.toNat = s.target.tar.toNat / 1024 * 1024 + (s.target.tar.toNat % 1024 + 1) % 1024))

/-- RD_IDR (41_transaction R194; 10_state R60, R62): in bank 0xF of AP 0 RDBUFF takes the IDR and nothing else changes at the
target but that RDBUFF is no longer stale, and READOK of a target that keeps it (log 32). -/
def Obligations.ReadIdrEffect : Prop :=
  ∀ s : State, s.oe = true → s.target.Ready → apSel s.target.select = 0 → apBankSel s.target.select = 0xF →
    ∃ t w, exec .rdIdr s = .next t ∧ t.oe = true ∧ EndsWith s t w (.ack .ok) ∧
      (s.target.stale = false → w = s.target.rdbuf) ∧
      t.target = { s.target.settled with ctrlStat := s.target.afterRead, rdbuf := s.target.idr, stale := false }

/-- Sticky flags block the AP (10_state R67, 70_reset R403): while one is set, every AP request and every RDBUFF read is
answered FAULT in 13 cells and performs nothing; so the data cell and every register and byte of the target stay, but READOK
of a target that keeps it (log 32). A busy AP does not change that: the FAULT comes before the WAIT of R69, which is the
model's choice (log 19). -/
def Obligations.StickyFlagBlocksTheAp : Prop :=
  ∀ (i : Instr) (h : Byte) (d : Word) (s : State), encode i = .transaction h d → blockable h = true →
    s.oe = true → s.target.Listening → stickySet s.target.ctrlStat = true →
    ∃ t, exec i s = .next t ∧ t.oe = true ∧ EndsWith s t (if isRead h then s.data else d) (.ack .fault) ∧
      t.target = { s.target.settled with ctrlStat := s.target.afterFailed h } ∧ t.trace.length = s.trace.length + 13

/-- A busy AP (10_state R69): every AP request and every RDBUFF read is answered WAIT in 13 cells and performs nothing; only
the model's count of such answers goes down (log 19). A target that acts on the fields of R54 clears READOK, and with
ORUNDETECT set it sets STICKYORUN (log 32). -/
def Obligations.BusyApAnswersWait : Prop :=
  ∀ (i : Instr) (h : Byte) (d : Word) (s : State), encode i = .transaction h d → blockable h = true →
    s.oe = true → s.target.Listening → stickySet s.target.ctrlStat = false → s.target.busy ≠ 0 →
    ∃ t, exec i s = .next t ∧ t.oe = true ∧ EndsWith s t (if isRead h then s.data else d) (.ack .wait) ∧
      t.target = { s.target.settled with
        busy := s.target.busy - 1
        ctrlStat := if s.target.statusLive && s.target.ctrlStat.getLsbD 0 then s.target.afterFailed h ||| 0x00000002#32
          else s.target.afterFailed h } ∧
      t.trace.length = s.trace.length + 13

/-- A failed target-memory access sets STICKYERR (10_state R67): a DRW write and a DRW read at an address the bus refuses (the
model's list of addresses, log 16) are answered OK, set that flag and leave every byte of memory and every other register of
the target as it was, but TAR and, after a read, what the read pipeline holds and READOK of a target that keeps it (log 32).
The read still returns what RDBUFF held. -/
def Obligations.BusErrorSetsStickyErr : Prop :=
  ∀ (d : Word) (s : State), s.oe = true → s.target.Bank0 → s.target.busError s.target.tar = true →
    (∃ t, exec (.wrDrw d) s = .next t ∧ t.oe = true ∧ EndsWith s t d (.ack .ok) ∧
      t.target = { s.target.settled with
        ctrlStat := s.target.ctrlStat ||| 0x00000020#32
        tar := t.target.tar }) ∧
    (∃ t w, exec .rdDrw s = .next t ∧ t.oe = true ∧ EndsWith s t w (.ack .ok) ∧
      (s.target.stale = false → w = s.target.rdbuf) ∧
      t.target = { s.target.settled with
        ctrlStat := s.target.afterRead ||| 0x00000020#32
        rdbuf := t.target.rdbuf
        stale := false
        tar := t.target.tar })

/-- The SELECT bank hazard (70_reset R398): while SELECT names bank 0xF of AP 0, writes of CSW, TAR and DRW are answered OK
and change neither CSW nor TAR nor a byte of memory. That nothing else of the target changes but the AP registers beyond the
four, where the word goes, is the model's choice (log 15). -/
def Obligations.WrongBankMissesTheRegisters : Prop :=
  ∀ (i : Instr) (d : Word) (s : State), i ∈ [Instr.wrCsw d, Instr.wrTar d, Instr.wrDrw d] → s.oe = true →
    s.target.Ready → apSel s.target.select = 0 → apBankSel s.target.select = 0xF →
    ∃ t, exec i s = .next t ∧ t.oe = true ∧ EndsWith s t d (.ack .ok) ∧
      t.target = { s.target.settled with apOther := t.target.apOther }

/-! ## Error recovery -/

/-- The three results that need no transaction (42_error_recovery R221, R222, R223): nothing changes at all. -/
def Obligations.ClearErrorWithoutTransaction : Prop :=
  ∀ s : State, clearError .ok s = .ok (.ok, s) ∧ clearError .parityError s = .ok (.soft, s) ∧
    clearError (.protocolError 0b000#3) s = .ok (.soft, s)

/-- The recovery path always ends (42_error_recovery R220, R227, R228, R231): on a driven line, whatever the target does, with
0 or a hard failure, the line driven and nothing above the wire changed. The three raw patterns that 10_state R42 excludes are
taken in, and run the recovery path by the model's choice (log 33). -/
def Obligations.ClearErrorCompletes : Prop :=
  ∀ (a : Ack) (s : State), s.oe = true → a ≠ .ok → a ≠ .parityError → a ≠ .protocolError 0b000#3 →
    ∃ c t, clearError a s = .ok (c, t) ∧ (c = .ok ∨ c = .hard) ∧ t.oe = true ∧ WireOnly s t

/-- A cleared error ends with the CSW write (42_error_recovery R230): when the recovery path returns 0, the last cells of the
trace are a write of `CSW_WORD` to CSW with ACK OK, whatever the target is. The three raw patterns that 10_state R42 excludes
are taken in by the model's choice (log 33). -/
def Obligations.ClearedErrorEndsWithCswWrite : Prop :=
  ∀ (a : Ack) (s t : State), a ≠ .ok → clearError a s = .ok (.ok, t) →
    ∃ before x y, t.trace = s.trace ++ before ++ okWriteCells 0xA3 s.params.cswWord x y

/-- Recovery on the reference target (42_error_recovery R220, R229, R230; 10_state R68): from any set of sticky flags it
returns 0 with all four clear and CSW at `CSW_WORD` but for its read-only bits (log 13), and changes nothing else at the
target. The three raw patterns that 10_state R42 excludes are taken in by the model's choice (log 33). -/
def Obligations.RecoveryClearsTheReferenceTarget : Prop :=
  ∀ (a : Ack) (s : State), s.oe = true → a ≠ .ok → a ≠ .parityError → a ≠ .protocolError 0b000#3 →
    s.target.Listening → s.target.busy = 0 → s.target.pwrLeft = none →
    apSel s.target.select = 0 → apBankSel s.target.select = 0 →
    ∃ t, clearError a s = .ok (.ok, t) ∧ t.oe = true ∧ WireOnly s t ∧
      t.target = { s.target.settled with
        ctrlStat := s.target.ctrlStat &&& 0xFFFFFF4D#32
        csw := writeCsw s.target.csw s.params.cswWord } ∧
      stickySet t.target.ctrlStat = false

/-- Success without effect (42_error_recovery R230, R233): a TAR write that the target answers FAULT, and whose error is then
cleared, ends the wrapped transaction with 0 although TAR never took the value; memory is as it was, and the recovery leaves
CSW at `CSW_WORD` but for its read-only bits (the model's choice of mask, log 13). The FAULT is an injected answer (log 18). -/
def Obligations.ClearedFaultReportsSuccess : Prop :=
  ∀ (a : Word) (s : State), s.oe = true → s.target.attached = true → s.target.protocol = .swd →
    s.target.expectsIdcode = false → s.target.answers = [.fault] → s.target.busy = 0 → s.target.pwrLeft = none →
    apSel s.target.select = 0 → apBankSel s.target.select = 0 →
    ∃ t, wrapped codeWrTar a s = .ok ((.ok, a), t) ∧ t.oe = true ∧ WireOnly s t ∧
      t.target.tar = s.target.tar ∧ t.target.mem = s.target.mem ∧ t.target.csw = writeCsw s.target.csw s.params.cswWord

/-! ## Memory access -/

/-- Byte lanes (20_memory R90): the DRW word of a byte holds it in lane `addr & 3` and zeros elsewhere, and the same lane of
a word gives the byte back. -/
def Obligations.ByteLanes : Prop :=
  ∀ (a : Word) (b : Byte) (w : Word),
    (∀ k < 32, (laneWord a b).getLsbD k =
      (decide (8 * (a.toNat % 4) ≤ k) && b.getLsbD (k - 8 * (a.toNat % 4)))) ∧
    laneByte a w = w.extractLsb' (8 * (a.toNat % 4)) 8 ∧
    laneByte a (laneWord a b) = b

/-- The chunk split (43_memory_access R253): the chunks tile the range in address order, each not empty and inside one
1024-byte page; every chunk but the first starts on a page boundary, every chunk but the last ends on one. -/
def Obligations.ChunksTileTheRange : Prop :=
  ∀ (addr : Word) (len : Nat),
    ((chunks addr len).map Prod.snd).sum = len ∧
    ∀ (k : Nat) (a : Word) (c : Nat), (chunks addr len)[k]? = some (a, c) →
      a = addr + BitVec.ofNat 32 (((chunks addr len).take k).map Prod.snd).sum ∧
      c = min (len - (((chunks addr len).take k).map Prod.snd).sum) (1024 - a.toNat % 1024) ∧
      0 < c ∧ a.toNat % 1024 + c ≤ 1024 ∧
      (k ≠ 0 → a.toNat % 1024 = 0) ∧
      (k + 1 < (chunks addr len).length → (a.toNat + c) % 1024 = 0)

/-- The preconditions of the word operations (43_memory_access R250, 20_memory R94): a misaligned address or length faults, a
chunk that leaves its page faults, both with nothing done; a length of 0 on an aligned address issues nothing. So a host
read of something at a misaligned address faults, and on a driven line, whatever the target does, so does one whose length is
no multiple of 4, at its last sub-chunk (46_host_adapter R334). -/
def Obligations.WordOperationPreconditions : Prop :=
  ∀ (addr v : Word) (len : Nat) (buf : List Byte) (s : State),
    (addr.toNat % 4 ≠ 0 ∨ len % 4 ≠ 0 →
      readMem32 addr len s = .error .misalignedWordAccess ∧
      readWord32Chunk addr len s = .error .misalignedWordAccess) ∧
    (addr.toNat % 4 ≠ 0 ∨ buf.length % 4 ≠ 0 →
      writeMem32 addr buf s = .error .misalignedWordAccess ∧
      writeWord32Chunk addr buf s = .error .misalignedWordAccess) ∧
    (addr.toNat % 4 ≠ 0 → writeWord addr v s = .error .misalignedWordAccess ∧
      readWord addr s = .error .misalignedWordAccess) ∧
    (addr.toNat % 4 = 0 → len % 4 = 0 → 1024 < addr.toNat % 1024 + len →
      readWord32Chunk addr len s = .error .chunkCrossesPage) ∧
    (addr.toNat % 4 = 0 → buf.length % 4 = 0 → 1024 < addr.toNat % 1024 + buf.length →
      writeWord32Chunk addr buf s = .error .chunkCrossesPage) ∧
    (addr.toNat % 4 = 0 → readMem32 addr 0 s = .ok ((.ok, []), s) ∧ writeMem32 addr [] s = .ok (.ok, s) ∧
      readWord32Chunk addr 0 s = .ok ((.ok, []), s) ∧ writeWord32Chunk addr [] s = .ok (.ok, s)) ∧
    (∀ n : BitVec 16, addr.toNat % 4 ≠ 0 → n ≠ 0 → 0 < s.params.xferBuf →
      exec (.hostReadMem32 addr n) s = .fault .misalignedWordAccess) ∧
    (∀ n : BitVec 16, addr.toNat % 4 = 0 → n.toNat % 4 ≠ 0 → 0 < s.params.xferBuf → s.params.xferBuf % 4 = 0 →
      s.oe = true → exec (.hostReadMem32 addr n) s = .fault .misalignedWordAccess)

/-- `writeMem32` on the reference target (43_memory_access R251, R254; 20_memory R91): it returns 0, the byte at `buf[k]`
stands at `addr + k`, every other byte of memory reads as before, and nothing else of the target changes but CSW, TAR, READOK
of a target that keeps it (log 32) and what the transactions settle. -/
def Obligations.WriteMem32StoresTheBuffer : Prop :=
  ∀ (addr : Word) (buf : List Byte) (s : State), s.oe = true → s.target.Bank0 → s.target.normalTransfer = true →
    WordMode s.params.cswWord →
    Memory.wf s.target.mem → addr.toNat % 4 = 0 → buf.length % 4 = 0 → buf.length ≤ 2 ^ 32 →
    (∀ k < buf.length, s.target.Plain (addr + BitVec.ofNat 32 k)) →
    ∃ t, writeMem32 addr buf s = .ok (.ok, t) ∧ t.oe = true ∧ WireOnly s t ∧
      t.target = { s.target with
        ctrlStat := if buf = [] then s.target.ctrlStat else s.target.afterRead,
        mem := t.target.mem, csw := t.target.csw, tar := t.target.tar, accepting := t.target.accepting,
        drive := t.target.drive } ∧
      (∀ k b, buf[k]? = some b → Memory.readByte t.target.mem (addr + BitVec.ofNat 32 k) = b) ∧
      (∀ b, (∀ k < buf.length, b ≠ addr + BitVec.ofNat 32 k) →
        Memory.readByte t.target.mem b = Memory.readByte s.target.mem b)

/-- Write then read (43_memory_access R255, its example): on the reference target `readMem32` after `writeMem32` of the same
range returns 0 and the identical bytes. -/
def Obligations.ReadAfterWriteReturnsTheBuffer : Prop :=
  ∀ (addr : Word) (buf : List Byte) (s : State), s.oe = true → s.target.Bank0 → s.target.normalTransfer = true →
    WordMode s.params.cswWord →
    Memory.wf s.target.mem → addr.toNat % 4 = 0 → buf.length % 4 = 0 → buf.length ≤ 2 ^ 32 →
    (∀ k < buf.length, s.target.Plain (addr + BitVec.ofNat 32 k)) →
    ∃ t u, writeMem32 addr buf s = .ok (.ok, t) ∧ readMem32 addr buf.length t = .ok ((.ok, buf), u)

/-- `writeMem8` on the reference target (43_memory_access R256; 20_memory R90, R92; 70_reset R402): it returns 0, each byte
stands at its own address, every other byte reads as before, and CSW is back at `CSW_WORD` but for its read-only bits
(log 13). -/
def Obligations.WriteMem8StoresTheBytes : Prop :=
  ∀ (addr : Word) (buf : List Byte) (s : State), s.oe = true → s.target.Bank0 → s.target.normalTransfer = true →
    cswSize s.params.cswByte = 0b000#3 → Memory.wf s.target.mem → buf.length ≤ 2 ^ 32 →
    (∀ k < buf.length, s.target.busError (addr + BitVec.ofNat 32 k) = false) →
    ∃ t, writeMem8 addr buf s = .ok (.ok, t) ∧ t.oe = true ∧ WireOnly s t ∧
      t.target.csw = writeCsw s.target.csw s.params.cswWord ∧
      (∀ k b, buf[k]? = some b → Memory.readByte t.target.mem (addr + BitVec.ofNat 32 k) = b) ∧
      (∀ b, (∀ k < buf.length, b ≠ addr + BitVec.ofNat 32 k) →
        Memory.readByte t.target.mem b = Memory.readByte s.target.mem b)

/-- The width never leaks (43_memory_access R256, R257; 70_reset R402): when an 8-bit operation returns 0, whatever the
target is, its last cells are a write of `CSW_WORD` to CSW with ACK OK. -/
def Obligations.ByteOperationsRestoreCsw : Prop :=
  ∀ (addr : Word) (buf : List Byte) (len : Nat) (s t : State),
    (writeMem8 addr buf s = .ok (.ok, t) →
      ∃ before x y, t.trace = s.trace ++ before ++ okWriteCells 0xA3 s.params.cswWord x y) ∧
    (∀ bytes, readMem8 addr len s = .ok ((.ok, bytes), t) →
      ∃ before x y, t.trace = s.trace ++ before ++ okWriteCells 0xA3 s.params.cswWord x y)

/-! ## Core registers -/

/-- `readCoreReg` on the reference target (44_core_register R281; 10_state R75): it returns 0 and the register's value, and
leaves the core registers and memory as they were. -/
def Obligations.ReadCoreRegReturnsTheRegister : Prop :=
  ∀ (index : Byte) (s : State), s.oe = true → s.target.Bank0 → s.target.normalTransfer = true →
    WordMode s.params.cswWord → 1 ≤ s.params.regPollMax → s.target.regDelay = some 0 → s.target.busErrors = [] →
    ∃ t, readCoreReg index s = .ok ((.ok, sparseGet 0 s.target.coreRegs index.toNat), t) ∧ t.oe = true ∧
      WireOnly s t ∧ t.target.coreRegs = s.target.coreRegs ∧ t.target.mem = s.target.mem

/-- `writeCoreReg` on the reference target (44_core_register R282; 10_state R75): it returns 0, the register holds the value,
every other core register and every byte of memory is unchanged. -/
def Obligations.WriteCoreRegSetsTheRegister : Prop :=
  ∀ (index : Byte) (v : Word) (s : State), s.oe = true → s.target.Bank0 → s.target.normalTransfer = true →
    WordMode s.params.cswWord →
    1 ≤ s.params.regPollMax → s.target.regDelay = some 0 → s.target.busErrors = [] → SparseWf 0 s.target.coreRegs →
    ∃ t, writeCoreReg index v s = .ok (.ok, t) ∧ t.oe = true ∧ WireOnly s t ∧
      (∀ j : Byte, sparseGet 0 t.target.coreRegs j.toNat = if j = index then v else sparseGet 0 s.target.coreRegs j.toNat) ∧
      t.target.mem = s.target.mem

/-- The ready timeout (44_core_register R280, R283): against a core whose transfers never finish, a register read ends,
with code 1. -/
def Obligations.RegisterTimeoutIsSoft : Prop :=
  ∀ (index : Byte) (s : State), s.oe = true → s.target.Bank0 → s.target.normalTransfer = true →
    WordMode s.params.cswWord → s.target.regDelay = none → s.target.busErrors = [] →
    ∃ v t, readCoreReg index s = .ok ((.soft, v), t) ∧ t.oe = true ∧ WireOnly s t

/-! ## Sessions and line sequences -/

/-- The connect sequence (42_error_recovery R224): from any state it drives the line and appends its
`2 * LR_ONES + 16 + IDLE_BITS` out-cells, changing nothing above the wire. -/
def Obligations.ConnectSequenceCells : Prop :=
  ∀ s : State, ∃ t, swdConnectSequence s = .ok ((), t) ∧ t.oe = true ∧ WireOnly s t ∧
    t.trace = s.trace ++ switchCells s.params 0xE79E ++ List.replicate s.params.idleBits (WireCell.driven false)

/-- JTAG_TO_SWD and SWD_TO_JTAG (30_encoding R146, R147; 10_state R71): on a driven line the sixteen cells of the value, least
significant bit first, after which an attached target's port speaks SWD, or JTAG; nothing else changes. That the rest of the
target stays as it was is the model's choice (log 12), and so is that the rows are the bare sixteen bits (log 24). -/
def Obligations.SwitchSequenceEffect : Prop :=
  ∀ s : State, s.oe = true →
    (∃ n, exec .jtagToSwd s = .next { s with
      clk := true
      dout := true
      trace := s.trace ++ [false, true, true, true, true, false, false, true,
        true, true, true, false, false, true, true, true].map WireCell.driven
      target := { s.target with protocol := if s.target.attached then .swd else s.target.protocol }
      result := .done
      draws := n }) ∧
    (∃ n, exec .swdToJtag s = .next { s with
      clk := true
      dout := true
      trace := s.trace ++ [false, false, true, true, true, true, false, false,
        true, true, true, false, false, true, true, true].map WireCell.driven
      target := { s.target with protocol := if s.target.attached then .jtag else s.target.protocol }
      result := .done
      draws := n })

/-- `open` from any state, Open included, against any target (45_session R300, R301, R309, R310): it always ends, with the line
driven; the session is Open exactly when the code is 0 and Closed otherwise; no other state of the core above the wire
changes but `coreId`. -/
def Obligations.OpenAlwaysEnds : Prop :=
  ∀ s : State, ∃ c id t, openSession s = .ok (c, t) ∧ t.oe = true ∧
    WireOnly { s with session := if c = .ok then .opened else .closed, coreId := id } t

/-- `open` on the reference target (45_session R301 to R308; 10_state R63, R72, R75): it returns 0 in session Open with
`coreId` the IDCODE; the target ends with its power-up requests and acknowledges set, no sticky flag, SELECT at bank 0,
CSW at `CSW_WORD` but for its read-only bits (log 13), debug enabled, its memory and core registers as they were. That the line resets and
the switch sequence leave memory, core registers and the read-only bits of CSW alone is the model's choice (log 11, log 12). -/
def Obligations.OpenOnTheReferenceTarget : Prop :=
  ∀ s : State, s.target.attached = true → s.target.answers = [] → s.target.busy = 0 →
    s.target.pwrDelay = some 0 → s.target.busErrors = [] → WordMode s.params.cswWord → 1 ≤ s.params.pwrPollMax →
    (s.params.idrCheck = true → s.target.idr ≠ 0) →
    ∃ t, openSession s = .ok (.ok, t) ∧ t.oe = true ∧
      WireOnly { s with session := .opened, coreId := s.target.idcode } t ∧
      t.target.Bank0 ∧ t.target.ctrlStat &&& 0xF00000B2#32 = 0xF0000000#32 ∧ t.target.select = 0 ∧
      t.target.csw = writeCsw s.target.csw s.params.cswWord ∧ t.target.debugEn = true ∧
      t.target.mem = s.target.mem ∧ t.target.coreRegs = s.target.coreRegs

/-- `close` (45_session R311, R312, R316): on a driven line it always ends, whatever the target does: the session Closed,
`coreId` 0, the line released, the last cells those of the disconnect sequence, no other core state above the wire changed. -/
def Obligations.CloseReleasesTheLine : Prop :=
  ∀ s : State, s.oe = true → ∃ t before, closeSession s = .ok ((), t) ∧ t.oe = false ∧
    WireOnly { s with session := .closed, coreId := 0 } t ∧
    t.trace = s.trace ++ before ++ switchCells s.params 0xE73C

/-! ## The host interface -/

/-- HOST_ReadMem32 against any target (46_host_adapter R334, R335, R337, R338): aligned, on a driven line, it always ends, with
internal result 0; whatever failed and was reopened on the way, `len` bytes in all are handed to the host, in buffers of
`XFER_BUF` bytes and a last one of what remains. -/
def Obligations.HostReadAlwaysEnds : Prop :=
  ∀ (addr : Word) (len : BitVec 16) (s : State), s.oe = true → wordAligned addr len.toNat = true →
    s.params.xferBuf % 4 = 0 → 0 < s.params.xferBuf →
    ∃ t bufs, exec (.hostReadMem32 addr len) s = .next t ∧ t.oe = true ∧ t.result = .host 0 ∧
      t.sent = s.sent ++ bufs ∧ bufs.flatten.length = len.toNat ∧
      (∀ b ∈ bufs, 0 < b.length ∧ b.length ≤ s.params.xferBuf) ∧
      (∀ b ∈ bufs.dropLast, b.length = s.params.xferBuf) ∧
      (len = 0 → t.lastStatus = s.lastStatus) ∧
      t.mode = s.mode ∧ t.params = s.params ∧ t.data = s.data ∧ t.inbox = s.inbox ∧ t.hostData = s.hostData ∧
      s.trace <+: t.trace

/-- HOST_ReadMem32 on the reference target (46_host_adapter R334, R336, R337, R342; 43_memory_access R252, R255; 20_memory R91,
R93): the bytes handed to the host are the `len` bytes of memory from `addr` on, the latch reads OK when there was anything
to read, and memory and every register of the target but CSW, TAR, the read pipeline and READOK of a target that keeps it
(log 32) are unchanged. -/
def Obligations.HostReadReturnsMemory : Prop :=
  ∀ (addr : Word) (len : BitVec 16) (s : State), s.oe = true → s.target.Bank0 → WordMode s.params.cswWord →
    wordAligned addr len.toNat = true → s.params.xferBuf % 4 = 0 → 0 < s.params.xferBuf →
    (∀ k < len.toNat, s.target.Plain (addr + BitVec.ofNat 32 k)) →
    ∃ t bufs, exec (.hostReadMem32 addr len) s = .next t ∧ t.oe = true ∧
      WireOnly { s with
        sent := s.sent ++ bufs
        lastStatus := if len = 0 then s.lastStatus else .ok
        result := .host 0 } t ∧
      bufs.flatten = (List.range len.toNat).map (fun k => Memory.readByte s.target.mem (addr + BitVec.ofNat 32 k)) ∧
      (∀ b ∈ bufs, 0 < b.length ∧ b.length ≤ s.params.xferBuf) ∧
      (∀ b ∈ bufs.dropLast, b.length = s.params.xferBuf) ∧
      t.target = { s.target with
        ctrlStat := if len = 0 then s.target.ctrlStat else s.target.afterRead,
        csw := t.target.csw, tar := t.target.tar, rdbuf := t.target.rdbuf, stale := t.target.stale,
        accepting := t.target.accepting, drive := t.target.drive }

/-- The last-status latch (46_host_adapter R334, R335, R336): when the layer returns the code `e` for a sub-chunk, the sub-chunk
ends, the latch OK when `e` is 0 and FAULT otherwise, the bytes of a read handed to the host in one buffer. With code 0 nothing
else changes after the layer. With any other code `open` runs next and the sub-chunk ends where `open` ends, whatever its code: the
session Open or Closed, never Connecting, the latch still FAULT (R343) and the line driven. -/
def Obligations.LatchFollowsTheSubChunk : Prop :=
  ∀ (kind : RangeKind) (a : Word) (n : Nat) (s u : State) (e : Code) (bytes : List Byte),
    layerOp kind a n s = .ok ((e, bytes), u) →
    ∃ t, subChunk kind a n s = .ok (decide (e = .ok), t) ∧
      t.lastStatus = (if e = .ok then .ok else .fault) ∧
      t.sent = (if kind.isWrite then u.sent else u.sent ++ [bytes]) ∧
      (e = .ok → t = { u with lastStatus := .ok, sent := t.sent }) ∧
      (e ≠ .ok → (∃ c, openSession { u with lastStatus := .fault, sent := t.sent } = .ok (c, t)) ∧
        t.oe = true ∧ (t.session = .opened ∨ t.session = .closed) ∧
        t.mode = u.mode ∧ t.params = u.params ∧ t.inbox = u.inbox ∧ t.hostData = u.hostData ∧ u.trace <+: t.trace)

/-- Unsupported packets (46_host_adapter R338): a group byte or a debug sub-command that names nothing sends `STATUS_FAULT`,
ends with internal result -1, runs no transaction and changes no other state. -/
def Obligations.UnsupportedPacket : Prop :=
  ∀ (s : State) (pkt : List Byte) (rest : List Request), s.inbox = .packet pkt :: rest → pkt.length = 16 →
    (pkt.getD 0 0 ∉ [0xF2, s.params.codes.getVersion, s.params.codes.dfu, s.params.codes.getMode,
        s.params.codes.getTargetVoltage] ∨
      pkt.getD 0 0 = 0xF2 ∧ pkt.getD 1 0 ∉ [0x07, s.params.codes.writeMem32, s.params.codes.readMem8,
        s.params.codes.writeMem8, s.params.codes.enterSwd, s.params.codes.exitDebug, s.params.codes.readCoreId,
        s.params.codes.readReg, s.params.codes.writeReg, s.params.codes.readAllRegs, s.params.codes.getLastRwStatus]) →
    step s = .next { s with
      inbox := rest
      sent := s.sent ++ [[s.params.statusFault.extractLsb' 0 8, s.params.statusFault.extractLsb' 8 8]]
      result := .host (-1) }

/-- ReadCoreId and GetLastRWStatus (46_host_adapter R340, R341): each sends what its register holds and runs no transaction;
no other state changes. -/
def Obligations.StatusCommands : Prop :=
  ∀ (s : State) (pkt : List Byte) (rest : List Request), s.inbox = .packet pkt :: rest → pkt.length = 16 →
    s.params.codes.wf → pkt.getD 0 0 = 0xF2 →
    (pkt.getD 1 0 = s.params.codes.readCoreId → step s = .next { s with
      inbox := rest
      sent := s.sent ++ [[s.coreId.extractLsb' 0 8, s.coreId.extractLsb' 8 8, s.coreId.extractLsb' 16 8,
        s.coreId.extractLsb' 24 8]]
      result := .host 0 }) ∧
    (pkt.getD 1 0 = s.params.codes.getLastRwStatus → step s = .next { s with
      inbox := rest
      sent := s.sent ++ [halfBytes (if s.lastStatus = .ok then s.params.statusOk else s.params.statusFault)]
      result := .host 0 })

/-- EnterSWD (46_host_adapter R333, R337): from any state it always ends; the mode is DebugSWD whatever `open` did, and the
status sent says whether the session is Open. -/
def Obligations.EnterSwdCommand : Prop :=
  ∀ (s : State) (pkt : List Byte) (rest : List Request), s.inbox = .packet pkt :: rest → pkt.length = 16 →
    s.params.codes.wf → pkt.getD 0 0 = 0xF2 → pkt.getD 1 0 = s.params.codes.enterSwd →
    ∃ t, step s = .next t ∧ t.oe = true ∧ t.mode = .debugSwd ∧ t.result = .host 0 ∧ t.inbox = rest ∧
      (t.session = .opened ∧ t.sent = s.sent ++ [halfBytes s.params.statusOk] ∨
        t.session = .closed ∧ t.sent = s.sent ++ [halfBytes s.params.statusFault]) ∧
      t.lastStatus = s.lastStatus ∧ t.params = s.params ∧ t.hostData = s.hostData

/-! ## The machine as a whole -/

/-- Reset (70_reset R390): session Closed, mode Unknown, `coreId` 0, the line released, the trace empty. -/
def Obligations.ResetValues : Prop :=
  State.reset.session = .closed ∧ State.reset.mode = .unknown ∧ State.reset.coreId = 0 ∧ State.reset.oe = false ∧
    State.reset.trace = []

/-- With no request the core waits and clocks no cell (70_reset R391). Otherwise a step takes the oldest request out of the
inbox and runs what it decodes to: an instruction's own meaning, on the state with the request taken out and nothing else
changed (46_host_adapter R344; log 1). -/
def Obligations.StepRunsTheDecodedInstruction : Prop :=
  ∀ s : State, (s.inbox = [] → step s = .next s) ∧
    ∀ (r : Request) (rest : List Request) (i : Instr), s.inbox = r :: rest →
      decode s.params.codes (apBankSel s.target.select) r = .ok (.instr i) →
      i.wellFormed (apBankSel s.target.select) = true → step s = exec i { s with inbox := rest }

/-- The invariant holds right after reset (70_reset R390). -/
def Obligations.ResetMeetsTheInvariant : Prop := State.reset.Inv

/-- Every step keeps the invariant: the trace and the wire agree (10_state R32, R36, R44; 40_phy R162), the target's stores
are canonical, and no session is left in Connecting (45_session R300, R301). -/
def Obligations.StepKeepsTheInvariant : Prop :=
  ∀ s t : State, s.Inv → step s = .next t → t.Inv

/-- Every step only appends to the trace (10_state R44), and no step changes a parameter (00_scope R11; log 3). -/
def Obligations.StepOnlyAppendsToTheTrace : Prop :=
  ∀ s t : State, step s = .next t → s.trace <+: t.trace ∧ t.params = s.params

/-- Who writes what (10_state R38, R39, R40, R41; 46_host_adapter R333, R336). A step whose request is a transaction, a line
sequence or a call of an operation leaves the latch, the mode and the transport as they were, and all but `open` and `close`
leave the session and `coreId` as they were. Of the host commands only the four memory-range ones write the latch and only
EnterSWD the mode, and only these five and Exit change the session or `coreId`. -/
def Obligations.OnlyHostCommandsWriteTheLatch : Prop :=
  ∀ (s t : State) (r : Request) (rest : List Request), s.inbox = r :: rest → step s = .next t →
    ((∀ pkt, r ≠ .packet pkt) →
      t.lastStatus = s.lastStatus ∧ t.mode = s.mode ∧ t.sent = s.sent ∧ t.hostData = s.hostData ∧
      (r ≠ .call .openSession → r ≠ .call .closeSession → t.session = s.session ∧ t.coreId = s.coreId)) ∧
    (∀ d, s.decodeRequest r = .ok d →
      (d ≠ .command .enterSwd → t.mode = s.mode) ∧
      ((∀ a n, d ∉ [.instr (.hostReadMem32 a n), .command (.writeMem32 a n), .command (.readMem8 a n),
          .command (.writeMem8 a n)]) →
        t.lastStatus = s.lastStatus ∧
        (d ∉ [.command .enterSwd, .command .exitDebug, .operation .openSession, .operation .closeSession] →
          t.session = s.session ∧ t.coreId = s.coreId)))
end

