-- ==== Sys2Proof/Laws/Bits.lean ====
section
/-! SUPPORT. Bits in wire order and the words they make (00_scope R14, R15), byte lanes and buffers (20_memory R90, R91). -/

namespace Sys2Proof.Laws

open Sys2Proof Sys2Proof.Machine

@[simp] theorem lsbBits_length (n : Nat) (v : Word) : (lsbBits n v).length = n := by
  simp [lsbBits]

theorem lsbBits_getElem (n : Nat) (v : Word) (k : Nat) (h : k < (lsbBits n v).length) :
    (lsbBits n v)[k] = v.getLsbD k := by
  simp [lsbBits]

theorem getLsbD_assemble (bs : List Bool) (k : Nat) (hk : k < 32) :
    (assemble bs).getLsbD k = bs.getD k false := by
  induction bs generalizing k with
  | nil => simp [assemble]
  | cons b bs ih =>
    cases k with
    | zero => cases b <;> simp [assemble]
    | succ k =>
      have := ih k (by omega)
      rw [List.getD_cons_succ, ← this]
      cases b <;>
        simp [assemble, hk, BitVec.getLsbD_eq_getElem (x := assemble bs) (show k < 32 by omega)]

/-- A word received bit by bit is the word that was sent. -/
@[simp] theorem assemble_lsbBits (v : Word) : assemble (lsbBits 32 v) = v := by
  apply BitVec.eq_of_getLsbD_eq
  intro k hk
  rw [getLsbD_assemble _ _ hk]
  simp [lsbBits, List.getD, hk]

/-- The sampled bits of a short shift are the low bits of its result; the rest are 0 (40_phy R165). -/
theorem assemble_setWidth3 (a b c : Bool) :
    (assemble [a, b, c]).setWidth 3 = BitVec.ofBool c ++ BitVec.ofBool b ++ BitVec.ofBool a := by
  cases a <;> cases b <;> cases c <;> decide

@[simp] theorem assemble_single (b : Bool) : (assemble [b]).getLsbD 0 = b := by
  cases b <;> decide

@[simp] theorem lsbBits_parityWord (b : Bool) : lsbBits 1 (if b then 1 else 0) = [b] := by
  cases b <;> decide

/-- The lane of a byte gives the byte back (20_memory R90). -/
theorem laneByte_laneWord (a : Word) (b : Byte) : laneByte a (laneWord a b) = b := by
  have h : a.toNat % 4 < 4 := Nat.mod_lt _ (by omega)
  unfold laneByte laneWord laneShift
  apply BitVec.eq_of_getLsbD_eq
  intro k hk
  have h1 : a.toNat % 4 * 8 + k < 32 := by omega
  have h2 : k < 32 := by omega
  simp [hk, h1, h2]

theorem wordBytes_bytesWord (b0 b1 b2 b3 : Byte) : wordBytes (bytesWord b0 b1 b2 b3) = [b0, b1, b2, b3] := by
  simp only [wordBytes, bytesWord, List.cons.injEq, and_true]
  refine ⟨?_, ?_, ?_, ?_⟩ <;> (apply BitVec.eq_of_getLsbD_eq; intro k hk)
  all_goals simp only [BitVec.getLsbD_extractLsb', BitVec.getLsbD_append, hk, decide_true, Bool.true_and]
  all_goals (repeat' split)
  all_goals first | omega | (congr 1; omega)

theorem bytesWord_wordBytes (w : Word) :
    bytesWord (w.extractLsb' 0 8) (w.extractLsb' 8 8) (w.extractLsb' 16 8) (w.extractLsb' 24 8) = w := by
  apply BitVec.eq_of_getLsbD_eq
  intro k hk
  simp only [bytesWord, BitVec.getLsbD_append, BitVec.getLsbD_extractLsb']
  split
  · simp_all
  · split
    · have : k - 8 < 8 := by omega
      have e : 8 + (k - 8) = k := by omega
      simp_all
    · split
      · have : k - 8 - 8 < 8 := by omega
        have e : 16 + (k - 8 - 8) = k := by omega
        simp_all
      · have : k - 8 - 8 - 8 < 8 := by omega
        have e : 24 + (k - 8 - 8 - 8) = k := by omega
        simp_all

@[simp] theorem bufWords_wordBytes (w : Word) : bufWords (wordBytes w) = [w] := by
  simp [wordBytes, bufWords, bytesWord_wordBytes]

@[simp] theorem wordBytes_length (w : Word) : (wordBytes w).length = 4 := rfl

@[simp] theorem wordsBytes_length (ws : List Word) : (wordsBytes ws).length = 4 * ws.length := by
  induction ws with
  | nil => rfl
  | cons w ws ih => simp [wordsBytes, ih]; omega

/-- Words laid out as bytes and read back as words are the same words (20_memory R91). -/
@[simp] theorem bufWords_wordsBytes (ws : List Word) : bufWords (wordsBytes ws) = ws := by
  induction ws with
  | nil => rfl
  | cons w ws ih => simp [wordsBytes, wordBytes, bufWords, bytesWord_wordBytes, ih]

/-- A buffer of whole words is the bytes of its words (20_memory R91). -/
theorem wordsBytes_bufWords (buf : List Byte) (h : buf.length % 4 = 0) : wordsBytes (bufWords buf) = buf := by
  fun_induction bufWords buf with
  | case1 b0 b1 b2 b3 rest ih =>
    have : rest.length % 4 = 0 := by simp at h; omega
    simp [wordsBytes, wordBytes_bytesWord, ih this]
  | case2 buf hne =>
    match buf, h, hne with
    | [], _, _ => rfl
    | [_], h, _ => simp at h
    | [_, _], h, _ => simp at h
    | [_, _, _], h, _ => simp at h
    | a :: b :: c :: d :: r, _, hne => exact absurd rfl (hne a b c d r)

theorem bufWords_length (buf : List Byte) : (bufWords buf).length = buf.length / 4 := by
  fun_induction bufWords buf with
  | case1 b0 b1 b2 b3 rest ih => simp [ih]; omega
  | case2 buf hne =>
    match buf, hne with
    | [], _ => rfl
    | [_], _ => simp
    | [_, _], _ => simp
    | [_, _, _], _ => simp
    | a :: b :: c :: d :: r, hne => exact absurd rfl (hne a b c d r)

end Sys2Proof.Laws
end

