-- ==== Sys2Proof/Laws/State.lean ====
section
/-! SUPPORT. What each named update of State leaves in each field, one lemma per field per update. -/

namespace Sys2Proof.Laws

open Sys2Proof Sys2Proof.Machine

section setOeFields

variable (b : Bool) (s : State)

@[simp] theorem setOe_clk : (s.setOe b).clk = s.clk := rfl
@[simp] theorem setOe_oe : (s.setOe b).oe = b := rfl
@[simp] theorem setOe_dout : (s.setOe b).dout = s.dout := rfl
@[simp] theorem setOe_session : (s.setOe b).session = s.session := rfl
@[simp] theorem setOe_coreId : (s.setOe b).coreId = s.coreId := rfl
@[simp] theorem setOe_lastStatus : (s.setOe b).lastStatus = s.lastStatus := rfl
@[simp] theorem setOe_mode : (s.setOe b).mode = s.mode := rfl
@[simp] theorem setOe_trace : (s.setOe b).trace = s.trace := rfl
@[simp] theorem setOe_target : (s.setOe b).target = s.target := rfl
@[simp] theorem setOe_params : (s.setOe b).params = s.params := rfl
@[simp] theorem setOe_data : (s.setOe b).data = s.data := rfl
@[simp] theorem setOe_result : (s.setOe b).result = s.result := rfl
@[simp] theorem setOe_inbox : (s.setOe b).inbox = s.inbox := rfl
@[simp] theorem setOe_hostData : (s.setOe b).hostData = s.hostData := rfl
@[simp] theorem setOe_sent : (s.setOe b).sent = s.sent := rfl
@[simp] theorem setOe_levels : (s.setOe b).levels = s.levels := rfl
@[simp] theorem setOe_draws : (s.setOe b).draws = s.draws := rfl
@[simp] theorem setOe_cleared : (s.setOe b).cleared = s.cleared := rfl

end setOeFields

section setSessionFields

variable (x : Session) (s : State)

@[simp] theorem setSession_clk : (s.setSession x).clk = s.clk := rfl
@[simp] theorem setSession_oe : (s.setSession x).oe = s.oe := rfl
@[simp] theorem setSession_dout : (s.setSession x).dout = s.dout := rfl
@[simp] theorem setSession_session : (s.setSession x).session = x := rfl
@[simp] theorem setSession_coreId : (s.setSession x).coreId = s.coreId := rfl
@[simp] theorem setSession_lastStatus : (s.setSession x).lastStatus = s.lastStatus := rfl
@[simp] theorem setSession_mode : (s.setSession x).mode = s.mode := rfl
@[simp] theorem setSession_trace : (s.setSession x).trace = s.trace := rfl
@[simp] theorem setSession_target : (s.setSession x).target = s.target := rfl
@[simp] theorem setSession_params : (s.setSession x).params = s.params := rfl
@[simp] theorem setSession_data : (s.setSession x).data = s.data := rfl
@[simp] theorem setSession_result : (s.setSession x).result = s.result := rfl
@[simp] theorem setSession_inbox : (s.setSession x).inbox = s.inbox := rfl
@[simp] theorem setSession_hostData : (s.setSession x).hostData = s.hostData := rfl
@[simp] theorem setSession_sent : (s.setSession x).sent = s.sent := rfl
@[simp] theorem setSession_levels : (s.setSession x).levels = s.levels := rfl
@[simp] theorem setSession_draws : (s.setSession x).draws = s.draws := rfl
@[simp] theorem setSession_cleared : (s.setSession x).cleared = s.cleared := rfl

end setSessionFields

section setCoreIdFields

variable (w : Word) (s : State)

@[simp] theorem setCoreId_clk : (s.setCoreId w).clk = s.clk := rfl
@[simp] theorem setCoreId_oe : (s.setCoreId w).oe = s.oe := rfl
@[simp] theorem setCoreId_dout : (s.setCoreId w).dout = s.dout := rfl
@[simp] theorem setCoreId_session : (s.setCoreId w).session = s.session := rfl
@[simp] theorem setCoreId_coreId : (s.setCoreId w).coreId = w := rfl
@[simp] theorem setCoreId_lastStatus : (s.setCoreId w).lastStatus = s.lastStatus := rfl
@[simp] theorem setCoreId_mode : (s.setCoreId w).mode = s.mode := rfl
@[simp] theorem setCoreId_trace : (s.setCoreId w).trace = s.trace := rfl
@[simp] theorem setCoreId_target : (s.setCoreId w).target = s.target := rfl
@[simp] theorem setCoreId_params : (s.setCoreId w).params = s.params := rfl
@[simp] theorem setCoreId_data : (s.setCoreId w).data = s.data := rfl
@[simp] theorem setCoreId_result : (s.setCoreId w).result = s.result := rfl
@[simp] theorem setCoreId_inbox : (s.setCoreId w).inbox = s.inbox := rfl
@[simp] theorem setCoreId_hostData : (s.setCoreId w).hostData = s.hostData := rfl
@[simp] theorem setCoreId_sent : (s.setCoreId w).sent = s.sent := rfl
@[simp] theorem setCoreId_levels : (s.setCoreId w).levels = s.levels := rfl
@[simp] theorem setCoreId_draws : (s.setCoreId w).draws = s.draws := rfl
@[simp] theorem setCoreId_cleared : (s.setCoreId w).cleared = s.cleared := rfl

end setCoreIdFields

section setLastStatusFields

variable (x : LastStatus) (s : State)

@[simp] theorem setLastStatus_clk : (s.setLastStatus x).clk = s.clk := rfl
@[simp] theorem setLastStatus_oe : (s.setLastStatus x).oe = s.oe := rfl
@[simp] theorem setLastStatus_dout : (s.setLastStatus x).dout = s.dout := rfl
@[simp] theorem setLastStatus_session : (s.setLastStatus x).session = s.session := rfl
@[simp] theorem setLastStatus_coreId : (s.setLastStatus x).coreId = s.coreId := rfl
@[simp] theorem setLastStatus_lastStatus : (s.setLastStatus x).lastStatus = x := rfl
@[simp] theorem setLastStatus_mode : (s.setLastStatus x).mode = s.mode := rfl
@[simp] theorem setLastStatus_trace : (s.setLastStatus x).trace = s.trace := rfl
@[simp] theorem setLastStatus_target : (s.setLastStatus x).target = s.target := rfl
@[simp] theorem setLastStatus_params : (s.setLastStatus x).params = s.params := rfl
@[simp] theorem setLastStatus_data : (s.setLastStatus x).data = s.data := rfl
@[simp] theorem setLastStatus_result : (s.setLastStatus x).result = s.result := rfl
@[simp] theorem setLastStatus_inbox : (s.setLastStatus x).inbox = s.inbox := rfl
@[simp] theorem setLastStatus_hostData : (s.setLastStatus x).hostData = s.hostData := rfl
@[simp] theorem setLastStatus_sent : (s.setLastStatus x).sent = s.sent := rfl
@[simp] theorem setLastStatus_levels : (s.setLastStatus x).levels = s.levels := rfl
@[simp] theorem setLastStatus_draws : (s.setLastStatus x).draws = s.draws := rfl
@[simp] theorem setLastStatus_cleared : (s.setLastStatus x).cleared = s.cleared := rfl

end setLastStatusFields

section setModeFields

variable (m : ProbeMode) (s : State)

@[simp] theorem setMode_clk : (s.setMode m).clk = s.clk := rfl
@[simp] theorem setMode_oe : (s.setMode m).oe = s.oe := rfl
@[simp] theorem setMode_dout : (s.setMode m).dout = s.dout := rfl
@[simp] theorem setMode_session : (s.setMode m).session = s.session := rfl
@[simp] theorem setMode_coreId : (s.setMode m).coreId = s.coreId := rfl
@[simp] theorem setMode_lastStatus : (s.setMode m).lastStatus = s.lastStatus := rfl
@[simp] theorem setMode_mode : (s.setMode m).mode = m := rfl
@[simp] theorem setMode_trace : (s.setMode m).trace = s.trace := rfl
@[simp] theorem setMode_target : (s.setMode m).target = s.target := rfl
@[simp] theorem setMode_params : (s.setMode m).params = s.params := rfl
@[simp] theorem setMode_data : (s.setMode m).data = s.data := rfl
@[simp] theorem setMode_result : (s.setMode m).result = s.result := rfl
@[simp] theorem setMode_inbox : (s.setMode m).inbox = s.inbox := rfl
@[simp] theorem setMode_hostData : (s.setMode m).hostData = s.hostData := rfl
@[simp] theorem setMode_sent : (s.setMode m).sent = s.sent := rfl
@[simp] theorem setMode_levels : (s.setMode m).levels = s.levels := rfl
@[simp] theorem setMode_draws : (s.setMode m).draws = s.draws := rfl
@[simp] theorem setMode_cleared : (s.setMode m).cleared = s.cleared := rfl

end setModeFields

section setTargetFields

variable (t : Target) (s : State)

@[simp] theorem setTarget_clk : (s.setTarget t).clk = s.clk := rfl
@[simp] theorem setTarget_oe : (s.setTarget t).oe = s.oe := rfl
@[simp] theorem setTarget_dout : (s.setTarget t).dout = s.dout := rfl
@[simp] theorem setTarget_session : (s.setTarget t).session = s.session := rfl
@[simp] theorem setTarget_coreId : (s.setTarget t).coreId = s.coreId := rfl
@[simp] theorem setTarget_lastStatus : (s.setTarget t).lastStatus = s.lastStatus := rfl
@[simp] theorem setTarget_mode : (s.setTarget t).mode = s.mode := rfl
@[simp] theorem setTarget_trace : (s.setTarget t).trace = s.trace := rfl
@[simp] theorem setTarget_target : (s.setTarget t).target = t := rfl
@[simp] theorem setTarget_params : (s.setTarget t).params = s.params := rfl
@[simp] theorem setTarget_data : (s.setTarget t).data = s.data := rfl
@[simp] theorem setTarget_result : (s.setTarget t).result = s.result := rfl
@[simp] theorem setTarget_inbox : (s.setTarget t).inbox = s.inbox := rfl
@[simp] theorem setTarget_hostData : (s.setTarget t).hostData = s.hostData := rfl
@[simp] theorem setTarget_sent : (s.setTarget t).sent = s.sent := rfl
@[simp] theorem setTarget_levels : (s.setTarget t).levels = s.levels := rfl
@[simp] theorem setTarget_draws : (s.setTarget t).draws = s.draws := rfl
@[simp] theorem setTarget_cleared : (s.setTarget t).cleared = s.cleared := rfl

end setTargetFields

section setDataFields

variable (w : Word) (s : State)

@[simp] theorem setData_clk : (s.setData w).clk = s.clk := rfl
@[simp] theorem setData_oe : (s.setData w).oe = s.oe := rfl
@[simp] theorem setData_dout : (s.setData w).dout = s.dout := rfl
@[simp] theorem setData_session : (s.setData w).session = s.session := rfl
@[simp] theorem setData_coreId : (s.setData w).coreId = s.coreId := rfl
@[simp] theorem setData_lastStatus : (s.setData w).lastStatus = s.lastStatus := rfl
@[simp] theorem setData_mode : (s.setData w).mode = s.mode := rfl
@[simp] theorem setData_trace : (s.setData w).trace = s.trace := rfl
@[simp] theorem setData_target : (s.setData w).target = s.target := rfl
@[simp] theorem setData_params : (s.setData w).params = s.params := rfl
@[simp] theorem setData_data : (s.setData w).data = w := rfl
@[simp] theorem setData_result : (s.setData w).result = s.result := rfl
@[simp] theorem setData_inbox : (s.setData w).inbox = s.inbox := rfl
@[simp] theorem setData_hostData : (s.setData w).hostData = s.hostData := rfl
@[simp] theorem setData_sent : (s.setData w).sent = s.sent := rfl
@[simp] theorem setData_levels : (s.setData w).levels = s.levels := rfl
@[simp] theorem setData_draws : (s.setData w).draws = s.draws := rfl
@[simp] theorem setData_cleared : (s.setData w).cleared = s.cleared := rfl

end setDataFields

section setResultFields

variable (r : OpResult) (s : State)

@[simp] theorem setResult_clk : (s.setResult r).clk = s.clk := rfl
@[simp] theorem setResult_oe : (s.setResult r).oe = s.oe := rfl
@[simp] theorem setResult_dout : (s.setResult r).dout = s.dout := rfl
@[simp] theorem setResult_session : (s.setResult r).session = s.session := rfl
@[simp] theorem setResult_coreId : (s.setResult r).coreId = s.coreId := rfl
@[simp] theorem setResult_lastStatus : (s.setResult r).lastStatus = s.lastStatus := rfl
@[simp] theorem setResult_mode : (s.setResult r).mode = s.mode := rfl
@[simp] theorem setResult_trace : (s.setResult r).trace = s.trace := rfl
@[simp] theorem setResult_target : (s.setResult r).target = s.target := rfl
@[simp] theorem setResult_params : (s.setResult r).params = s.params := rfl
@[simp] theorem setResult_data : (s.setResult r).data = s.data := rfl
@[simp] theorem setResult_result : (s.setResult r).result = r := rfl
@[simp] theorem setResult_inbox : (s.setResult r).inbox = s.inbox := rfl
@[simp] theorem setResult_hostData : (s.setResult r).hostData = s.hostData := rfl
@[simp] theorem setResult_sent : (s.setResult r).sent = s.sent := rfl
@[simp] theorem setResult_levels : (s.setResult r).levels = s.levels := rfl
@[simp] theorem setResult_draws : (s.setResult r).draws = s.draws := rfl
@[simp] theorem setResult_cleared : (s.setResult r).cleared = s.cleared := rfl

end setResultFields

section setInboxFields

variable (q : List Request) (s : State)

@[simp] theorem setInbox_clk : (s.setInbox q).clk = s.clk := rfl
@[simp] theorem setInbox_oe : (s.setInbox q).oe = s.oe := rfl
@[simp] theorem setInbox_dout : (s.setInbox q).dout = s.dout := rfl
@[simp] theorem setInbox_session : (s.setInbox q).session = s.session := rfl
@[simp] theorem setInbox_coreId : (s.setInbox q).coreId = s.coreId := rfl
@[simp] theorem setInbox_lastStatus : (s.setInbox q).lastStatus = s.lastStatus := rfl
@[simp] theorem setInbox_mode : (s.setInbox q).mode = s.mode := rfl
@[simp] theorem setInbox_trace : (s.setInbox q).trace = s.trace := rfl
@[simp] theorem setInbox_target : (s.setInbox q).target = s.target := rfl
@[simp] theorem setInbox_params : (s.setInbox q).params = s.params := rfl
@[simp] theorem setInbox_data : (s.setInbox q).data = s.data := rfl
@[simp] theorem setInbox_result : (s.setInbox q).result = s.result := rfl
@[simp] theorem setInbox_inbox : (s.setInbox q).inbox = q := rfl
@[simp] theorem setInbox_hostData : (s.setInbox q).hostData = s.hostData := rfl
@[simp] theorem setInbox_sent : (s.setInbox q).sent = s.sent := rfl
@[simp] theorem setInbox_levels : (s.setInbox q).levels = s.levels := rfl
@[simp] theorem setInbox_draws : (s.setInbox q).draws = s.draws := rfl
@[simp] theorem setInbox_cleared : (s.setInbox q).cleared = s.cleared := rfl

end setInboxFields

section setDrawsFields

variable (n : Nat) (s : State)

@[simp] theorem setDraws_clk : (s.setDraws n).clk = s.clk := rfl
@[simp] theorem setDraws_oe : (s.setDraws n).oe = s.oe := rfl
@[simp] theorem setDraws_dout : (s.setDraws n).dout = s.dout := rfl
@[simp] theorem setDraws_session : (s.setDraws n).session = s.session := rfl
@[simp] theorem setDraws_coreId : (s.setDraws n).coreId = s.coreId := rfl
@[simp] theorem setDraws_lastStatus : (s.setDraws n).lastStatus = s.lastStatus := rfl
@[simp] theorem setDraws_mode : (s.setDraws n).mode = s.mode := rfl
@[simp] theorem setDraws_trace : (s.setDraws n).trace = s.trace := rfl
@[simp] theorem setDraws_target : (s.setDraws n).target = s.target := rfl
@[simp] theorem setDraws_params : (s.setDraws n).params = s.params := rfl
@[simp] theorem setDraws_data : (s.setDraws n).data = s.data := rfl
@[simp] theorem setDraws_result : (s.setDraws n).result = s.result := rfl
@[simp] theorem setDraws_inbox : (s.setDraws n).inbox = s.inbox := rfl
@[simp] theorem setDraws_hostData : (s.setDraws n).hostData = s.hostData := rfl
@[simp] theorem setDraws_sent : (s.setDraws n).sent = s.sent := rfl
@[simp] theorem setDraws_levels : (s.setDraws n).levels = s.levels := rfl
@[simp] theorem setDraws_draws : (s.setDraws n).draws = n := rfl
@[simp] theorem setDraws_cleared : (s.setDraws n).cleared = s.cleared := rfl

end setDrawsFields

section setClearedFields

variable (n : Nat) (s : State)

@[simp] theorem setCleared_clk : (s.setCleared n).clk = s.clk := rfl
@[simp] theorem setCleared_oe : (s.setCleared n).oe = s.oe := rfl
@[simp] theorem setCleared_dout : (s.setCleared n).dout = s.dout := rfl
@[simp] theorem setCleared_session : (s.setCleared n).session = s.session := rfl
@[simp] theorem setCleared_coreId : (s.setCleared n).coreId = s.coreId := rfl
@[simp] theorem setCleared_lastStatus : (s.setCleared n).lastStatus = s.lastStatus := rfl
@[simp] theorem setCleared_mode : (s.setCleared n).mode = s.mode := rfl
@[simp] theorem setCleared_trace : (s.setCleared n).trace = s.trace := rfl
@[simp] theorem setCleared_target : (s.setCleared n).target = s.target := rfl
@[simp] theorem setCleared_params : (s.setCleared n).params = s.params := rfl
@[simp] theorem setCleared_data : (s.setCleared n).data = s.data := rfl
@[simp] theorem setCleared_result : (s.setCleared n).result = s.result := rfl
@[simp] theorem setCleared_inbox : (s.setCleared n).inbox = s.inbox := rfl
@[simp] theorem setCleared_hostData : (s.setCleared n).hostData = s.hostData := rfl
@[simp] theorem setCleared_sent : (s.setCleared n).sent = s.sent := rfl
@[simp] theorem setCleared_levels : (s.setCleared n).levels = s.levels := rfl
@[simp] theorem setCleared_draws : (s.setCleared n).draws = s.draws := rfl
@[simp] theorem setCleared_cleared : (s.setCleared n).cleared = n := rfl

end setClearedFields

section transmitFields

variable (buf : List Byte) (s : State)

@[simp] theorem transmit_clk : (s.transmit buf).clk = s.clk := rfl
@[simp] theorem transmit_oe : (s.transmit buf).oe = s.oe := rfl
@[simp] theorem transmit_dout : (s.transmit buf).dout = s.dout := rfl
@[simp] theorem transmit_session : (s.transmit buf).session = s.session := rfl
@[simp] theorem transmit_coreId : (s.transmit buf).coreId = s.coreId := rfl
@[simp] theorem transmit_lastStatus : (s.transmit buf).lastStatus = s.lastStatus := rfl
@[simp] theorem transmit_mode : (s.transmit buf).mode = s.mode := rfl
@[simp] theorem transmit_trace : (s.transmit buf).trace = s.trace := rfl
@[simp] theorem transmit_target : (s.transmit buf).target = s.target := rfl
@[simp] theorem transmit_params : (s.transmit buf).params = s.params := rfl
@[simp] theorem transmit_data : (s.transmit buf).data = s.data := rfl
@[simp] theorem transmit_result : (s.transmit buf).result = s.result := rfl
@[simp] theorem transmit_inbox : (s.transmit buf).inbox = s.inbox := rfl
@[simp] theorem transmit_hostData : (s.transmit buf).hostData = s.hostData := rfl
@[simp] theorem transmit_sent : (s.transmit buf).sent = s.sent ++ [buf] := rfl
@[simp] theorem transmit_levels : (s.transmit buf).levels = s.levels := rfl
@[simp] theorem transmit_draws : (s.transmit buf).draws = s.draws := rfl
@[simp] theorem transmit_cleared : (s.transmit buf).cleared = s.cleared := rfl

end transmitFields

end Sys2Proof.Laws
end

