-- ==== Sys2Proof/Laws/Store.lean ====
section
/-! SUPPORT. Sparse stores and the target's memory: every operation keeps the canonical form, a read after a write of the
same key gives the value written, every other key reads as before. -/

namespace Sys2Proof.Laws

open Sys2Proof Sys2Proof.Machine

variable {β : Type} [DecidableEq β]

/-! ## Sparse stores -/

omit [DecidableEq β] in
theorem sparseGet_of_all_gt {dflt : β} {m : List (Nat × β)} {k : Nat} (h : ∀ c ∈ m, k < c.1) :
    sparseGet dflt m k = dflt := by
  induction m with
  | nil => rfl
  | cons c m ih =>
    have hc := h c (by simp)
    have : c.1 ≠ k := by omega
    simp [sparseGet, this, ih fun d hd => h d (by simp [hd])]

/-- A key of the store after a write is the written key or a key of the store before. -/
theorem mem_sparseSet {dflt : β} {m : List (Nat × β)} {k : Nat} {v : β} {c : Nat × β}
    (h : c ∈ sparseSet dflt m k v) : (c = (k, v) ∧ v ≠ dflt) ∨ c ∈ m := by
  induction m with
  | nil =>
    unfold sparseSet at h
    split at h <;> simp_all
  | cons d m ih =>
    unfold sparseSet at h
    (repeat' split at h)
    · exact .inr h
    · rcases List.mem_cons.1 h with h | h
      · exact .inl ⟨h, ‹_›⟩
      · exact .inr h
    · exact .inr (List.mem_cons_of_mem _ h)
    · rcases List.mem_cons.1 h with h | h
      · exact .inl ⟨h, ‹_›⟩
      · exact .inr (List.mem_cons_of_mem _ h)
    · rcases List.mem_cons.1 h with h | h
      · exact .inr (List.mem_cons.2 (.inl h))
      · exact (ih h).imp_right (List.mem_cons_of_mem _)

theorem sparseSet_wf {dflt : β} {m : List (Nat × β)} (h : SparseWf dflt m) (k : Nat) (v : β) :
    SparseWf dflt (sparseSet dflt m k v) := by
  refine ⟨?_, ?_⟩
  · have hs := h.1
    clear h
    induction m with
    | nil => unfold sparseSet; split <;> simp
    | cons d m ih =>
      rw [List.pairwise_cons] at hs
      unfold sparseSet
      split
      · split
        · exact List.pairwise_cons.2 hs
        · refine List.pairwise_cons.2 ⟨?_, List.pairwise_cons.2 hs⟩
          intro c hc
          rcases List.mem_cons.1 hc with rfl | hc
          · assumption
          · have := hs.1 c hc; simp_all; omega
      · split
        · split
          · exact hs.2
          · refine List.pairwise_cons.2 ⟨?_, hs.2⟩
            intro c hc
            have := hs.1 c hc
            simp_all
        · refine List.pairwise_cons.2 ⟨?_, ih hs.2⟩
          intro c hc
          rcases mem_sparseSet hc with ⟨rfl, -⟩ | hc
          · simp_all; omega
          · exact hs.1 c hc
  · intro c hc
    rcases mem_sparseSet hc with ⟨rfl, hv⟩ | hc
    · exact hv
    · exact h.2 c hc

theorem sparseGet_sparseSet_self {dflt : β} {m : List (Nat × β)} (h : SparseWf dflt m) (k : Nat) (v : β) :
    sparseGet dflt (sparseSet dflt m k v) k = v := by
  have hs := h.1
  clear h
  induction m with
  | nil => unfold sparseSet; split <;> simp_all [sparseGet]
  | cons d m ih =>
    rw [List.pairwise_cons] at hs
    unfold sparseSet
    split
    · split
      · rename_i hlt hv
        rw [hv]
        apply sparseGet_of_all_gt
        intro c hc
        rcases List.mem_cons.1 hc with rfl | hc
        · exact hlt
        · have := hs.1 c hc; simp_all; omega
      · simp [sparseGet]
    · split
      · split
        · rename_i hk hv
          rw [hv]
          apply sparseGet_of_all_gt
          intro c hc
          have := hs.1 c hc
          simp_all
        · simp [sparseGet]
      · rename_i h1 h2
        have : d.1 ≠ k := fun e => h2 e.symm
        simp [sparseGet, this, ih hs.2]

theorem sparseGet_sparseSet_ne {dflt : β} {m : List (Nat × β)} {k j : Nat} (v : β) (hjk : j ≠ k) :
    sparseGet dflt (sparseSet dflt m k v) j = sparseGet dflt m j := by
  induction m with
  | nil => unfold sparseSet; split <;> simp [sparseGet, hjk.symm]
  | cons d m ih =>
    unfold sparseSet
    split
    · split
      · rfl
      · simp [sparseGet, hjk.symm]
    · split
      · rename_i hk
        have : d.1 ≠ j := by omega
        split <;> simp [sparseGet, this, hjk.symm]
      · simp [sparseGet, ih]

theorem sparseGet_sparseSet {dflt : β} {m : List (Nat × β)} (h : SparseWf dflt m) (k j : Nat) (v : β) :
    sparseGet dflt (sparseSet dflt m k v) j = if j = k then v else sparseGet dflt m j := by
  split
  · subst j; exact sparseGet_sparseSet_self h k v
  · exact sparseGet_sparseSet_ne v ‹_›

/-! ## Addresses of one word -/

theorem alignWord_toNat (a : Word) : (alignWord a).toNat = a.toNat / 4 * 4 := by
  have : alignWord a = (a >>> 2) <<< 2 := by
    unfold alignWord
    apply BitVec.eq_of_getLsbD_eq
    intro k hk
    have h3 : (3 : BitVec 32).getLsbD k = decide (k < 2) := by
      have : ∀ k < 32, (3 : BitVec 32).getLsbD k = decide (k < 2) := by decide
      exact this k hk
    rw [BitVec.getLsbD_and, BitVec.getLsbD_not, h3]
    rw [BitVec.getLsbD_shiftLeft, BitVec.getLsbD_ushiftRight]
    by_cases h : k < 2
    · simp [h]
    · have e : 2 + (k - 2) = k := by omega
      simp [h, hk, e]
  rw [this]
  simp [BitVec.toNat_shiftLeft, BitVec.toNat_ushiftRight, Nat.shiftRight_eq_div_pow, Nat.shiftLeft_eq]
  have := a.isLt
  omega

theorem alignWord_add_toNat (a : Word) (j : Nat) (hj : j < 4) :
    (alignWord a + BitVec.ofNat 32 j).toNat = a.toNat / 4 * 4 + j := by
  have := a.isLt
  rw [BitVec.toNat_add, alignWord_toNat, BitVec.toNat_ofNat]
  omega

/-- A byte address is its aligned word and its lane. -/
theorem eq_alignWord_add (a : Word) : a = alignWord a + BitVec.ofNat 32 (a.toNat % 4) := by
  apply BitVec.eq_of_toNat_eq
  rw [alignWord_add_toNat a _ (Nat.mod_lt _ (by omega))]
  omega

theorem alignWord_of_aligned {a : Word} (h : a.toNat % 4 = 0) : alignWord a = a := by
  apply BitVec.eq_of_toNat_eq
  rw [alignWord_toNat]
  omega

theorem alignWord_alignWord (a : Word) : alignWord (alignWord a) = alignWord a :=
  alignWord_of_aligned (by rw [alignWord_toNat]; omega)

/-! ## The target's memory -/

theorem writeByte_wf {m : List Host.Cell} (h : Memory.wf m) (a : Word) (v : Byte) : Memory.wf (Memory.writeByte m a v) := by
  refine ⟨sparseSet_wf h.1 _ _, ?_⟩
  intro c hc
  rcases mem_sparseSet hc with ⟨rfl, -⟩ | hc
  · exact a.isLt
  · exact h.2 c hc

theorem writeWord_wf {m : List Host.Cell} (h : Memory.wf m) (a w : Word) : Memory.wf (Memory.writeWord m a w) :=
  writeByte_wf (writeByte_wf (writeByte_wf (writeByte_wf h _ _) _ _) _ _) _ _

theorem writeLane_wf {m : List Host.Cell} (h : Memory.wf m) (a w : Word) : Memory.wf (Memory.writeLane m a w) :=
  writeByte_wf h _ _

theorem writeHalf_wf {m : List Host.Cell} (h : Memory.wf m) (a w : Word) : Memory.wf (Memory.writeHalf m a w) :=
  writeByte_wf (writeByte_wf h _ _) _ _

theorem reset_memory_wf : Memory.wf State.reset.target.mem := by decide

theorem readByte_writeByte {m : List Host.Cell} (h : Memory.wf m) (a b : Word) (v : Byte) :
    Memory.readByte (Memory.writeByte m a v) b = if b = a then v else Memory.readByte m b := by
  unfold Memory.readByte Memory.writeByte
  rw [sparseGet_sparseSet h.1]
  simp [BitVec.toNat_inj]

/-- A byte outside the aligned word reads as before. -/
theorem readByte_writeWord_ne {m : List Host.Cell} (h : Memory.wf m) (a b w : Word)
    (hb : alignWord b ≠ alignWord a) : Memory.readByte (Memory.writeWord m a w) b = Memory.readByte m b := by
  have key : ∀ j < 4, b ≠ alignWord a + BitVec.ofNat 32 j := by
    intro j hj e
    apply hb
    apply BitVec.eq_of_toNat_eq
    rw [alignWord_toNat, alignWord_toNat, e, alignWord_add_toNat a j hj]
    omega
  have k0 : b ≠ alignWord a := by simpa using key 0 (by omega)
  have k1 : b ≠ alignWord a + 1 := key 1 (by omega)
  have k2 : b ≠ alignWord a + 2 := key 2 (by omega)
  have k3 : b ≠ alignWord a + 3 := key 3 (by omega)
  have w1 := writeByte_wf h (alignWord a) (w.extractLsb' 0 8)
  have w2 := writeByte_wf w1 (alignWord a + 1) (w.extractLsb' 8 8)
  have w3 := writeByte_wf w2 (alignWord a + 2) (w.extractLsb' 16 8)
  unfold Memory.writeWord
  rw [readByte_writeByte w3, if_neg k3, readByte_writeByte w2, if_neg k2, readByte_writeByte w1, if_neg k1,
    readByte_writeByte h, if_neg k0]

/-- A byte inside the aligned word reads as its lane of the word written (20_memory R92). -/
theorem readByte_writeWord {m : List Host.Cell} (h : Memory.wf m) (a w : Word) (j : Nat) (hj : j < 4) :
    Memory.readByte (Memory.writeWord m a w) (alignWord a + BitVec.ofNat 32 j) = w.extractLsb' (8 * j) 8 := by
  have w1 := writeByte_wf h (alignWord a) (w.extractLsb' 0 8)
  have w2 := writeByte_wf w1 (alignWord a + 1) (w.extractLsb' 8 8)
  have w3 := writeByte_wf w2 (alignWord a + 2) (w.extractLsb' 16 8)
  have ne : ∀ i < 4, ∀ k < 4, i ≠ k → alignWord a + BitVec.ofNat 32 i ≠ alignWord a + BitVec.ofNat 32 k := by
    intro i hi k hk hik e
    have := congrArg BitVec.toNat e
    rw [alignWord_add_toNat a i hi, alignWord_add_toNat a k hk] at this
    omega
  unfold Memory.writeWord
  rw [readByte_writeByte w3, readByte_writeByte w2, readByte_writeByte w1, readByte_writeByte h]
  show (if _ = alignWord a + 3#32 then _ else if _ = alignWord a + 2#32 then _ else if _ = alignWord a + 1#32 then _
    else if _ = alignWord a then _ else _) = _
  have c : j = 0 ∨ j = 1 ∨ j = 2 ∨ j = 3 := by omega
  rcases c with rfl | rfl | rfl | rfl
  · rw [if_neg (ne 0 (by omega) 3 (by omega) (by omega)), if_neg (ne 0 (by omega) 2 (by omega) (by omega)),
      if_neg (ne 0 (by omega) 1 (by omega) (by omega)), if_pos (by simp)]
  · rw [if_neg (ne 1 (by omega) 3 (by omega) (by omega)), if_neg (ne 1 (by omega) 2 (by omega) (by omega)), if_pos rfl]
  · rw [if_neg (ne 2 (by omega) 3 (by omega) (by omega)), if_pos rfl]
  · rw [if_pos rfl]

/-- A word read after a word write of the same aligned address (20_memory R92, R93). -/
theorem readWord_writeWord_self {m : List Host.Cell} (h : Memory.wf m) (a w : Word) :
    Memory.readWord (Memory.writeWord m a w) a = w := by
  have h0 : Memory.readByte (Memory.writeWord m a w) (alignWord a) = w.extractLsb' 0 8 := by
    simpa using readByte_writeWord h a w 0 (by omega)
  have h1 : Memory.readByte (Memory.writeWord m a w) (alignWord a + 1) = w.extractLsb' 8 8 :=
    readByte_writeWord h a w 1 (by omega)
  have h2 : Memory.readByte (Memory.writeWord m a w) (alignWord a + 2) = w.extractLsb' 16 8 :=
    readByte_writeWord h a w 2 (by omega)
  have h3 : Memory.readByte (Memory.writeWord m a w) (alignWord a + 3) = w.extractLsb' 24 8 :=
    readByte_writeWord h a w 3 (by omega)
  unfold Memory.readWord
  simp only [h0, h1, h2, h3]
  exact bytesWord_wordBytes w

/-- A word read at another aligned address is what it was. -/
theorem readWord_writeWord_ne {m : List Host.Cell} (h : Memory.wf m) (a b w : Word) (hb : alignWord b ≠ alignWord a) :
    Memory.readWord (Memory.writeWord m a w) b = Memory.readWord m b := by
  have key : ∀ j < 4, Memory.readByte (Memory.writeWord m a w) (alignWord b + BitVec.ofNat 32 j)
      = Memory.readByte m (alignWord b + BitVec.ofNat 32 j) := by
    intro j hj
    apply readByte_writeWord_ne h
    intro e
    apply hb
    rw [← e]
    apply BitVec.eq_of_toNat_eq
    rw [alignWord_toNat, alignWord_toNat, alignWord_add_toNat b j hj]
    omega
  have h0 : Memory.readByte (Memory.writeWord m a w) (alignWord b) = Memory.readByte m (alignWord b) := by
    simpa using key 0 (by omega)
  have h1 : Memory.readByte (Memory.writeWord m a w) (alignWord b + 1) = Memory.readByte m (alignWord b + 1) :=
    key 1 (by omega)
  have h2 : Memory.readByte (Memory.writeWord m a w) (alignWord b + 2) = Memory.readByte m (alignWord b + 2) :=
    key 2 (by omega)
  have h3 : Memory.readByte (Memory.writeWord m a w) (alignWord b + 3) = Memory.readByte m (alignWord b + 3) :=
    key 3 (by omega)
  unfold Memory.readWord
  simp only [h0, h1, h2, h3]

/-- A byte written in its lane reads back, every other byte is what it was (20_memory R92). -/
theorem readByte_writeLane {m : List Host.Cell} (h : Memory.wf m) (a b w : Word) :
    Memory.readByte (Memory.writeLane m a w) b = if b = a then laneByte a w else Memory.readByte m b :=
  readByte_writeByte h a b _

/-- The lane of the bus word of a byte read is the byte (20_memory R93). -/
theorem laneByte_readLane (m : List Host.Cell) (a fresh : Word) :
    laneByte a (Memory.readLane m a fresh) = Memory.readByte m a := by
  have h : a.toNat % 4 < 4 := Nat.mod_lt _ (by omega)
  unfold Memory.readLane laneByte laneWord laneShift
  apply BitVec.eq_of_getLsbD_eq
  intro k hk
  have h1 : a.toNat % 4 * 8 + k < 32 := by omega
  have h2 : k < 32 := by omega
  have hff : (BitVec.setWidth 32 (0xFF : Byte)).getLsbD k = true := by
    have : ∀ k < 8, (BitVec.setWidth 32 (0xFF : Byte)).getLsbD k = true := by decide
    exact this k hk
  have hk' : ¬ a.toNat % 4 * 8 + k < a.toNat % 4 * 8 := by omega
  have e : a.toNat % 4 * 8 + k - a.toNat % 4 * 8 = k := by omega
  rw [BitVec.getLsbD_setWidth, BitVec.getLsbD_ushiftRight, BitVec.getLsbD_or, BitVec.getLsbD_and, BitVec.getLsbD_not,
    BitVec.getLsbD_shiftLeft, BitVec.getLsbD_shiftLeft, e, hff]
  simp [hk, h1, h2]

end Sys2Proof.Laws
end

