-- ==== Sys2Proof/Laws/Triple.lean ====
section
/-! SUPPORT. How the operation monads run, and two ways to say what an operation does: `Runs x s Q` (it ends, with a result
and a state that meet `Q`) and `Ends x s Q` (if it ends, they meet `Q`). -/

namespace Sys2Proof.Laws

open Sys2Proof Sys2Proof.Machine

/-! ## The Op monad -/

@[simp] theorem op_pure {α : Type} (a : α) (s : State) : (pure a : Op α) s = .ok (a, s) := rfl
@[simp] theorem op_get (s : State) : (get : Op State) s = .ok (s, s) := rfl
@[simp] theorem op_set (s t : State) : (set t : Op PUnit) s = .ok (⟨⟩, t) := rfl
@[simp] theorem op_modify (f : State → State) (s : State) : (modify f : Op PUnit) s = .ok (⟨⟩, f s) := rfl
@[simp] theorem op_raise {α : Type} (f : Fault) (s : State) : (raise f : Op α) s = .error f := rfl
@[simp] theorem op_delay (t : Nat) (s : State) : delay t s = .ok ((), s) := rfl
@[simp] theorem op_yieldCore (s : State) : yieldCore s = .ok ((), s) := rfl

theorem op_bind {α β : Type} (x : Op α) (f : α → Op β) (s : State) :
    (x >>= f) s = match x s with
      | .ok (a, s') => f a s'
      | .error e => .error e := by
  show (x s).bind _ = _
  cases x s <;> rfl

/-- A first part that ends hands its result and its state to the second. -/
theorem op_bind_ok {α β : Type} {x : Op α} {s s' : State} {a : α} (h : x s = .ok (a, s')) (f : α → Op β) :
    (x >>= f) s = f a s' := by
  rw [op_bind, h]

/-- A first part that stops in a fault stops the whole. -/
theorem op_bind_error {α β : Type} {x : Op α} {s : State} {e : Fault} (h : x s = .error e) (f : α → Op β) :
    (x >>= f) s = .error e := by
  rw [op_bind, h]

/-- A sequence ends exactly when both parts do. -/
theorem op_bind_eq_ok {α β : Type} {x : Op α} {f : α → Op β} {s : State} {r : β × State} :
    (x >>= f) s = .ok r ↔ ∃ a s', x s = .ok (a, s') ∧ f a s' = .ok r := by
  rw [op_bind]
  cases h : x s with
  | error e => simp
  | ok p => obtain ⟨a, s'⟩ := p; simp

/-! ## Total statements -/

/-- `x` run at `s` ends, and what it ends with meets `Q`. -/
def Runs {α : Type} (x : Op α) (s : State) (Q : α → State → Prop) : Prop :=
  ∃ a s', x s = .ok (a, s') ∧ Q a s'

theorem Runs.mono {α : Type} {x : Op α} {s : State} {Q R : α → State → Prop} (h : Runs x s Q)
    (hqr : ∀ a s', Q a s' → R a s') : Runs x s R := by
  obtain ⟨a, s', hx, hq⟩ := h
  exact ⟨a, s', hx, hqr a s' hq⟩

@[simp] theorem runs_pure {α : Type} (a : α) (s : State) (Q : α → State → Prop) : Runs (pure a) s Q ↔ Q a s := by
  simp [Runs]

@[simp] theorem runs_get (s : State) (Q : State → State → Prop) : Runs get s Q ↔ Q s s := by
  simp [Runs]

@[simp] theorem runs_set (s t : State) (Q : PUnit → State → Prop) : Runs (set t) s Q ↔ Q ⟨⟩ t := by
  simp [Runs]
  exact ⟨fun ⟨_, h⟩ => h, fun h => ⟨_, h⟩⟩

@[simp] theorem runs_modify (f : State → State) (s : State) (Q : PUnit → State → Prop) :
    Runs (modify f) s Q ↔ Q ⟨⟩ (f s) := by
  simp [Runs]
  exact ⟨fun ⟨_, h⟩ => h, fun h => ⟨_, h⟩⟩

@[simp] theorem runs_raise {α : Type} (f : Fault) (s : State) (Q : α → State → Prop) : ¬ Runs (raise f) s Q := by
  simp [Runs]

@[simp] theorem runs_bind {α β : Type} (x : Op α) (f : α → Op β) (s : State) (Q : β → State → Prop) :
    Runs (x >>= f) s Q ↔ Runs x s fun a s' => Runs (f a) s' Q := by
  constructor
  · rintro ⟨b, t, h, hq⟩
    obtain ⟨a, s', hx, hf⟩ := op_bind_eq_ok.1 h
    exact ⟨a, s', hx, b, t, hf, hq⟩
  · rintro ⟨a, s', hx, b, t, hf, hq⟩
    exact ⟨b, t, op_bind_eq_ok.2 ⟨a, s', hx, hf⟩, hq⟩

theorem Runs.bind {α β : Type} {x : Op α} {f : α → Op β} {s : State} {P : α → State → Prop} {Q : β → State → Prop}
    (h : Runs x s P) (hf : ∀ a s', P a s' → Runs (f a) s' Q) : Runs (x >>= f) s Q :=
  (runs_bind x f s Q).2 (h.mono hf)

/-! ## Partial statements -/

/-- If `x` run at `s` ends, what it ends with meets `Q`. -/
def Ends {α : Type} (x : Op α) (s : State) (Q : α → State → Prop) : Prop :=
  ∀ a s', x s = .ok (a, s') → Q a s'

theorem Ends.mono {α : Type} {x : Op α} {s : State} {Q R : α → State → Prop} (h : Ends x s Q)
    (hqr : ∀ a s', Q a s' → R a s') : Ends x s R :=
  fun a s' hx => hqr a s' (h a s' hx)

theorem Runs.ends {α : Type} {x : Op α} {s : State} {Q : α → State → Prop} (h : Runs x s Q) : Ends x s Q := by
  obtain ⟨a, s', hx, hq⟩ := h
  intro b t hb
  rw [hx] at hb
  cases hb
  exact hq

@[simp] theorem ends_pure {α : Type} (a : α) (s : State) (Q : α → State → Prop) : Ends (pure a) s Q ↔ Q a s := by
  simp [Ends]

@[simp] theorem ends_get (s : State) (Q : State → State → Prop) : Ends get s Q ↔ Q s s := by
  simp [Ends]

@[simp] theorem ends_set (s t : State) (Q : PUnit → State → Prop) : Ends (set t) s Q ↔ Q ⟨⟩ t := by
  simp [Ends]
  exact ⟨fun h => h ⟨⟩, fun h _ => h⟩

@[simp] theorem ends_modify (f : State → State) (s : State) (Q : PUnit → State → Prop) :
    Ends (modify f) s Q ↔ Q ⟨⟩ (f s) := by
  simp [Ends]
  exact ⟨fun h => h ⟨⟩, fun h _ => h⟩

@[simp] theorem ends_raise {α : Type} (f : Fault) (s : State) (Q : α → State → Prop) : Ends (raise f) s Q := by
  simp [Ends]

@[simp] theorem ends_bind {α β : Type} (x : Op α) (f : α → Op β) (s : State) (Q : β → State → Prop) :
    Ends (x >>= f) s Q ↔ Ends x s fun a s' => Ends (f a) s' Q := by
  constructor
  · intro h a s' hx b t hf
    exact h b t (op_bind_eq_ok.2 ⟨a, s', hx, hf⟩)
  · intro h b t hb
    obtain ⟨a, s', hx, hf⟩ := op_bind_eq_ok.1 hb
    exact h a s' hx b t hf

theorem Ends.bind {α β : Type} {x : Op α} {f : α → Op β} {s : State} {P : α → State → Prop} {Q : β → State → Prop}
    (h : Ends x s P) (hf : ∀ a s', P a s' → Ends (f a) s' Q) : Ends (x >>= f) s Q :=
  (ends_bind x f s Q).2 (h.mono hf)

/-! ## Multi-step operations -/

@[simp] theorem steps_pure_run {α : Type} (a : α) : (pure a : Steps α).run = (pure (.ok a) : Op (Except Code α)) := rfl

@[simp] theorem steps_throw_run {α : Type} (c : Code) :
    (throw c : Steps α).run = (pure (.error c) : Op (Except Code α)) := rfl

@[simp] theorem steps_lift_run {α : Type} (x : Op α) :
    (liftM x : Steps α).run = (x >>= fun a => pure (.ok a) : Op (Except Code α)) := rfl

/-- A step that ends with a code ends the whole with it (42_error_recovery R233). -/
theorem steps_bind_run {α β : Type} (x : Steps α) (f : α → Steps β) :
    (x >>= f).run = (x.run >>= fun r => match r with
      | .ok a => (f a).run
      | .error c => pure (.error c) : Op (Except Code β)) := by
  rw [ExceptT.run_bind]
  congr 1
  funext r
  cases r <;> rfl

@[simp] theorem steps_check_ok : (Steps.check .ok).run = (pure (.ok ()) : Op (Except Code Unit)) := rfl

theorem steps_check_run (c : Code) :
    (Steps.check c).run = (pure (if c = .ok then .ok () else .error c) : Op (Except Code Unit)) := by
  cases c <;> rfl

/-- The code of a multi-step operation that ran to its end, or that a code ended. -/
theorem steps_code_eq (x : Steps Unit) :
    x.code = (x.run >>= fun r => pure (match r with
      | .ok _ => .ok
      | .error c => c) : Op Code) := by
  unfold Steps.code
  congr 1
  funext r
  cases r <;> rfl

end Sys2Proof.Laws
end

