-- ==== Sys2Proof/Laws/Phy.lean ====
section
/-! SUPPORT. What runs of bit cells and the four PHY operations do, said once (40_phy R160-R168, 10_state R37). -/

namespace Sys2Proof.Laws

open Sys2Proof Sys2Proof.Machine

/-! ## Out-cells -/

/-- A run of out-cells: the last bit stays on the line, one record for each (40_phy R164). -/
theorem outCells_eq (bs : List Bool) (s : State) :
    State.outCells bs s = { s with
      clk := if bs = [] then s.clk else true
      dout := bs.getLastD s.dout
      trace := s.trace ++ bs.map WireCell.driven } := by
  induction bs generalizing s with
  | nil => simp [State.outCells]
  | cons b bs ih =>
    rw [State.outCells, ih]
    rw [List.getLastD_cons]
    simp [State.outCell]

/-! ## In-cells -/

theorem withDrive_self {t : Target} {d : List (Option Bool)} (h : t.drive = d) : ({ t with drive := d } : Target) = t := by
  subst h
  rfl

/-- An undriven sample: the next level of the target agent, else a free value. -/
theorem drawLevel_eq (s : State) : ∃ b lv dr, s.drawLevel = (b, { s with levels := lv, draws := dr }) ∧
    ∀ x rest, s.levels = x :: rest → b = x ∧ lv = rest ∧ dr = s.draws := by
  rcases hl : s.levels with _ | ⟨y, rest⟩
  · refine ⟨Config.drawLevel s.draws, s.levels, s.draws + 1, ?_, by simp⟩
    unfold State.drawLevel
    split
    · simp_all
    · rfl
  · refine ⟨y, rest, s.draws, ?_, by simp⟩
    unfold State.drawLevel
    simp only [hl]

/-- One sample: the driven bit when the target drives, else an undriven sample (10_state R37). -/
theorem sample_eq (s : State) : ∃ b lv dr, s.sample = (b, { s with
      target := { s.target with drive := s.target.drive.tail }
      levels := lv
      draws := dr }) ∧
    (∀ x, s.target.drive.head? = some (some x) → b = x ∧ lv = s.levels ∧ dr = s.draws) ∧
    ((s.target.drive.head? = none ∨ s.target.drive.head? = some none) → ∀ x rest, s.levels = x :: rest →
      b = x ∧ lv = rest ∧ dr = s.draws) := by
  rcases hd : s.target.drive with _ | ⟨_ | x, rest⟩
  · obtain ⟨b, lv, dr, he, hl⟩ := drawLevel_eq s
    refine ⟨b, lv, dr, ?_, by simp, fun _ => hl⟩
    rw [List.tail_nil, withDrive_self hd, ← he]
    unfold State.sample
    simp only [hd]
  · obtain ⟨b, lv, dr, he, hl⟩ := drawLevel_eq (s.setTarget { s.target with drive := rest })
    refine ⟨b, lv, dr, ?_, by simp, fun _ => hl⟩
    unfold State.sample
    simp only [hd]
    exact he
  · refine ⟨x, s.levels, s.draws, ?_, by simp, by simp⟩
    unfold State.sample
    simp only [hd]
    rfl

/-- One in-cell: a sample, SWCLK high, one record (40_phy R162). -/
theorem inCell_eq (s : State) : ∃ b lv dr, s.inCell = (b, { s with
      clk := true
      trace := s.trace ++ [WireCell.sampled b]
      target := { s.target with drive := s.target.drive.tail }
      levels := lv
      draws := dr }) ∧
    (∀ x, s.target.drive.head? = some (some x) → b = x ∧ lv = s.levels ∧ dr = s.draws) ∧
    ((s.target.drive.head? = none ∨ s.target.drive.head? = some none) → ∀ x rest, s.levels = x :: rest →
      b = x ∧ lv = rest ∧ dr = s.draws) := by
  obtain ⟨b, lv, dr, he, hx, hl⟩ := sample_eq { s with clk := false }
  refine ⟨b, lv, dr, ?_, hx, hl⟩
  unfold State.inCell
  simp only [he]

/-- `n` in-cells: the trace gains one record for each sampled bit, the levels the target drives are used up, a bit the
target drives is sampled as it is, and while it drives nothing the levels of the target agent come in order. -/
theorem inCells_eq (n : Nat) (s : State) : ∃ bs lv dr, State.inCells n s = (bs, { s with
      clk := if n = 0 then s.clk else true
      trace := s.trace ++ bs.map WireCell.sampled
      target := { s.target with drive := s.target.drive.drop n }
      levels := lv
      draws := dr }) ∧
    bs.length = n ∧
    (∀ k < n, ∀ x, s.target.drive[k]? = some (some x) → bs[k]? = some x) ∧
    (s.target.drive = [] → (∀ k < n, ∀ x, s.levels[k]? = some x → bs[k]? = some x) ∧
      (n ≤ s.levels.length → lv = s.levels.drop n ∧ dr = s.draws)) := by
  induction n generalizing s with
  | zero => exact ⟨[], s.levels, s.draws, by simp [State.inCells], rfl, by simp, by simp⟩
  | succ n ih =>
    obtain ⟨b, lv, dr, he, hx, hl⟩ := inCell_eq s
    obtain ⟨bs, lv', dr', he', hlen, hdrv, hlev⟩ := ih s.inCell.2
    rw [he] at he' hdrv hlev
    refine ⟨b :: bs, lv', dr', ?_, by simp [hlen], ?_, ?_⟩
    · simp only [State.inCells, he, he']
      simp
    · intro k hk x hkx
      cases k with
      | zero =>
        have : s.target.drive.head? = some (some x) := by rw [List.head?_eq_getElem?]; exact hkx
        simp [(hx x this).1]
      | succ k =>
        have := hdrv k (by omega) x (by simpa using hkx)
        simpa using this
    · intro hd
      rcases hs : s.levels with _ | ⟨y, lrest⟩
      · exact ⟨by simp, by simp⟩
      · obtain ⟨rfl, rfl, rfl⟩ := hl (by simp [hd]) y lrest hs
        obtain ⟨h1, h2⟩ := hlev (by simp [hd])
        refine ⟨?_, ?_⟩
        · intro k hk x hkx
          cases k with
          | zero => simpa using hkx
          | succ k => simpa using h1 k (by omega) x (by simpa using hkx)
        · intro hn
          simpa using h2 (by simpa using hn)

/-! ## The PHY operations -/

@[simp] theorem op_setDataLineOutput (s : State) : setDataLineOutput s = .ok ((), s.setOe true) := rfl
@[simp] theorem op_setDataLineInput (s : State) : setDataLineInput s = .ok ((), s.setOe false) := rfl

theorem op_shiftOutBits (v : Word) (n : Nat) (s : State) : shiftOutBits v n s =
    if 32 < n then .error .shiftCountTooLarge
    else if s.oe = false then .error .phyMisuse
    else .ok ((), State.outCells (lsbBits n v) s) := by
  unfold shiftOutBits maxShift
  rw [op_bind_ok (op_get s)]
  split
  · rfl
  · split <;> rfl

/-- A shift out of at most 32 bits on a driven line (40_phy R164). -/
theorem shiftOutBits_ok {v : Word} {n : Nat} {s : State} (hn : n ≤ 32) (ho : s.oe = true) :
    shiftOutBits v n s = .ok ((), State.outCells (lsbBits n v) s) := by
  rw [op_shiftOutBits, if_neg (by omega), if_neg (by simp [ho])]

theorem op_shiftInBits (n : Nat) (s : State) : shiftInBits n s =
    if 32 < n then .error .shiftCountTooLarge
    else if s.oe = true then .error .phyMisuse
    else .ok (assemble (State.inCells n s).1, (State.inCells n s).2) := by
  unfold shiftInBits maxShift
  rw [op_bind_ok (op_get s)]
  split
  · rfl
  · split <;> rfl

/-- A shift in of at most 32 bits on a released line (40_phy R165). -/
theorem shiftInBits_ok {n : Nat} {s : State} (hn : n ≤ 32) (ho : s.oe = false) :
    shiftInBits n s = .ok (assemble (State.inCells n s).1, (State.inCells n s).2) := by
  rw [op_shiftInBits, if_neg (by omega), if_neg (by simp [ho])]

@[simp] theorem op_targetReacts (f : Nat → Target → Target) (s : State) :
    targetReacts f s = .ok ((), (s.setTarget (f s.draws s.target)).setDraws (s.draws + targetDraws)) := rfl

/-! ## Runs of one level (42_error_recovery R224) -/

/-- The out-cells of `k` equal bits. -/
theorem outCells_replicate_add (b : Bool) (j k : Nat) (s : State) :
    State.outCells (List.replicate k b) (State.outCells (List.replicate j b) s) =
      State.outCells (List.replicate (j + k) b) s := by
  induction j generalizing s with
  | zero => simp [State.outCells]
  | succ j ih =>
    rw [List.replicate_succ, State.outCells, ih]
    rw [Nat.add_right_comm, List.replicate_succ, State.outCells]

theorem lsbBits_ones {n : Nat} (hn : n ≤ 32) : lsbBits n 0xFFFFFFFF = List.replicate n true := by
  apply List.ext_getElem (by simp)
  intro k h1 h2
  have hk : k < 32 := by simp at h1; omega
  have : ∀ k < 32, (0xFFFFFFFF : BitVec 32).getLsbD k = true := by decide
  simpa [lsbBits] using this k hk

theorem lsbBits_zeros (n : Nat) : lsbBits n 0 = List.replicate n false := by
  apply List.ext_getElem (by simp)
  intro k h1 h2
  simp [lsbBits]

theorem outCells_oe (bs : List Bool) (s : State) : (State.outCells bs s).oe = s.oe := by
  rw [outCells_eq]

/-- A run of one level is that many out-cells, however it is cut into shifts. -/
theorem sendRunLoop_ok {v : Word} {b : Bool} (hv : ∀ n ≤ 32, lsbBits n v = List.replicate n b) (fuel n : Nat)
    (hn : n ≤ fuel) {s : State} (ho : s.oe = true) :
    sendRunLoop v fuel n s = .ok ((), State.outCells (List.replicate n b) s) := by
  induction fuel generalizing n s with
  | zero =>
    have : n = 0 := by omega
    subst this
    rfl
  | succ fuel ih =>
    unfold sendRunLoop maxShift
    split
    · subst n; rfl
    · have hm : min n 32 ≤ 32 := Nat.min_le_right _ _
      rw [op_bind_ok (shiftOutBits_ok hm ho), hv _ hm, ih _ (by omega) (by rw [outCells_oe]; exact ho),
        outCells_replicate_add]
      congr 4
      omega

theorem sendOnes_ok (n : Nat) {s : State} (ho : s.oe = true) :
    sendOnes n s = .ok ((), State.outCells (List.replicate n true) s) :=
  sendRunLoop_ok (fun _ h => lsbBits_ones h) n n (Nat.le_refl n) ho

theorem sendZeros_ok (n : Nat) {s : State} (ho : s.oe = true) :
    sendZeros n s = .ok ((), State.outCells (List.replicate n false) s) :=
  sendRunLoop_ok (fun n _ => lsbBits_zeros n) n n (Nat.le_refl n) ho

end Sys2Proof.Laws
end

