-- ==== Sys2Proof/Laws/Transaction.lean ====
section
/-! SUPPORT. One transaction, said once (41_transaction R180, R181): what is sampled decides the Ack, the data cell and the
state; then what each kind of target answer makes of it. -/

namespace Sys2Proof.Laws

open Sys2Proof Sys2Proof.Machine

/-! ## Runs of samples -/

/-- `s` after sampling the bits `bs`, with the levels and the draw counter `lv` and `dr` left. -/
def sampledState (bs : List Bool) (lv : List Bool) (dr : Nat) (s : State) : State := { s with
  clk := if bs = [] then s.clk else true
  trace := s.trace ++ bs.map WireCell.sampled
  target := { s.target with drive := s.target.drive.drop bs.length }
  levels := lv
  draws := dr }

/-- `bs` is what sampling `bs.length` bits at `s` gives: a driven bit is sampled as it is, and while nothing is driven the
levels of the target agent come in order. -/
def Sampled (s : State) (bs lv : List Bool) (dr : Nat) : Prop :=
  (∀ k < bs.length, ∀ x, s.target.drive[k]? = some (some x) → bs[k]? = some x) ∧
  (s.target.drive = [] → (∀ k < bs.length, ∀ x, s.levels[k]? = some x → bs[k]? = some x) ∧
    (bs.length ≤ s.levels.length → lv = s.levels.drop bs.length ∧ dr = s.draws))

/-- Undriven samples that the target agent has levels for are those levels. -/
theorem sampled_levels {s : State} {bs lv : List Bool} {dr : Nat} (h : Sampled s bs lv dr) (hd : s.target.drive = [])
    (hl : bs.length ≤ s.levels.length) : bs = s.levels.take bs.length ∧ lv = s.levels.drop bs.length ∧ dr = s.draws := by
  obtain ⟨h1, h2⟩ := h.2 hd
  refine ⟨?_, h2 hl⟩
  apply List.ext_getElem?
  intro k
  by_cases hk : k < bs.length
  · rw [List.getElem?_take_of_lt hk]
    have hk' : k < s.levels.length := by omega
    rw [h1 k hk s.levels[k] (by simp [hk'])]
    simp [hk']
  · rw [List.getElem?_eq_none (by omega), List.getElem?_eq_none (by simp; omega)]

theorem inCells_sampled (n : Nat) (s : State) : ∃ bs lv dr, bs.length = n ∧ Sampled s bs lv dr ∧
    State.inCells n s = (bs, sampledState bs lv dr s) := by
  obtain ⟨bs, lv, dr, he, hlen, hd, hl⟩ := inCells_eq n s
  refine ⟨bs, lv, dr, hlen, ⟨by rw [hlen]; exact hd, by rw [hlen]; exact hl⟩, ?_⟩
  rw [he]
  subst hlen
  simp only [sampledState, List.length_eq_zero_iff]

theorem inCells_oe (n : Nat) (s : State) : (State.inCells n s).2.oe = s.oe := by
  obtain ⟨bs, lv, dr, he, -⟩ := inCells_eq n s
  rw [he]

theorem inCells_add (m n : Nat) (s : State) : State.inCells (m + n) s =
    ((State.inCells m s).1 ++ (State.inCells n (State.inCells m s).2).1,
      (State.inCells n (State.inCells m s).2).2) := by
  induction m generalizing s with
  | zero => simp [State.inCells]
  | succ m ih =>
    rw [Nat.add_right_comm]
    simp only [State.inCells, ih]
    rfl

theorem inCells_length (n : Nat) (s : State) : (State.inCells n s).1.length = n := by
  obtain ⟨bs, lv, dr, he, hlen, -⟩ := inCells_eq n s
  rw [he]
  exact hlen

/-! ## The exchange -/

/-- `s` after the header of `code` has been sent and the line released: the target has prepared its levels. -/
def requested (code : Byte) (s : State) : State :=
  (((State.outCells (lsbBits 8 (code.setWidth 32)) s).setTarget (Target.onRequest s.draws code s.target)).setDraws
    (s.draws + targetDraws)).setOe false

/-- `s` after the data word and its parity bit have been sent and the target has the word. -/
def dataSent (code : Byte) (data : Word) (s : State) : State :=
  ((State.outCells (lsbBits 32 data ++ [parity32 data]) s).setTarget (Target.onData s.draws code data s.target)).setDraws
    (s.draws + targetDraws)

/-- The ACK among the sampled bits: the three bits after the turnaround (40_phy, R135). -/
def ackOf (bs : List Bool) : Ack := classifyAck ((assemble ((bs.drop 1).take 3)).setWidth 3)

/-- The data word among the sampled bits of a read. -/
def wordOf (bs : List Bool) : Word := assemble ((bs.drop 4).take 32)

/-- The parity bit among the sampled bits of a read. -/
def parityOf (bs : List Bool) : Bool := (assemble ((bs.drop 36).take 1)).getLsbD 0

theorem outCells_append (a b : List Bool) (s : State) :
    State.outCells (a ++ b) s = State.outCells b (State.outCells a s) := by
  induction a generalizing s with
  | nil => rfl
  | cons x a ih => exact ih _

theorem outCells_target (bs : List Bool) (s : State) : (State.outCells bs s).target = s.target := by rw [outCells_eq]
theorem outCells_draws (bs : List Bool) (s : State) : (State.outCells bs s).draws = s.draws := by rw [outCells_eq]

/-- The four ways an exchange goes on after the ACK (R180). -/
inductive Phase where
  /-- an OK read -/
  | read
  /-- an OK write -/
  | write
  /-- WAIT or FAULT -/
  | none
  /-- any other ACK -/
  | discarded
  deriving DecidableEq, Repr

/-- Which way an exchange goes (R180). -/
def phaseOf (code : Byte) : Ack → Phase
  | .ok => if isRead code then .read else .write
  | .wait => .none
  | .fault => .none
  | _ => .discarded

/-- How many bits the core samples in an exchange (41_transaction R182). -/
def Phase.samples : Phase → Nat
  | .read => 38
  | .write => 5
  | .none => 5
  | .discarded => 38

/-- The state an exchange ends in. -/
def Phase.final (code : Byte) (data : Word) (s : State) : Phase → State
  | .write => dataSent code data (s.setOe true)
  | _ => s.setOe true

/-- The Ack and the data cell an exchange ends with (R181). -/
def Phase.answer (data : Word) (bs : List Bool) : Phase → Ack × Word
  | .read => (if parityOf bs = parity32 (wordOf bs) then .ok else .parityError, wordOf bs)
  | _ => (ackOf bs, data)

theorem classify_ne_parityError (raw : BitVec 3) : classifyAck raw ≠ .parityError := by
  unfold classifyAck
  (repeat' split) <;> simp

/-- Everything a transaction with a legal code on a driven line does: it ends, with what the sampled bits say. -/
theorem executeTransaction_eq {code : Byte} (data : Word) {s : State} (hc : isLegalCode code = true) (ho : s.oe = true) :
    ∃ bs lv dr, Sampled (requested code s) bs lv dr ∧ bs.length = (phaseOf code (ackOf bs)).samples ∧
      executeTransaction code data s = .ok ((phaseOf code (ackOf bs)).answer data bs,
        (phaseOf code (ackOf bs)).final code data (sampledState bs lv dr (requested code s))) := by
  have key : ∀ m, ∃ bs lv dr, bs.length = 4 + m ∧ Sampled (requested code s) bs lv dr ∧
      State.inCells (4 + m) (requested code s) = (bs, sampledState bs lv dr (requested code s)) :=
    fun m => inCells_sampled (4 + m) (requested code s)
  have hoe : (requested code s).oe = false := rfl
  -- the part up to the ACK
  have hack : executeTransaction code data s =
      (match ackOf (State.inCells 4 (requested code s)).1 with
        | .ok => if isRead code then readDataPhase else writeDataPhase code data
        | .wait => noDataPhase .wait data
        | .fault => noDataPhase .fault data
        | a => discardedPhase a data) (State.inCells 4 (requested code s)).2 := by
    unfold executeTransaction
    rw [if_pos hc, op_bind_ok (shiftOutBits_ok (by omega) ho), op_bind_ok (op_targetReacts _ _),
      op_bind_ok (op_setDataLineInput _)]
    rw [outCells_target, outCells_draws]
    change (shiftInBits 1 >>= _) (requested code s) = _
    rw [op_bind_ok (shiftInBits_ok (by omega) hoe), op_bind_ok (shiftInBits_ok (by omega) (by rw [inCells_oe]; exact hoe))]
    have h4 := inCells_add 1 3 (requested code s)
    have hl := inCells_length 1 (requested code s)
    have hl3 := inCells_length 3 (State.inCells 1 (requested code s)).2
    have e : ackOf (State.inCells 4 (requested code s)).1 =
        classifyAck ((assemble (State.inCells 3 (State.inCells 1 (requested code s)).2).1).setWidth 3) := by
      unfold ackOf
      rw [h4, List.drop_left' hl, List.take_of_length_le (by omega)]
    rw [e]
    rw [show State.inCells 4 (requested code s) = State.inCells (1 + 3) (requested code s) from rfl, h4]
    all_goals rfl
  -- the ACK of the longer run is the ACK of its first four bits
  have hlong : ∀ m, ackOf (State.inCells (4 + m) (requested code s)).1 = ackOf (State.inCells 4 (requested code s)).1 := by
    intro m
    unfold ackOf
    rw [inCells_add]
    have hl := inCells_length 4 (requested code s)
    rw [List.drop_append_of_le_length (by omega), List.take_append_of_le_length (by simp [hl])]
  have ho4 : (State.inCells 4 (requested code s)).2.oe = false := by rw [inCells_oe]; exact hoe
  have h5 : State.inCells (4 + 1) (requested code s) = _ := inCells_add 4 1 (requested code s)
  have h38 : State.inCells (4 + 34) (requested code s) = _ := inCells_add 4 34 (requested code s)
  rcases ha : ackOf (State.inCells 4 (requested code s)).1 with _ | _ | _ | _ | raw
  · -- OK
    by_cases hr : isRead code = true
    · obtain ⟨bs, lv, dr, hlen, hs, he⟩ := key 34
      have hab : ackOf bs = .ok := by rw [← ha, ← hlong 34, he]
      have hp : phaseOf code (ackOf bs) = .read := by rw [hab]; simp [phaseOf, hr]
      refine ⟨bs, lv, dr, hs, by rw [hp]; exact hlen, ?_⟩
      rw [hack, ha, hp]
      simp only [hr, if_true]
      unfold readDataPhase
      rw [op_bind_ok (shiftInBits_ok (by omega) ho4)]
      rw [op_bind_ok (shiftInBits_ok (by omega) (by rw [inCells_oe]; exact ho4))]
      rw [op_bind_ok (shiftInBits_ok (by omega) (by rw [inCells_oe, inCells_oe]; exact ho4))]
      rw [op_bind_ok (op_setDataLineOutput _), op_pure]
      have e34 := inCells_add 32 2 (State.inCells 4 (requested code s)).2
      have e2 := inCells_add 1 1 (State.inCells 32 (State.inCells 4 (requested code s)).2).2
      have hb := congrArg Prod.fst (he.symm.trans h38)
      have hst := congrArg Prod.snd (he.symm.trans h38)
      rw [show (34 : Nat) = 32 + 2 from rfl, e34, show (2 : Nat) = 1 + 1 from rfl, e2] at hb hst
      simp only at hb hst
      have l4 := inCells_length 4 (requested code s)
      have l32 := inCells_length 32 (State.inCells 4 (requested code s)).2
      have l1 := inCells_length 1 (State.inCells 32 (State.inCells 4 (requested code s)).2).2
      have hw : wordOf bs = assemble (State.inCells 32 (State.inCells 4 (requested code s)).2).1 := by
        unfold wordOf
        rw [hb, List.drop_left' l4, List.take_left' l32]
      have hpar : parityOf bs = (assemble (State.inCells 1 (State.inCells 32 (State.inCells 4
          (requested code s)).2).2).1).getLsbD 0 := by
        unfold parityOf
        rw [hb, ← List.append_assoc, List.drop_left' (by simp [l4, l32]), List.take_left' l1]
      simp only [Phase.answer, Phase.final]
      rw [hw, hpar, hst]
    · obtain ⟨bs, lv, dr, hlen, hs, he⟩ := key 1
      have hab : ackOf bs = .ok := by rw [← ha, ← hlong 1, he]
      have hp : phaseOf code (ackOf bs) = .write := by rw [hab]; simp [phaseOf, hr]
      refine ⟨bs, lv, dr, hs, by rw [hp]; exact hlen, ?_⟩
      have hst := congrArg Prod.snd (he.symm.trans h5)
      rw [hack, ha, hp]
      simp only [hr]
      unfold writeDataPhase
      simp only [Bool.false_eq_true, if_false]
      rw [op_bind_ok (shiftInBits_ok (by omega) ho4), op_bind_ok (op_setDataLineOutput _),
        op_bind_ok (shiftOutBits_ok (by omega) rfl),
        op_bind_ok (shiftOutBits_ok (by omega) (by rw [outCells_oe]; rfl)), op_bind_ok (op_targetReacts _ _), op_pure]
      rw [lsbBits_parityWord, ← outCells_append, outCells_target, outCells_draws]
      simp only at hst
      simp only [Phase.answer, Phase.final, dataSent, hab, hst]
  · obtain ⟨bs, lv, dr, hlen, hs, he⟩ := key 1
    have hab : ackOf bs = .wait := by rw [← ha, ← hlong 1, he]
    have hp : phaseOf code (ackOf bs) = .none := by rw [hab]; rfl
    refine ⟨bs, lv, dr, hs, by rw [hp]; exact hlen, ?_⟩
    have hst := congrArg Prod.snd (he.symm.trans h5)
    simp only at hst
    rw [hack, ha, hp]
    show noDataPhase .wait data _ = _
    unfold noDataPhase
    rw [op_bind_ok (shiftInBits_ok (by omega) ho4), op_bind_ok (op_setDataLineOutput _), op_pure]
    simp only [Phase.answer, Phase.final, hab, hst]
  · obtain ⟨bs, lv, dr, hlen, hs, he⟩ := key 1
    have hab : ackOf bs = .fault := by rw [← ha, ← hlong 1, he]
    have hp : phaseOf code (ackOf bs) = .none := by rw [hab]; rfl
    refine ⟨bs, lv, dr, hs, by rw [hp]; exact hlen, ?_⟩
    have hst := congrArg Prod.snd (he.symm.trans h5)
    simp only at hst
    rw [hack, ha, hp]
    show noDataPhase .fault data _ = _
    unfold noDataPhase
    rw [op_bind_ok (shiftInBits_ok (by omega) ho4), op_bind_ok (op_setDataLineOutput _), op_pure]
    simp only [Phase.answer, Phase.final, hab, hst]
  · exact absurd ha (classify_ne_parityError _)
  · obtain ⟨bs, lv, dr, hlen, hs, he⟩ := key 34
    have hab : ackOf bs = .protocolError raw := by rw [← ha, ← hlong 34, he]
    have hp : phaseOf code (ackOf bs) = .discarded := by rw [hab]; rfl
    refine ⟨bs, lv, dr, hs, by rw [hp]; exact hlen, ?_⟩
    have hst := congrArg Prod.snd (he.symm.trans h38)
    have e34 := inCells_add 32 2 (State.inCells 4 (requested code s)).2
    have e2 := inCells_add 1 1 (State.inCells 32 (State.inCells 4 (requested code s)).2).2
    rw [show (34 : Nat) = 32 + 2 from rfl, e34, show (2 : Nat) = 1 + 1 from rfl, e2] at hst
    simp only at hst
    rw [hack, ha, hp]
    show discardedPhase (.protocolError raw) data _ = _
    unfold discardedPhase
    rw [op_bind_ok (shiftInBits_ok (by omega) ho4)]
    rw [op_bind_ok (shiftInBits_ok (by omega) (by rw [inCells_oe]; exact ho4))]
    rw [op_bind_ok (shiftInBits_ok (by omega) (by rw [inCells_oe, inCells_oe]; exact ho4))]
    rw [op_bind_ok (op_setDataLineOutput _), op_pure]
    simp only [Phase.answer, Phase.final, hab, hst]

end Sys2Proof.Laws
end

