-- ==== Sys2Proof/Laws/Target.lean ====
section
/-! SUPPORT. What a transaction with the reference target ends with, for each way the target answers (10_state R62-R73). -/

namespace Sys2Proof.Laws

open Sys2Proof Sys2Proof.Machine

/-! ## What is sampled from driven levels -/

theorem sampled_ack {s : State} {bs lv : List Bool} {dr : Nat} {raw : BitVec 3} {rest : List (Option Bool)}
    (h : Sampled s bs lv dr) (hd : s.target.drive = ackLevels raw ++ rest) (hl : 4 ≤ bs.length) :
    ackOf bs = classifyAck raw := by
  obtain ⟨h, -⟩ := h
  rw [hd] at h
  have h1 := h 1 (by omega) (raw.getLsbD 0) (by simp [ackLevels])
  have h2 := h 2 (by omega) (raw.getLsbD 1) (by simp [ackLevels])
  have h3 := h 3 (by omega) (raw.getLsbD 2) (by simp [ackLevels])
  have e : (bs.drop 1).take 3 = [raw.getLsbD 0, raw.getLsbD 1, raw.getLsbD 2] := by
    apply List.ext_getElem?
    intro k
    rw [List.getElem?_take, List.getElem?_drop]
    have c : k = 0 ∨ k = 1 ∨ k = 2 ∨ 3 ≤ k := by omega
    rcases c with rfl | rfl | rfl | c
    · simpa using h1
    · simpa using h2
    · simpa using h3
    · rw [if_neg (by omega)]
      simp; omega
  unfold ackOf
  rw [e, assemble_setWidth3]
  congr 1
  have : ∀ r : BitVec 3, BitVec.ofBool (r.getLsbD 2) ++ BitVec.ofBool (r.getLsbD 1) ++ BitVec.ofBool (r.getLsbD 0) = r := by
    decide
  exact this raw

theorem sampled_word {s : State} {bs lv : List Bool} {dr : Nat} {w : Word} {p : Bool}
    (h : Sampled s bs lv dr) (hd : s.target.drive = readLevels w p) (hl : bs.length = 38) :
    wordOf bs = w ∧ parityOf bs = p := by
  obtain ⟨h, -⟩ := h
  rw [hd] at h
  constructor
  · have e : (bs.drop 4).take 32 = lsbBits 32 w := by
      apply List.ext_getElem?
      intro k
      rw [List.getElem?_take, List.getElem?_drop]
      split
      · have := h (4 + k) (by omega) (w.getLsbD k) (by
          unfold readLevels
          rw [List.getElem?_append_left (by simp [ackLevels]; omega),
            List.getElem?_append_right (by simp [ackLevels])]
          simp [ackLevels, lsbBits, *])
        rw [this]
        simp [lsbBits, *]
      · rw [List.getElem?_eq_none (by simp; omega)]
    unfold wordOf
    rw [e, assemble_lsbBits]
  · have := h 36 (by omega) p (by simp [readLevels, ackLevels])
    unfold parityOf
    have e : (bs.drop 36).take 1 = [p] := by
      apply List.ext_getElem?
      intro k
      rw [List.getElem?_take, List.getElem?_drop]
      split
      · have : k = 0 := by omega
        subst this
        simpa
      · simp; omega
    rw [e, assemble_single]

theorem samples_ge (p : Phase) : 5 ≤ p.samples := by cases p <;> decide

/-! ## Frames -/

end Sys2Proof.Laws

namespace Sys2Proof.Machine

theorem WireOnly.refl (s : State) : WireOnly s s :=
  ⟨rfl, rfl, rfl, rfl, rfl, rfl, rfl, rfl, rfl, rfl, List.prefix_rfl⟩

theorem WireOnly.trans {s t u : State} (h : WireOnly s t) (k : WireOnly t u) : WireOnly s u where
  session := k.session.trans h.session
  coreId := k.coreId.trans h.coreId
  lastStatus := k.lastStatus.trans h.lastStatus
  mode := k.mode.trans h.mode
  params := k.params.trans h.params
  data := k.data.trans h.data
  result := k.result.trans h.result
  inbox := k.inbox.trans h.inbox
  hostData := k.hostData.trans h.hostData
  sent := k.sent.trans h.sent
  trace := h.trace.trans k.trace

end Sys2Proof.Machine

namespace Sys2Proof.Laws

open Sys2Proof Sys2Proof.Machine

theorem wireOnly_setOe (b : Bool) (s : State) : WireOnly s (s.setOe b) :=
  ⟨rfl, rfl, rfl, rfl, rfl, rfl, rfl, rfl, rfl, rfl, List.prefix_rfl⟩

theorem wireOnly_setTarget (t : Target) (s : State) : WireOnly s (s.setTarget t) :=
  ⟨rfl, rfl, rfl, rfl, rfl, rfl, rfl, rfl, rfl, rfl, List.prefix_rfl⟩

theorem wireOnly_setDraws (n : Nat) (s : State) : WireOnly s (s.setDraws n) :=
  ⟨rfl, rfl, rfl, rfl, rfl, rfl, rfl, rfl, rfl, rfl, List.prefix_rfl⟩

theorem wireOnly_setCleared (n : Nat) (s : State) : WireOnly s (s.setCleared n) :=
  ⟨rfl, rfl, rfl, rfl, rfl, rfl, rfl, rfl, rfl, rfl, List.prefix_rfl⟩

theorem wireOnly_outCells (bs : List Bool) (s : State) : WireOnly s (State.outCells bs s) := by
  rw [outCells_eq]
  exact ⟨rfl, rfl, rfl, rfl, rfl, rfl, rfl, rfl, rfl, rfl, List.prefix_append _ _⟩

theorem wireOnly_sampledState (bs lv : List Bool) (dr : Nat) (s : State) : WireOnly s (sampledState bs lv dr s) :=
  ⟨rfl, rfl, rfl, rfl, rfl, rfl, rfl, rfl, rfl, rfl, List.prefix_append _ _⟩

theorem wireOnly_requested (code : Byte) (s : State) : WireOnly s (requested code s) :=
  (wireOnly_outCells _ _).trans ((wireOnly_setTarget _ _).trans ((wireOnly_setDraws _ _).trans (wireOnly_setOe _ _)))

theorem wireOnly_dataSent (code : Byte) (data : Word) (s : State) : WireOnly s (dataSent code data s) :=
  (wireOnly_outCells _ _).trans ((wireOnly_setTarget _ _).trans (wireOnly_setDraws _ _))

theorem wireOnly_final (code : Byte) (data : Word) (s : State) (p : Phase) : WireOnly s (p.final code data s) := by
  cases p
  case write => exact (wireOnly_setOe _ _).trans (wireOnly_dataSent _ _ _)
  all_goals exact wireOnly_setOe _ _

theorem final_oe (code : Byte) (data : Word) (s : State) (p : Phase) : (p.final code data s).oe = true := by
  cases p
  case write => simp [Phase.final, dataSent, outCells_oe]
  all_goals rfl

/-- A transaction with a legal code on a driven line ends with the line driven, and changes nothing above the wire. -/
theorem executeTransaction_runs {code : Byte} (data : Word) {s : State} (hc : isLegalCode code = true) (ho : s.oe = true) :
    Runs (executeTransaction code data) s fun _ t => WireOnly s t ∧ t.oe = true := by
  obtain ⟨bs, lv, dr, -, -, he⟩ := executeTransaction_eq data hc ho
  exact ⟨_, _, he, (wireOnly_requested code s).trans ((wireOnly_sampledState _ _ _ _).trans (wireOnly_final _ _ _ _)),
    final_oe _ _ _ _⟩

/-- A transaction leaves the count of cleared failures alone. -/
theorem executeTransaction_cleared {code : Byte} {data : Word} {s t : State} {r : Ack × Word} (hc : isLegalCode code = true)
    (ho : s.oe = true) (h : executeTransaction code data s = .ok (r, t)) : t.cleared = s.cleared := by
  obtain ⟨bs, lv, dr, -, -, he⟩ := executeTransaction_eq data hc ho
  rw [h] at he
  have ht : t = _ := congrArg Prod.snd (Except.ok.inj he)
  rw [ht]
  have hq : (requested code s).cleared = s.cleared := by simp [requested, outCells_eq]
  cases phaseOf code (ackOf bs) <;> simp [Phase.final, dataSent, outCells_eq, sampledState, hq]

/-! ## The answers of an attached target -/

/-- What the target drives an OK read with is what the transaction ends with. -/
theorem transaction_read {code : Byte} (data : Word) {s : State} {w : Word} {p : Bool} (hc : isLegalCode code = true)
    (ho : s.oe = true) (hr : isRead code = true)
    (hd : (Target.onRequest s.draws code s.target).drive = readLevels w p) :
    Runs (executeTransaction code data) s fun r t => r = (if p = parity32 w then .ok else .parityError, w) ∧
      t.target = { Target.onRequest s.draws code s.target with drive := [] } ∧ t.oe = true ∧ WireOnly s t := by
  obtain ⟨bs, lv, dr, hs, hl, he⟩ := executeTransaction_eq data hc ho
  have hge := samples_ge (phaseOf code (ackOf bs))
  have hd' : (requested code s).target.drive = readLevels w p := hd
  have ha : ackOf bs = .ok := sampled_ack (raw := 0b001) hs (by rw [hd', readLevels, List.append_assoc]) (by omega)
  have hp : phaseOf code (ackOf bs) = .read := by simp [ha, phaseOf, hr]
  rw [hp] at hl he
  obtain ⟨hw, hpar⟩ := sampled_word hs hd' hl
  refine ⟨_, _, he, ?_, ?_, final_oe _ _ _ _,
    (wireOnly_requested code s).trans ((wireOnly_sampledState _ _ _ _).trans (wireOnly_final _ _ _ _))⟩
  · simp [Phase.answer, hw, hpar]
  · show ({ (requested code s).target with drive := (requested code s).target.drive.drop bs.length } : Target) = _
    have : (requested code s).target.drive.drop bs.length = [] := by
      rw [hd', hl]; simp [readLevels, ackLevels, Phase.samples]
    rw [this]
    rfl

/-- An OK write: the target has the word, on top of what it prepared. -/
theorem transaction_write {code : Byte} (data : Word) {s : State} (hc : isLegalCode code = true) (ho : s.oe = true)
    (hr : isRead code = false) (hd : (Target.onRequest s.draws code s.target).drive = ackLevels 0b001) :
    Runs (executeTransaction code data) s fun r t => r = (.ok, data) ∧
      (∃ n, t.target = Target.onData n code data { Target.onRequest s.draws code s.target with drive := [] }) ∧
      t.oe = true ∧ WireOnly s t := by
  obtain ⟨bs, lv, dr, hs, hl, he⟩ := executeTransaction_eq data hc ho
  have hge := samples_ge (phaseOf code (ackOf bs))
  have hd' : (requested code s).target.drive = ackLevels 0b001 ++ [] := by rw [List.append_nil]; exact hd
  have ha : ackOf bs = .ok := sampled_ack (raw := 0b001) hs hd' (by omega)
  have hp : phaseOf code (ackOf bs) = .write := by simp [ha, phaseOf, hr]
  rw [hp] at hl he
  refine ⟨_, _, he, ?_, ⟨dr, ?_⟩, final_oe _ _ _ _,
    (wireOnly_requested code s).trans ((wireOnly_sampledState _ _ _ _).trans (wireOnly_final _ _ _ _))⟩
  · simp [Phase.answer, ha]
  · have : (requested code s).target.drive.drop bs.length = [] := by
      rw [hd', hl]; simp [ackLevels, Phase.samples]
    show Target.onData dr code data
      ({ (requested code s).target with drive := (requested code s).target.drive.drop bs.length } : Target) = _
    rw [this]
    rfl

/-- A WAIT or a FAULT: the data cell and everything the target did not already do stay as they were. -/
theorem transaction_blocked {code : Byte} (data : Word) {s : State} {raw : BitVec 3} (hc : isLegalCode code = true)
    (ho : s.oe = true) (hraw : classifyAck raw = .wait ∨ classifyAck raw = .fault)
    (hd : (Target.onRequest s.draws code s.target).drive = ackLevels raw) :
    Runs (executeTransaction code data) s fun r t => r = (classifyAck raw, data) ∧
      t.target = { Target.onRequest s.draws code s.target with drive := [] } ∧ t.oe = true ∧ WireOnly s t := by
  obtain ⟨bs, lv, dr, hs, hl, he⟩ := executeTransaction_eq data hc ho
  have hge := samples_ge (phaseOf code (ackOf bs))
  have hd' : (requested code s).target.drive = ackLevels raw ++ [] := by rw [List.append_nil]; exact hd
  have ha : ackOf bs = classifyAck raw := sampled_ack hs hd' (by omega)
  have hp : phaseOf code (ackOf bs) = .none := by
    rw [ha]
    rcases hraw with h | h <;> simp [h, phaseOf]
  rw [hp] at hl he
  refine ⟨_, _, he, ?_, ?_, final_oe _ _ _ _,
    (wireOnly_requested code s).trans ((wireOnly_sampledState _ _ _ _).trans (wireOnly_final _ _ _ _))⟩
  · simp [Phase.answer, ha]
  · have : (requested code s).target.drive.drop bs.length = [] := by
      rw [hd', hl]; simp [ackLevels, Phase.samples]
    show ({ (requested code s).target with drive := (requested code s).target.drive.drop bs.length } : Target) = _
    rw [this]
    rfl

/-! ## READOK and STICKYORUN (10_state R54, log 32) -/

/-- An AP or RDBUFF read answered OK changes CTRL/STAT as `afterRead` says, and nothing else. -/
theorem noteRead_ok {code : Byte} (hr : isRead code = true) (hb : blockable code = true) (t : Target) :
    t.noteRead code true = { t with ctrlStat := t.afterRead } := by
  unfold Target.noteRead Target.afterRead
  rw [hr, hb, Bool.and_true, Bool.and_true]
  split <;> rfl

/-- A request answered WAIT or FAULT changes CTRL/STAT as `afterFailed` says, and nothing else. -/
theorem noteRead_failed (code : Byte) (t : Target) :
    t.noteRead code false = { t with ctrlStat := t.afterFailed code } := by
  unfold Target.noteRead Target.afterFailed setReadOk readOkMask
  split <;> rfl

/-- An overrun sets STICKYORUN of a target with `statusLive` and ORUNDETECT set, and changes nothing else. -/
theorem noteOverrun_eq (t : Target) : t.noteOverrun = { t with
    ctrlStat := if t.statusLive && orunDetect t.ctrlStat then t.ctrlStat ||| 0x00000002 else t.ctrlStat } := by
  unfold Target.noteOverrun stickyOrunMask
  split <;> rfl

theorem afterRead_afterRead (t : Target) : ({ t with ctrlStat := t.afterRead } : Target).afterRead = t.afterRead := by
  unfold Target.afterRead
  cases h : t.statusLive <;> simp [BitVec.or_assoc]

/-- READOK is no sticky flag. -/
theorem stickySet_afterRead (t : Target) : stickySet t.afterRead = stickySet t.ctrlStat := by
  unfold stickySet Target.afterRead stickyMask
  split
  · rw [BitVec.and_or_distrib_right, show (0x00000040 : Word) &&& 0x000000B2 = 0 from by decide]
    simp
  · rfl

/-! ## The reference target's own answers -/

/-- The reference target answers this request OK by itself. -/
structure AnswersOk (t : Target) (code : Byte) : Prop where
  attached : t.attached = true
  hears    : t.deaf code = false
  answers  : t.answers = []
  ack      : t.naturalAck code = .ok

/-- The target when it starts on a request it answers by itself: an IDCODE read ends the wait for one (10_state R71). -/
def heard (code : Byte) (t : Target) : Target :=
  { t with accepting := false, expectsIdcode := if code = codeRdIdcode then false else t.expectsIdcode }

theorem onRequest_ok {t : Target} {code : Byte} (h : AnswersOk t code) (n : Nat) :
    t.onRequest n code = Target.answerOk n code (heard code t) := by
  obtain ⟨h1, h2, h3, h4⟩ := h
  have h2' : ({ t with accepting := false } : Target).deaf code = false := h2
  have h4' : (heard code t).naturalAck code = .ok := h4
  have e : (if code = codeRdIdcode then ({ t with accepting := false, expectsIdcode := false } : Target)
      else { t with accepting := false }) = heard code t := by
    unfold heard
    split <;> rfl
  unfold Target.onRequest
  rw [if_pos h1]
  split
  · unfold Target.answerNormally
    rw [h2']
    simp only [Bool.false_eq_true, if_false]
    rw [e, h4']
  · simp_all

/-- A read of a reference target that answers OK. -/
theorem ok_read {code : Byte} (data : Word) {s : State} (hc : isLegalCode code = true) (ho : s.oe = true)
    (hr : isRead code = true) (h : AnswersOk s.target code) :
    Runs (executeTransaction code data) s fun r t =>
      r = (.ok, ((heard code s.target).performRead s.draws code).1) ∧
      t.target = { ((heard code s.target).performRead s.draws code).2 with drive := [] } ∧
      t.oe = true ∧ WireOnly s t := by
  have e := onRequest_ok h s.draws
  unfold Target.answerOk at e
  rw [if_pos hr] at e
  refine (transaction_read (p := parity32 ((heard code s.target).performRead s.draws code).1) data hc ho hr
    (by rw [e])).mono ?_
  rintro r t ⟨h1, h2, h3, h4⟩
  refine ⟨by simpa using h1, ?_, h3, h4⟩
  rw [h2, e]

/-- A write to a reference target that answers OK. -/
theorem ok_write {code : Byte} (data : Word) {s : State} (hc : isLegalCode code = true) (ho : s.oe = true)
    (hr : isRead code = false) (h : AnswersOk s.target code) :
    Runs (executeTransaction code data) s fun r t => r = (.ok, data) ∧
      (∃ n, t.target = { Target.performWrite n code data
        ({ heard code s.target with drive := [], accepting := true } : Target) with accepting := false }) ∧
      t.oe = true ∧ WireOnly s t := by
  have e := onRequest_ok h s.draws
  unfold Target.answerOk at e
  rw [hr] at e
  simp only [Bool.false_eq_true, if_false] at e
  refine (transaction_write data hc ho hr (by rw [e])).mono ?_
  rintro r t ⟨h1, ⟨n, h2⟩, h3, h4⟩
  refine ⟨h1, ⟨n, ?_⟩, h3, h4⟩
  rw [h2, e]
  unfold Target.onData
  rw [if_pos (show (heard code s.target).attached = true from h.attached)]
  rfl

theorem ready_answersOk {t : Target} (h : t.Ready) (code : Byte) : AnswersOk t code where
  attached := h.attached
  hears := by simp [Target.deaf, h.protocol, h.inSync]
  answers := h.answers
  ack := by simp [Target.naturalAck, h.clear, h.idle]

end Sys2Proof.Laws
end

