-- ==== Sys2Proof/Laws/Layers.lean ====
section
/-! SUPPORT. Every operation below the Session Manager, called on a driven line within its preconditions, ends with the line
driven and changes nothing above the wire (41_transaction R182, 42_error_recovery R231, 43_memory_access R260). -/

namespace Sys2Proof.Laws

open Sys2Proof Sys2Proof.Machine

/-- On a driven line `x` ends, with a result that meets `P`, the line driven and nothing changed above the wire. -/
def Works {α : Type} (x : Op α) (P : α → Prop) : Prop :=
  ∀ s : State, s.oe = true → Runs x s fun a t => P a ∧ WireOnly s t ∧ t.oe = true

variable {α β : Type}

theorem Works.mono {x : Op α} {P Q : α → Prop} (h : Works x P) (hpq : ∀ a, P a → Q a) : Works x Q :=
  fun s ho => (h s ho).mono fun a _ ⟨h1, h2⟩ => ⟨hpq a h1, h2⟩

theorem works_pure {P : α → Prop} {a : α} (h : P a) : Works (pure a) P :=
  fun _ ho => (runs_pure _ _ _).2 ⟨h, .refl _, ho⟩

theorem Works.bind {x : Op α} {f : α → Op β} {P : α → Prop} {Q : β → Prop} (h : Works x P)
    (hf : ∀ a, P a → Works (f a) Q) : Works (x >>= f) Q := by
  intro s ho
  refine Runs.bind (h s ho) ?_
  rintro a t ⟨hp, hw, ho'⟩
  exact (hf a hp t ho').mono fun b u ⟨h1, h2, h3⟩ => ⟨h1, hw.trans h2, h3⟩

theorem works_get : Works get fun _ => True :=
  fun _ ho => (runs_get _ _).2 ⟨trivial, .refl _, ho⟩

theorem works_drawWord : Works drawWord fun _ => True :=
  fun _ ho => ⟨_, _, rfl, trivial, wireOnly_setDraws _ _, ho⟩

theorem drawnBytes_length (k n : Nat) : (drawnBytes k n).length = n := by
  induction n generalizing k with
  | zero => rfl
  | succ n ih => simp [drawnBytes, ih]

theorem works_drawBytes (n : Nat) : Works (drawBytes n) fun bs => bs.length = n :=
  fun _ ho => ⟨_, _, rfl, drawnBytes_length _ _, wireOnly_setDraws _ _, ho⟩

theorem works_yieldCore : Works yieldCore fun _ => True := works_pure trivial

theorem works_delay (t : Nat) : Works (delay t) fun _ => True := works_pure trivial

/-! ## Transactions -/

theorem works_executeTransaction {code : Byte} (data : Word) (hc : isLegalCode code = true) :
    Works (executeTransaction code data) fun _ => True :=
  fun _ ho => (executeTransaction_runs data hc ho).mono fun _ _ h => ⟨trivial, h⟩

theorem works_retryLoop {code : Byte} (hc : isLegalCode code = true) (left : Nat) (r : Ack × Word) :
    Works (retryLoop code left r) fun _ => True := by
  induction left generalizing r with
  | zero => exact works_pure trivial
  | succ left ih =>
    unfold retryLoop
    split
    · exact (works_executeTransaction _ hc).bind fun _ _ => ih _
    · exact works_pure trivial

theorem works_executeTransactionWithRetry {code : Byte} (data : Word) (n : Nat) (hc : isLegalCode code = true) :
    Works (executeTransactionWithRetry code data n) fun _ => True :=
  (works_executeTransaction _ hc).bind fun _ _ => works_retryLoop hc _ _

theorem works_withFullRetry {code : Byte} (data : Word) (hc : isLegalCode code = true) :
    Works (withFullRetry code data) fun _ => True :=
  works_get.bind fun _ _ => works_executeTransactionWithRetry _ _ hc

/-! ## Line sequences -/

theorem lineResetRun_eq {s : State} (ho : s.oe = true) : ∃ u n, lineResetRun s = .ok ((), u) ∧
    u = ((State.outCells (List.replicate s.params.lrOnes true) s).setTarget
      (Target.onLineReset n s.target)).setDraws (s.draws + targetDraws) := by
  refine ⟨_, s.draws, ?_, rfl⟩
  unfold lineResetRun
  rw [op_bind_ok (op_get s), op_bind_ok (sendOnes_ok _ ho), op_targetReacts, outCells_target, outCells_draws]

theorem works_lineResetRun : Works lineResetRun fun _ => True := by
  intro s ho
  obtain ⟨u, n, he, rfl⟩ := lineResetRun_eq ho
  exact ⟨_, _, he, trivial,
    (wireOnly_outCells _ _).trans ((wireOnly_setTarget _ _).trans (wireOnly_setDraws _ _)), by simp [outCells_oe, ho]⟩

theorem works_idleRun : Works idleRun fun _ => True := by
  intro s ho
  refine ⟨(), _, ?_, trivial, wireOnly_outCells (List.replicate s.params.idleBits false) s, by simp [outCells_oe, ho]⟩
  unfold idleRun
  rw [op_bind_ok (op_get s), sendZeros_ok _ ho]

theorem sendJtagToSwd_eq {s : State} (ho : s.oe = true) : sendJtagToSwd s = .ok ((),
    ((State.outCells (lsbBits 16 (jtagToSwdValue.setWidth 32)) s).setTarget (s.target.onSwitch .swd)).setDraws
      (s.draws + targetDraws)) := by
  unfold sendJtagToSwd
  rw [op_bind_ok (shiftOutBits_ok (by omega) ho), op_targetReacts, outCells_target, outCells_draws]

theorem sendSwdToJtag_eq {s : State} (ho : s.oe = true) : sendSwdToJtag s = .ok ((),
    ((State.outCells (lsbBits 16 (swdToJtagValue.setWidth 32)) s).setTarget (s.target.onSwitch .jtag)).setDraws
      (s.draws + targetDraws)) := by
  unfold sendSwdToJtag
  rw [op_bind_ok (shiftOutBits_ok (by omega) ho), op_targetReacts, outCells_target, outCells_draws]

theorem works_sendJtagToSwd : Works sendJtagToSwd fun _ => True :=
  fun _ ho => ⟨_, _, sendJtagToSwd_eq ho, trivial,
    (wireOnly_outCells _ _).trans ((wireOnly_setTarget _ _).trans (wireOnly_setDraws _ _)), by simp [outCells_oe, ho]⟩

theorem works_sendSwdToJtag : Works sendSwdToJtag fun _ => True :=
  fun _ ho => ⟨_, _, sendSwdToJtag_eq ho, trivial,
    (wireOnly_outCells _ _).trans ((wireOnly_setTarget _ _).trans (wireOnly_setDraws _ _)), by simp [outCells_oe, ho]⟩

/-- The connect sequence drives the line itself: it runs from any state. -/
theorem swdConnectSequence_runs (s : State) :
    Runs swdConnectSequence s fun _ t => True ∧ WireOnly s t ∧ t.oe = true := by
  unfold swdConnectSequence
  refine Runs.bind (P := fun _ t => WireOnly s t ∧ t.oe = true) ⟨_, _, rfl, wireOnly_setOe _ _, rfl⟩ ?_
  rintro _ t ⟨hw, ho⟩
  exact ((works_lineResetRun.bind fun _ _ => works_sendJtagToSwd.bind fun _ _ => works_lineResetRun.bind
    fun _ _ => works_idleRun) t ho).mono fun _ _ ⟨h1, h2, h3⟩ => ⟨h1, hw.trans h2, h3⟩

theorem legal_rdIdcode : isLegalCode codeRdIdcode = true := by decide
theorem legal_wrAbort : isLegalCode codeWrAbort = true := by decide
theorem legal_rdCtrlstat : isLegalCode codeRdCtrlstat = true := by decide
theorem legal_wrCtrlstat : isLegalCode codeWrCtrlstat = true := by decide
theorem legal_wrSelect : isLegalCode codeWrSelect = true := by decide
theorem legal_rdRdbuff : isLegalCode codeRdRdbuff = true := by decide
theorem legal_wrCsw : isLegalCode codeWrCsw = true := by decide
theorem legal_wrTar : isLegalCode codeWrTar = true := by decide
theorem legal_rdDrw : isLegalCode codeRdDrw = true := by decide
theorem legal_wrDrw : isLegalCode codeWrDrw = true := by decide
theorem legal_rdIdr : isLegalCode codeRdIdr = true := by decide

/-- A line reset runs from any state. -/
theorem lineReset_runs (s : State) : Runs lineReset s fun _ t => True ∧ WireOnly s t ∧ t.oe = true := by
  unfold lineReset
  refine Runs.bind (swdConnectSequence_runs s) ?_
  rintro _ t ⟨-, hw, ho⟩
  exact ((works_drawWord.bind fun _ _ => works_executeTransaction _ legal_rdIdcode) t ho).mono
    fun _ _ ⟨h1, h2, h3⟩ => ⟨h1, hw.trans h2, h3⟩

theorem works_lineReset : Works lineReset fun _ => True := fun s _ => lineReset_runs s

/-! ## Error recovery -/

theorem works_recoverLink : Works recoverLink fun _ => True := by
  unfold recoverLink
  refine works_drawWord.bind fun _ _ => (works_withFullRetry _ legal_rdCtrlstat).bind fun r _ => ?_
  split
  split
  · exact works_pure trivial
  · exact works_lineReset.bind fun _ _ => works_pure trivial

theorem works_recoveryPath : Works recoveryPath fun c => c = .ok ∨ c = .hard := by
  unfold recoveryPath
  refine works_recoverLink.bind fun _ _ => (works_withFullRetry _ legal_wrAbort).bind fun r _ => ?_
  split
  split
  · refine works_get.bind fun _ _ => (works_withFullRetry _ legal_wrCsw).bind fun r _ => ?_
    split
    apply works_pure
    split <;> simp
  · exact works_pure (.inr rfl)

theorem works_clearError (a : Ack) : Works (clearError a) fun _ => True := by
  unfold clearError
  split
  · exact works_pure trivial
  · exact works_pure trivial
  · split
    · exact works_pure trivial
    · exact works_recoveryPath.mono fun _ _ => trivial
  · exact works_recoveryPath.mono fun _ _ => trivial
  · exact works_recoveryPath.mono fun _ _ => trivial

theorem works_noteCleared (e : Code) : Works (noteCleared e) fun _ => True := by
  intro s ho
  refine ⟨_, _, rfl, trivial, ?_, ?_⟩
  · show WireOnly s (if e = .ok then _ else _)
    split
    · exact wireOnly_setCleared _ _
    · exact .refl _
  · show State.oe (if e = .ok then _ else _) = true
    split <;> exact ho

theorem works_wrapped {code : Byte} (data : Word) (hc : isLegalCode code = true) :
    Works (wrapped code data) fun _ => True := by
  unfold wrapped
  refine (works_withFullRetry _ hc).bind fun r _ => ?_
  split
  split
  · exact works_pure trivial
  · exact (works_clearError _).bind fun _ _ => (works_noteCleared _).bind fun _ _ => works_pure trivial

/-! ## Multi-step operations -/

/-- `Works` of a multi-step operation: its result, when no code ended it, meets `P`. -/
def StepsWork {α : Type} (x : Steps α) (P : α → Prop) : Prop := Works x.run fun r => ∀ a, r = .ok a → P a

theorem stepsWork_pure {P : α → Prop} {a : α} (h : P a) : StepsWork (pure a) P :=
  works_pure fun b hb => by cases hb; exact h

theorem stepsWork_throw {P : α → Prop} (c : Code) : StepsWork (throw c) P :=
  works_pure fun _ hb => by cases hb

theorem StepsWork.bind {x : Steps α} {f : α → Steps β} {P : α → Prop} {Q : β → Prop} (h : StepsWork x P)
    (hf : ∀ a, P a → StepsWork (f a) Q) : StepsWork (x >>= f) Q := by
  unfold StepsWork
  rw [steps_bind_run]
  refine Works.bind h fun r hr => ?_
  cases r with
  | ok a => exact hf a (hr a rfl)
  | error c => exact works_pure fun _ hb => by cases hb

theorem stepsWork_lift {x : Op α} {P : α → Prop} (h : Works x P) : StepsWork (liftM x : Steps α) P :=
  h.bind fun a ha => works_pure fun b hb => by cases hb; exact ha

theorem stepsWork_check (c : Code) : StepsWork (Steps.check c) fun _ => True := by
  unfold Steps.check
  split
  · exact stepsWork_pure trivial
  · exact stepsWork_throw _

theorem StepsWork.code {x : Steps Unit} {P : Unit → Prop} (h : StepsWork x P) : Works x.code fun _ => True := by
  rw [steps_code_eq]
  exact Works.bind h fun r _ => works_pure trivial

theorem stepsWork_wrapWrite {code : Byte} (data : Word) (hc : isLegalCode code = true) :
    StepsWork (wrapWrite code data) fun _ => True :=
  (stepsWork_lift (works_wrapped data hc)).bind fun _ _ => stepsWork_check _

theorem stepsWork_wrapRead {code : Byte} (hc : isLegalCode code = true) :
    StepsWork (wrapRead code) fun _ => True :=
  (stepsWork_lift works_drawWord).bind fun _ _ => (stepsWork_lift (works_wrapped _ hc)).bind fun _ _ =>
    (stepsWork_check _).bind fun _ _ => stepsWork_pure trivial

/-! ## Memory access -/

theorem stepsWork_writeWordsLoop (ws : List Word) : StepsWork (writeWordsLoop ws) fun _ => True := by
  induction ws with
  | nil => exact stepsWork_pure trivial
  | cons w ws ih => exact (stepsWork_wrapWrite _ legal_wrDrw).bind fun _ _ => ih

theorem stepsWork_writeChunkSteps (addr : Word) (ws : List Word) : StepsWork (writeChunkSteps addr ws) fun _ => True :=
  (stepsWork_lift works_get).bind fun _ _ => (stepsWork_wrapWrite _ legal_wrCsw).bind fun _ _ =>
    (stepsWork_wrapWrite _ legal_wrTar).bind fun _ _ => (stepsWork_writeWordsLoop _).bind fun _ _ =>
      (stepsWork_wrapRead legal_rdRdbuff).bind fun _ _ => stepsWork_pure trivial

theorem works_checkAligned {addr : Word} {len : Nat} (h : wordAligned addr len = true) :
    Works (checkAligned addr len) fun _ => True := by
  unfold checkAligned
  rw [if_pos h]
  exact works_pure trivial

theorem works_checkPage {addr : Word} {len : Nat} (h : withinPage addr len = true) :
    Works (checkPage addr len) fun _ => True := by
  unfold checkPage
  rw [if_pos h]
  exact works_pure trivial

theorem works_writeWord32Chunk {addr : Word} {buf : List Byte} (ha : wordAligned addr buf.length = true)
    (hp : withinPage addr buf.length = true) : Works (writeWord32Chunk addr buf) fun _ => True := by
  unfold writeWord32Chunk
  refine (works_checkAligned ha).bind fun _ _ => (works_checkPage hp).bind fun _ _ => ?_
  split
  · exact works_pure trivial
  · exact (stepsWork_writeChunkSteps _ _).code

theorem works_storedWord (k : Nat) (w : Word) : Works (storedWord k w) fun _ => True := by
  unfold storedWord
  refine works_get.bind fun _ _ => ?_
  split
  · exact works_pure trivial
  · exact works_drawWord

theorem stepsWork_readStored (k : Nat) {code : Byte} (hc : isLegalCode code = true) :
    StepsWork (readStored k code) fun _ => True :=
  (stepsWork_wrapRead hc).bind fun _ _ => stepsWork_lift (works_storedWord _ _)

/-- No more words are stored than there are reads (43_memory_access R252). -/
theorem works_readsStored (k : Nat) (codes : List Byte) (hc : ∀ c ∈ codes, isLegalCode c = true) :
    Works (readsStored k codes) fun r => r.2.length ≤ codes.length := by
  induction codes with
  | nil => exact works_pure (Nat.le_refl _)
  | cons c codes ih =>
    unfold readsStored
    refine Works.bind (stepsWork_readStored k (hc c (by simp))) fun r _ => ?_
    cases r with
    | ok w =>
      exact (ih fun d hd => hc d (by simp [hd])).bind fun r h => works_pure (by simpa using h)
    | error e => exact works_pure (Nat.zero_le _)

theorem storedReads_legal (n : Nat) : ∀ c ∈ storedReads n, isLegalCode c = true := by
  intro c hc
  simp only [storedReads, List.mem_append, List.mem_replicate, List.mem_singleton] at hc
  rcases hc with ⟨-, rfl⟩ | rfl <;> decide

theorem storedReads_length {n : Nat} (hn : 0 < n) : (storedReads n).length = n := by
  simp [storedReads]
  omega

theorem stepsWork_startRead (addr : Word) : StepsWork (startRead addr) fun _ => True :=
  (stepsWork_lift works_get).bind fun _ _ => (stepsWork_wrapWrite _ legal_wrCsw).bind fun _ _ =>
    (stepsWork_wrapWrite _ legal_wrTar).bind fun _ _ => (stepsWork_wrapRead legal_rdDrw).bind fun _ _ =>
      stepsWork_pure trivial

theorem works_readChunkSteps (addr : Word) {n : Nat} (hn : 0 < n) : Works (readChunkSteps addr n) fun r =>
    r.2.length ≤ n := by
  unfold readChunkSteps
  refine works_get.bind fun s _ => (stepsWork_startRead addr).code.bind fun e _ => ?_
  split
  · exact (works_readsStored _ _ (storedReads_legal n)).mono fun r h => by rwa [storedReads_length hn] at h
  · exact works_pure (Nat.zero_le _)

theorem works_readWord32Chunk {addr : Word} {len : Nat} (ha : wordAligned addr len = true)
    (hp : withinPage addr len = true) : Works (readWord32Chunk addr len) fun r => r.2.length = len := by
  have h4 : len % 4 = 0 := by simp [wordAligned] at ha; omega
  unfold readWord32Chunk
  refine (works_checkAligned ha).bind fun _ _ => (works_checkPage hp).bind fun _ _ => ?_
  split
  · exact works_pure (by simp [*])
  · have hn : 0 < len / 4 := by omega
    refine (works_readChunkSteps addr hn).bind fun r hr => ?_
    exact (works_drawBytes _).bind fun bs hb => works_pure (by simp [hb]; omega)

/-- The chunk split: every chunk of an aligned range is aligned, not empty and within its page (43_memory_access R253). -/
theorem chunkList_spec (fuel : Nat) (addr : Word) (len : Nat) (ha : wordAligned addr len = true) :
    ∀ c ∈ chunkList fuel addr len, wordAligned c.1 c.2 = true ∧ withinPage c.1 c.2 = true ∧ 0 < c.2 := by
  induction fuel generalizing addr len with
  | zero => simp [chunkList]
  | succ fuel ih =>
    unfold chunkList
    split
    · simp
    · have h1 : addr.toNat % 4 = 0 ∧ len % 4 = 0 := by simpa [wordAligned] using ha
      have hlt := addr.isLt
      have hc : chunkSize addr len % 4 = 0 ∧ 0 < chunkSize addr len ∧
          chunkSize addr len ≤ len ∧ addr.toNat % 1024 + chunkSize addr len ≤ 1024 := by
        unfold chunkSize pageSize
        omega
      simp only [List.mem_cons]
      rintro c (rfl | hmem)
      · exact ⟨by simp [wordAligned, h1.1, hc.1], decide_eq_true hc.2.2.2, hc.2.1⟩
      · refine ih _ _ ?_ c hmem
        simp only [wordAligned, BitVec.toNat_add, BitVec.toNat_ofNat, Bool.and_eq_true, beq_iff_eq]
        omega

theorem chunkList_sum (fuel : Nat) (addr : Word) (len : Nat) (hf : len ≤ fuel) :
    ((chunkList fuel addr len).map Prod.snd).sum = len := by
  induction fuel generalizing addr len with
  | zero => simp [chunkList]; omega
  | succ fuel ih =>
    unfold chunkList
    split
    · simp [*]
    · have hc : 0 < chunkSize addr len ∧ chunkSize addr len ≤ len := by unfold chunkSize pageSize; omega
      simp only [List.map_cons, List.sum_cons]
      rw [ih _ _ (by omega)]
      omega

theorem works_readChunkRetried {addr : Word} {len : Nat} (ha : wordAligned addr len = true)
    (hp : withinPage addr len = true) : Works (readChunkRetried addr len) fun r => r.2.length = len := by
  unfold readChunkRetried
  refine (works_readWord32Chunk ha hp).bind fun r hr => ?_
  split
  split
  · exact works_pure hr
  · exact works_readWord32Chunk ha hp

theorem works_readMem32Loop (cs : List (Word × Nat))
    (h : ∀ c ∈ cs, wordAligned c.1 c.2 = true ∧ withinPage c.1 c.2 = true ∧ 0 < c.2) :
    Works (readMem32Loop cs) fun r => r.2.length = (cs.map Prod.snd).sum := by
  induction cs with
  | nil => exact works_pure rfl
  | cons c cs ih =>
    obtain ⟨ha, hp, -⟩ := h c (by simp)
    unfold readMem32Loop
    refine (works_readChunkRetried ha hp).bind fun r hr => ?_
    split
    split
    · refine (ih fun d hd => h d (by simp [hd])).bind fun r' hr' => ?_
      split
      exact works_pure (by simp_all)
    · exact (works_drawBytes _).bind fun bs hb => works_pure (by simp [hb])

/-- An aligned read ends, with `len` bytes (43_memory_access R255). -/
theorem works_readMem32 {addr : Word} {len : Nat} (ha : wordAligned addr len = true) :
    Works (readMem32 addr len) fun r => r.2.length = len := by
  unfold readMem32
  refine (works_checkAligned ha).bind fun _ _ => ?_
  have := works_readMem32Loop (chunks addr len) (chunkList_spec len addr len ha)
  rwa [show ((chunks addr len).map Prod.snd).sum = len from chunkList_sum len addr len (Nat.le_refl _)] at this

theorem works_writeChunkRetried {addr : Word} {buf : List Byte} (ha : wordAligned addr buf.length = true)
    (hp : withinPage addr buf.length = true) : Works (writeChunkRetried addr buf) fun _ => True := by
  unfold writeChunkRetried
  refine (works_writeWord32Chunk ha hp).bind fun r _ => ?_
  split
  · exact works_pure trivial
  · exact works_writeWord32Chunk ha hp

theorem works_writeMem32Loop (cs : List (Word × Nat)) (buf : List Byte)
    (h : ∀ c ∈ cs, wordAligned c.1 c.2 = true ∧ withinPage c.1 c.2 = true ∧ 0 < c.2)
    (hb : (cs.map Prod.snd).sum = buf.length) : Works (writeMem32Loop cs buf) fun _ => True := by
  induction cs generalizing buf with
  | nil => exact works_pure trivial
  | cons c cs ih =>
    obtain ⟨ha, hp, -⟩ := h c (by simp)
    have hsum : c.2 + (cs.map Prod.snd).sum = buf.length := by simpa using hb
    have hl : (buf.take c.2).length = c.2 := by simp; omega
    unfold writeMem32Loop
    refine (works_writeChunkRetried (by rw [hl]; exact ha) (by rw [hl]; exact hp)).bind fun r _ => ?_
    split
    · exact ih _ (fun d hd => h d (by simp [hd])) (by simp; omega)
    · exact works_pure trivial

/-- An aligned write ends (43_memory_access R254). -/
theorem works_writeMem32 {addr : Word} {buf : List Byte} (ha : wordAligned addr buf.length = true) :
    Works (writeMem32 addr buf) fun _ => True := by
  unfold writeMem32
  refine (works_checkAligned ha).bind fun _ _ => ?_
  exact works_writeMem32Loop _ _ (chunkList_spec _ addr _ ha) (chunkList_sum _ addr _ (Nat.le_refl _))

theorem stepsWork_byteWrite (a : Word) (b : Byte) : StepsWork (byteWrite a b) fun _ => True :=
  (stepsWork_wrapWrite _ legal_wrTar).bind fun _ _ => stepsWork_wrapWrite _ legal_wrDrw

theorem works_writeBytesLoop (a : Word) (bs : List Byte) : Works (writeBytesLoop a bs) fun _ => True := by
  induction bs generalizing a with
  | nil => exact works_pure trivial
  | cons b bs ih =>
    unfold writeBytesLoop
    refine (stepsWork_byteWrite a b).code.bind fun e _ => ?_
    have next : ∀ e : Code, Works (if e = .ok then writeBytesLoop (a + 1) bs else pure e) fun _ => True := by
      intro e
      split
      · exact ih _
      · exact works_pure trivial
    dsimp only
    split
    · exact (works_pure (P := fun _ => True) trivial).bind fun e _ => next e
    · exact (stepsWork_byteWrite a b).code.bind fun e _ => next e

/-- A byte write of any address and length ends (43_memory_access R256). -/
theorem works_writeMem8 (addr : Word) (buf : List Byte) : Works (writeMem8 addr buf) fun _ => True := by
  unfold writeMem8
  refine works_get.bind fun s _ => (works_wrapped _ legal_wrCsw).bind fun r _ => ?_
  have next : ∀ e : Code, Works (do
      let (r, _) ← wrapped codeWrCsw s.params.cswWord
      pure (if e = .ok then r else e) : Op Code) fun _ => True :=
    fun e => (works_wrapped _ legal_wrCsw).bind fun r' _ => works_pure trivial
  split
  dsimp only
  split
  · exact (works_writeBytesLoop _ _).bind fun e _ => next e
  · exact (works_pure (P := fun _ => True) trivial).bind fun e _ => next e

theorem stepsWork_byteRead (k : Nat) (a : Word) : StepsWork (byteRead k a) fun _ => True :=
  (stepsWork_wrapWrite _ legal_wrTar).bind fun _ _ => (stepsWork_wrapRead legal_rdDrw).bind fun _ _ =>
    (stepsWork_readStored k legal_rdRdbuff).bind fun _ _ => stepsWork_pure trivial

theorem works_byteReadRetried (k : Nat) (a : Word) : Works (byteReadRetried k a) fun _ => True := by
  unfold byteReadRetried
  refine Works.bind (stepsWork_byteRead k a) fun r _ => ?_
  split
  · exact works_pure trivial
  · exact Works.mono (stepsWork_byteRead k a) fun _ _ => trivial

theorem works_readBytesLoop (k : Nat) (a : Word) (n : Nat) : Works (readBytesLoop k a n) fun r => r.2.length = n := by
  induction n generalizing a with
  | zero => exact works_pure rfl
  | succ n ih =>
    unfold readBytesLoop
    refine (works_byteReadRetried k a).bind fun r _ => ?_
    split
    · refine (ih _).bind fun r' hr' => ?_
      split
      exact works_pure (by simp_all)
    · exact (works_drawBytes _).bind fun bs hb => works_pure hb

/-- A byte read of any address and length ends, with `len` bytes (43_memory_access R257). -/
theorem works_readMem8 (addr : Word) (len : Nat) : Works (readMem8 addr len) fun r => r.2.length = len := by
  unfold readMem8
  refine works_get.bind fun s _ => (works_wrapped _ legal_wrCsw).bind fun r _ => ?_
  have next : ∀ r : Code × List Byte, r.2.length = len → Works (do
      let (r', _) ← wrapped codeWrCsw s.params.cswWord
      pure (if r.1 = .ok then r' else r.1, r.2) : Op (Code × List Byte)) fun r => r.2.length = len :=
    fun r hr => (works_wrapped _ legal_wrCsw).bind fun r' _ => works_pure hr
  split
  dsimp only
  split
  · exact (works_readBytesLoop _ _ _).bind fun r hr => next r hr
  · exact Works.bind ((works_drawBytes len).bind fun bs hb => works_pure (P := fun r : Code × List Byte => r.2.length = len)
      hb) fun r hr => next r hr

/-! ## Single words and core registers -/

theorem withinPage_word {addr : Word} (ha : addr.toNat % 4 = 0) : withinPage addr 4 = true := by
  simp [withinPage, pageSize]
  omega

theorem works_writeWord {addr : Word} (v : Word) (ha : addr.toNat % 4 = 0) : Works (writeWord addr v) fun _ => True :=
  works_writeWord32Chunk (by simp [wordAligned, ha]) (withinPage_word ha)

theorem works_readWord {addr : Word} (ha : addr.toNat % 4 = 0) : Works (readWord addr) fun _ => True := by
  unfold readWord
  refine (works_readWord32Chunk (by simp [wordAligned, ha]) (withinPage_word ha)).bind fun r _ => ?_
  split
  exact works_pure trivial

theorem works_pollReadyLoop (k : Nat) : Works (pollReadyLoop k) fun _ => True := by
  induction k with
  | zero => exact works_pure trivial
  | succ k ih =>
    unfold pollReadyLoop
    refine (works_readWord (by decide)).bind fun r _ => ?_
    split
    split
    · split
      · exact works_pure trivial
      · dsimp only
        split
        · exact ih
        · exact works_yieldCore.bind fun _ _ => ih
    · exact works_pure trivial

theorem works_pollReady : Works pollReady fun _ => True := works_get.bind fun _ _ => works_pollReadyLoop _

theorem works_failedWord (e : Code) : Works (failedWord e) fun _ => True :=
  works_drawWord.bind fun _ _ => works_pure trivial

/-- A core register read ends (44_core_register R281). -/
theorem works_readCoreReg (index : Byte) : Works (readCoreReg index) fun _ => True := by
  unfold readCoreReg
  refine (works_writeWord _ (by decide)).bind fun e _ => ?_
  split
  · refine works_pollReady.bind fun e _ => ?_
    split
    · refine (works_readWord (by decide)).bind fun r _ => ?_
      split
      split
      · exact works_pure trivial
      · exact works_failedWord _
    · exact works_failedWord _
  · exact works_failedWord _

/-- A core register write ends (44_core_register R282). -/
theorem works_writeCoreReg (index : Byte) (v : Word) : Works (writeCoreReg index v) fun _ => True := by
  unfold writeCoreReg
  refine (works_writeWord _ (by decide)).bind fun e _ => ?_
  split
  · refine (works_writeWord _ (by decide)).bind fun e _ => ?_
    split
    · exact works_pollReady
    · exact works_pure trivial
  · exact works_pure trivial

/-! ## Session manager -/

theorem stepsWork_powerUpPollLoop (k : Nat) : StepsWork (powerUpPollLoop k) fun _ => True := by
  induction k with
  | zero => exact stepsWork_throw _
  | succ k ih =>
    unfold powerUpPollLoop
    refine (stepsWork_wrapRead legal_rdCtrlstat).bind fun s _ => ?_
    split
    · exact stepsWork_pure trivial
    · dsimp only
      split
      · exact ih
      · exact (stepsWork_lift works_get).bind fun _ _ => (stepsWork_lift (works_delay _)).bind fun _ _ =>
          (stepsWork_lift works_yieldCore).bind fun _ _ => ih

theorem stepsWork_identifyAp : StepsWork identifyAp fun _ => True := by
  unfold identifyAp
  refine (stepsWork_wrapWrite _ legal_wrSelect).bind fun _ _ => (stepsWork_wrapRead legal_rdIdr).bind fun _ _ =>
    (stepsWork_wrapRead legal_rdRdbuff).bind fun _ _ => (stepsWork_lift works_get).bind fun _ _ => ?_
  split
  · exact stepsWork_throw _
  · exact stepsWork_pure trivial

theorem stepsWork_openSteps : StepsWork openSteps fun _ => True := by
  unfold openSteps powerUpPoll
  exact (stepsWork_wrapWrite _ legal_wrAbort).bind fun _ _ => (stepsWork_wrapWrite _ legal_wrSelect).bind fun _ _ =>
    (stepsWork_wrapWrite _ legal_wrCtrlstat).bind fun _ _ =>
      ((stepsWork_lift works_get).bind fun _ _ => stepsWork_powerUpPollLoop _).bind fun _ _ =>
        (stepsWork_wrapWrite _ legal_wrCtrlstat).bind fun _ _ => stepsWork_identifyAp.bind fun _ _ =>
          (stepsWork_wrapWrite _ legal_wrSelect).bind fun _ _ => (stepsWork_lift works_get).bind fun _ _ =>
            (stepsWork_wrapWrite _ legal_wrCsw).bind fun _ _ =>
              (stepsWork_lift (works_writeWord _ (by decide))).bind fun _ _ => stepsWork_check _

end Sys2Proof.Laws
end

