-- ==== Sys2Proof/Laws/Reference.lean ====
section
/-! SUPPORT. Operations against a reference target that answers OK by itself: no retry, no recovery, every step takes effect
(10_state R62-R66, 42_error_recovery R232). -/

namespace Sys2Proof.Laws

open Sys2Proof Sys2Proof.Machine

/-! ## Wrapped transactions that are answered OK -/

/-- The target after a write it answered OK. -/
def wrote (n : Nat) (code : Byte) (data : Word) (t : Target) : Target :=
  { Target.performWrite n code data ({ heard code t with drive := [], accepting := true } : Target) with accepting := false }

/-- The target after a read it answered OK. -/
def wasRead (n : Nat) (code : Byte) (t : Target) : Target :=
  { ((heard code t).performRead n code).2 with drive := [] }

theorem withFullRetry_of_ok {code : Byte} {data w : Word} {s t : State}
    (h : executeTransaction code data s = .ok ((.ok, w), t)) : withFullRetry code data s = .ok ((.ok, w), t) := by
  unfold withFullRetry executeTransactionWithRetry
  rw [op_bind_ok (op_get s), op_bind_ok h]
  cases s.params.nRetry <;> simp [retryLoop]

theorem wrapped_of_ok {code : Byte} {data w : Word} {s t : State}
    (h : executeTransaction code data s = .ok ((.ok, w), t)) : wrapped code data s = .ok ((.ok, w), t) := by
  unfold wrapped
  rw [op_bind_ok (withFullRetry_of_ok h)]
  rfl

theorem ok_wrapped_write {code : Byte} (data : Word) {s : State} (hc : isLegalCode code = true) (ho : s.oe = true)
    (hr : isRead code = false) (h : AnswersOk s.target code) :
    Runs (wrapped code data) s fun r t => r = (.ok, data) ∧ (∃ n, t.target = wrote n code data s.target) ∧
      t.oe = true ∧ WireOnly s t ∧ t.cleared = s.cleared := by
  obtain ⟨r, t, he, rfl, h2, h3, h4⟩ := ok_write data hc ho hr h
  exact ⟨_, t, wrapped_of_ok he, rfl, h2, h3, h4, executeTransaction_cleared hc ho he⟩

theorem ok_wrapped_read {code : Byte} (data : Word) {s : State} (hc : isLegalCode code = true) (ho : s.oe = true)
    (hr : isRead code = true) (h : AnswersOk s.target code) :
    Runs (wrapped code data) s fun r t => r = (.ok, ((heard code s.target).performRead s.draws code).1) ∧
      t.target = wasRead s.draws code s.target ∧ t.oe = true ∧ WireOnly s t ∧ t.cleared = s.cleared := by
  obtain ⟨r, t, he, rfl, h2, h3, h4⟩ := ok_read data hc ho hr h
  exact ⟨_, t, wrapped_of_ok he, rfl, h2, h3, h4, executeTransaction_cleared hc ho he⟩

theorem ok_wrapWrite {code : Byte} (data : Word) {s : State} (hc : isLegalCode code = true) (ho : s.oe = true)
    (hr : isRead code = false) (h : AnswersOk s.target code) :
    Runs (wrapWrite code data).run s fun r t => r = .ok () ∧ (∃ n, t.target = wrote n code data s.target) ∧
      t.oe = true ∧ WireOnly s t ∧ t.cleared = s.cleared := by
  obtain ⟨r, t, he, rfl, h2, h3, h4⟩ := ok_wrapped_write data hc ho hr h
  refine ⟨.ok (), t, ?_, rfl, h2, h3, h4⟩
  unfold wrapWrite
  rw [steps_bind_run, steps_lift_run, op_bind_ok (op_bind_ok he _)]
  rfl

theorem ok_wrapRead {code : Byte} {s : State} (hc : isLegalCode code = true) (ho : s.oe = true)
    (hr : isRead code = true) (h : AnswersOk s.target code) :
    Runs (wrapRead code).run s fun r t => ∃ n, r = .ok ((heard code s.target).performRead n code).1 ∧
      t.target = wasRead n code s.target ∧ t.oe = true ∧ WireOnly s t ∧ t.cleared = s.cleared := by
  obtain ⟨r, t, he, rfl, h2, h3, h4, h5⟩ := ok_wrapped_read (s := s.setDraws (s.draws + 1)) (Config.drawWord s.draws) hc ho hr h
  refine ⟨_, t, ?_, s.draws + 1, rfl, h2, h3, (wireOnly_setDraws _ _).trans h4, h5⟩
  unfold wrapRead
  rw [steps_bind_run, steps_lift_run]
  rw [op_bind_ok (op_bind_ok (show drawWord s = .ok (Config.drawWord s.draws, s.setDraws (s.draws + 1)) from rfl) _)]
  simp only
  rw [steps_bind_run, steps_lift_run, op_bind_ok (op_bind_ok he _)]
  rfl

theorem runs_steps_bind {α β : Type} {x : Steps α} {f : α → Steps β} {s : State} {P : α → State → Prop}
    {Q : Except Code β → State → Prop} (h : Runs x.run s fun r t => ∃ a, r = .ok a ∧ P a t)
    (hf : ∀ a t, P a t → Runs (f a).run t Q) : Runs (x >>= f).run s Q := by
  rw [steps_bind_run]
  refine Runs.bind h ?_
  rintro r t ⟨a, rfl, hp⟩
  exact hf a t hp

theorem runs_steps_lift {α : Type} {x : Op α} {s : State} {P : α → State → Prop} (h : Runs x s P) :
    Runs (liftM x : Steps α).run s fun r t => ∃ a, r = .ok a ∧ P a t := by
  obtain ⟨a, t, he, hp⟩ := h
  refine ⟨.ok a, t, ?_, a, rfl, hp⟩
  rw [steps_lift_run, op_bind_ok he]
  rfl

/-! ## Bank 0 of AP 0 (10_state R50, 70_reset R398) -/

theorem apReg_csw {sel : Word} (ha : apSel sel = 0) (hb : apBankSel sel = 0) : apReg sel codeWrCsw = .csw := by
  unfold apReg apRegAddr
  rw [ha, hb]
  decide

theorem apReg_tar {sel : Word} (ha : apSel sel = 0) (hb : apBankSel sel = 0) : apReg sel codeWrTar = .tar := by
  unfold apReg apRegAddr
  rw [ha, hb]
  decide

theorem apReg_drw {sel : Word} (ha : apSel sel = 0) (hb : apBankSel sel = 0) : apReg sel codeWrDrw = .drw := by
  unfold apReg apRegAddr
  rw [ha, hb]
  decide

theorem apReg_rdDrw {sel : Word} (ha : apSel sel = 0) (hb : apBankSel sel = 0) : apReg sel codeRdDrw = .drw := by
  unfold apReg apRegAddr
  rw [ha, hb]
  decide

theorem heard_ready {t : Target} (h : t.Ready) (code : Byte) : heard code t = { t with accepting := false } := by
  unfold heard
  rw [h.inSync]
  split
  · have := h.inSync
    cases t
    simp_all
  · have := h.inSync
    cases t
    simp_all

theorem wrote_csw {t : Target} (h : t.Bank0) (n : Nat) (w : Word) :
    wrote n codeWrCsw w t = Target.settled { t with csw := writeCsw t.csw w } := by
  unfold wrote Target.settled
  rw [heard_ready h.ready]
  unfold Target.performWrite
  rw [if_pos (by decide)]
  unfold Target.apWrite
  rw [apReg_csw h.ap h.bank]

theorem wrote_tar {t : Target} (h : t.Bank0) (n : Nat) (w : Word) :
    wrote n codeWrTar w t = Target.settled { t with tar := w } := by
  unfold wrote Target.settled
  rw [heard_ready h.ready]
  unfold Target.performWrite
  rw [if_pos (by decide)]
  unfold Target.apWrite
  rw [apReg_tar h.ap h.bank]

theorem sizeBytes_word {csw : Word} (h : WordMode csw) : sizeBytes (cswSize csw) = some 4 := by
  rw [h.size]
  decide

theorem nextTar_word {csw : Word} (h : WordMode csw) (tar fresh : Word) :
    nextTar csw tar fresh = (tar &&& 0xFFFFFC00) ||| ((tar + 4) &&& 0x000003FF) := by
  unfold nextTar
  rw [h.inc, sizeBytes_word h]
  simp

theorem wordMode_writeCsw {old w : Word} (h : WordMode w) : WordMode (writeCsw old w) := by
  have hs := h.size
  have hi := h.inc
  unfold cswSize at hs
  unfold cswAddrInc at hi
  constructor
  · unfold cswSize writeCsw cswReadOnly
    rw [← hs]
    apply BitVec.eq_of_getLsbD_eq
    intro k hk
    have : ∀ k < 3, (0x008000C0 : BitVec 32).getLsbD k = false := by decide
    simp only [BitVec.getLsbD_extractLsb', BitVec.getLsbD_or, BitVec.getLsbD_and, BitVec.getLsbD_not, hk, decide_true,
      Bool.true_and, Nat.zero_add, this k hk, show k < 32 by omega, Bool.not_false, Bool.and_true, Bool.and_false,
      Bool.false_or]
  · unfold cswAddrInc writeCsw cswReadOnly
    rw [← hi]
    apply BitVec.eq_of_getLsbD_eq
    intro k hk
    have : ∀ k < 2, (0x008000C0 : BitVec 32).getLsbD (4 + k) = false := by decide
    simp only [BitVec.getLsbD_extractLsb', BitVec.getLsbD_or, BitVec.getLsbD_and, BitVec.getLsbD_not, hk, decide_true,
      Bool.true_and, this k hk, show 4 + k < 32 by omega, Bool.not_false, Bool.and_true, Bool.and_false,
      Bool.false_or]

/-! ## DRW writes (10_state R64, R65; log 32) -/

theorem normal_trnCnt {cs : Word} (h : cs &&& 0x00FFF00C = 0) : trnCnt cs = 0 := by
  have e : cs.extractLsb' 12 12 = 0 := by
    apply BitVec.eq_of_getLsbD_eq
    intro k hk
    have hm : ∀ k < 12, (0x00FFF00C : Word).getLsbD (12 + k) = true := by decide
    have hb := congrArg (fun w : Word => w.getLsbD (12 + k)) h
    simp only [BitVec.getLsbD_and, hm k hk, Bool.and_true] at hb
    simp [BitVec.getLsbD_extractLsb', hb]
  unfold trnCnt
  rw [e]
  rfl

theorem normal_pushedMode {cs : Word} (h : cs &&& 0x00FFF00C = 0) : pushedMode cs = false := by
  have e : trnMode cs = 0 := by
    unfold trnMode
    apply BitVec.eq_of_getLsbD_eq
    intro k hk
    have hm : ∀ k < 2, (0x00FFF00C : Word).getLsbD (2 + k) = true := by decide
    have hb := congrArg (fun w : Word => w.getLsbD (2 + k)) h
    simp only [BitVec.getLsbD_and, hm k hk, Bool.and_true] at hb
    simp [BitVec.getLsbD_extractLsb', hb]
  unfold pushedMode
  rw [e]
  decide

/-- In normal transfer mode a DRW write is one memory write, after which TAR moves. -/
theorem drwWrites_normal {t : Target} (h : t.normalTransfer = true) (n : Nat) (w : Word) :
    t.drwWrites n w (if t.statusLive then trnCnt t.ctrlStat else 0) =
      { t.busWrite n w with tar := nextTar (t.busWrite n w).csw (t.busWrite n w).tar (Config.drawWord (n + 2)) } := by
  unfold Target.normalTransfer at h
  cases hl : t.statusLive with
  | false => simp [Target.drwWrites, Target.drwWrite, hl]
  | true =>
    have hc : t.ctrlStat &&& 0x00FFF00C = 0 := by simpa [hl] using h
    simp [normal_trnCnt hc, normal_pushedMode hc, Target.drwWrites, Target.drwWrite]

/-- A pushed transfer with no count, of a word the bus reads and no debug register: nothing is written, STICKYCMP says whether
the lanes matched, and TAR moves. -/
theorem drwWrites_pushed {t : Target} (hl : t.statusLive = true) (hm : pushedMode t.ctrlStat = true)
    (hk : trnCnt t.ctrlStat = 0) (hs : cswSize t.csw = 0b010#3) (hp : t.Plain t.tar) (n : Nat) (w : Word) :
    t.drwWrites n w (if t.statusLive then trnCnt t.ctrlStat else 0) = { t with
      ctrlStat := if ((Memory.readWord t.mem t.tar ^^^ w) &&& laneMask t.ctrlStat == 0) == (trnMode t.ctrlStat == 0b10#2)
        then t.ctrlStat ||| stickyCmpMask else t.ctrlStat
      tar := nextTar t.csw t.tar (Config.drawWord (n + 2)) } := by
  have h4 : sizeBytes (cswSize t.csw) = some 4 := by rw [hs]; decide
  have hr : t.busRead n = (Memory.readWord t.mem t.tar, t) := by
    unfold Target.busRead
    simp only [hp.bus, Bool.false_eq_true, if_false, h4]
    unfold Target.debugRead
    simp only [hp.dhcsr, hp.dcrsr, hp.dcrdr, if_false]
  rw [show (if t.statusLive then trnCnt t.ctrlStat else 0) = 0 by simp [hk]]
  unfold Target.drwWrites Target.drwWrite
  rw [if_pos (by simp [hl, hm])]
  unfold Target.pushCompare
  simp only [hr, hp.bus, Bool.false_eq_true, if_false]
  split <;> rfl

theorem wrote_drw_word {t : Target} (h : t.Bank0) (hn : t.normalTransfer = true) (hs : cswSize t.csw = 0b010#3)
    (hp : t.Plain t.tar) (n : Nat) (w : Word) : wrote n codeWrDrw w t = Target.settled { t with
      mem := Memory.writeWord t.mem t.tar w, tar := nextTar t.csw t.tar (Config.drawWord (n + 2)) } := by
  have hb : (({ t with accepting := true, drive := [] } : Target).busError t.tar) = false := hp.bus
  have h4 : sizeBytes (cswSize t.csw) = some 4 := by rw [hs]; decide
  have e : ({ t with accepting := true, drive := [] } : Target).busWrite n w =
      { t with accepting := true, drive := [], mem := Memory.writeWord t.mem t.tar w } := by
    unfold Target.busWrite
    rw [hb]
    simp only [Bool.false_eq_true, if_false, h4]
    unfold Target.debugWrite
    simp only [hp.dhcsr, hp.dcrsr, hp.dcrdr, if_false]
  unfold wrote Target.settled
  rw [heard_ready h.ready]
  unfold Target.performWrite
  rw [if_pos (by decide)]
  unfold Target.apWrite
  rw [apReg_drw h.ap h.bank]
  simp only
  have hd := drwWrites_normal (t := { t with accepting := true, drive := [] }) hn n w
  simp only at hd
  rw [hd, e]

theorem wrote_drw {t : Target} (h : t.Bank0) (hn : t.normalTransfer = true) (hc : WordMode t.csw) (hp : t.Plain t.tar)
    (n : Nat) (w : Word) :
    wrote n codeWrDrw w t = Target.settled { t with mem := Memory.writeWord t.mem t.tar w, tar := tarNext t.tar } := by
  rw [wrote_drw_word h hn hc.size hp, nextTar_word hc]
  rfl

/-! ## DRW and RDBUFF reads (10_state R62, R63, R66) -/

theorem wasRead_drw_word {t : Target} (h : t.Bank0) (hs : cswSize t.csw = 0b010#3) (hp : t.Plain t.tar) (n : Nat) :
    wasRead n codeRdDrw t = Target.settled { t with
      ctrlStat := t.afterRead, rdbuf := Memory.readWord t.mem t.tar, stale := false,
      tar := nextTar t.csw t.tar (Config.drawWord (n + 2)) } ∧
    ((heard codeRdDrw t).performRead n codeRdDrw).1 = if t.stale then Config.drawWord (n + 1) else t.rdbuf := by
  have hb : (({ t with accepting := false } : Target).busError t.tar) = false := hp.bus
  have h4 : sizeBytes (cswSize t.csw) = some 4 := by rw [hs]; decide
  have e : (heard codeRdDrw t).performRead n codeRdDrw = (if t.stale then Config.drawWord (n + 1) else t.rdbuf,
      { t with accepting := false, ctrlStat := t.afterRead, rdbuf := Memory.readWord t.mem t.tar, stale := false,
               tar := nextTar t.csw t.tar (Config.drawWord (n + 2)) }) := by
    rw [heard_ready h.ready]
    unfold Target.performRead
    rw [if_pos (by decide)]
    unfold Target.apRead
    rw [apReg_rdDrw h.ap h.bank]
    simp only
    unfold Target.busRead
    simp only [hb, Bool.false_eq_true, if_false, h4]
    unfold Target.debugRead
    simp only [hp.dhcsr, hp.dcrsr, hp.dcrdr, if_false]
    rw [noteRead_ok (by decide) (by decide)]
    rfl
  unfold wasRead Target.settled
  rw [e]
  exact ⟨rfl, rfl⟩

theorem wasRead_drw {t : Target} (h : t.Bank0) (hc : WordMode t.csw) (hp : t.Plain t.tar) (n : Nat) :
    wasRead n codeRdDrw t = Target.settled { t with
      ctrlStat := t.afterRead, rdbuf := Memory.readWord t.mem t.tar, stale := false, tar := tarNext t.tar } ∧
    ((heard codeRdDrw t).performRead n codeRdDrw).1 = if t.stale then Config.drawWord (n + 1) else t.rdbuf := by
  obtain ⟨h1, h2⟩ := wasRead_drw_word h hc.size hp n
  refine ⟨?_, h2⟩
  rw [h1, nextTar_word hc]
  rfl

theorem wasRead_rdbuff {t : Target} (h : t.Ready) (n : Nat) :
    wasRead n codeRdRdbuff t = Target.settled { t with ctrlStat := t.afterRead } ∧
      ((heard codeRdRdbuff t).performRead n codeRdRdbuff).1 = t.rdbuf := by
  have e : (heard codeRdRdbuff t).performRead n codeRdRdbuff =
      (t.rdbuf, { t with accepting := false, ctrlStat := t.afterRead }) := by
    rw [heard_ready h]
    unfold Target.performRead
    rw [if_neg (by decide), if_neg (by decide), if_pos rfl, noteRead_ok (by decide) (by decide)]
    rfl
  unfold wasRead Target.settled
  rw [e]
  exact ⟨rfl, rfl⟩

theorem bank0_settled {t : Target} (h : t.Bank0) : t.settled.Bank0 :=
  ⟨⟨h.ready.attached, h.ready.protocol, h.ready.inSync, h.ready.answers, h.ready.clear, h.ready.idle⟩, h.ap, h.bank⟩

end Sys2Proof.Laws
end

