-- ==== Sys2Proof/Laws/Exec.lean ====
section
/-! SUPPORT. The instructions and the transactions they run; transactions with scripted levels, and on a released line. -/

namespace Sys2Proof.Laws

open Sys2Proof Sys2Proof.Machine

/-- An instruction with a header runs one transaction, a read with State's data cell. -/
theorem exec_transact {i : Instr} {h : Byte} {d : Word} (he : encode i = .transaction h d) (s : State) :
    exec i s = (transact h (if isRead h then s.data else d)).outcome s := by
  cases i <;> simp only [encode, Request.transaction.injEq, reduceCtorEq] at he
  all_goals (obtain ⟨rfl, rfl⟩ := he; rfl)

theorem legal_of_encode {i : Instr} {h : Byte} {d : Word} (he : encode i = .transaction h d) : isLegalCode h = true := by
  cases i <;> simp only [encode, Request.transaction.injEq, reduceCtorEq] at he
  all_goals (obtain ⟨rfl, rfl⟩ := he; decide)

theorem outcome_transact {h : Byte} {d : Word} {s t : State} {a : Ack} {w : Word}
   (he : executeTransaction h d s = .ok ((a, w), t)) : (transact h d).outcome s = .next ((t.setData w).setResult (.ack a)) := by
  unfold Op.outcome transact
  rw [op_bind_ok he]
  rfl

theorem header_park {h : Byte} (hl : isLegalCode h = true) : (lsbBits 8 (h.setWidth 32)).getLast? = some true := by
  revert h; decide

/-- A transaction with a target that is not attached, whose next levels are those of one whole exchange. -/
theorem executeTransaction_scripted {h : Byte} (hl : isLegalCode h = true) (d : Word) {s : State} (ho : s.oe = true) (ha : s.target.attached = false)
   (lv : List Bool) (rest : List Bool) (hlv : s.levels = lv ++ rest) (h4 : 4 ≤ lv.length) (hn : lv.length = (phaseOf h (ackOf lv)).samples) :
    ∃ n, executeTransaction h d s = .ok ((phaseOf h (ackOf lv)).answer d lv, (phaseOf h (ackOf lv)).final h d 
     { s with clk := true, dout := true, oe := false, trace := s.trace ++ (lsbBits 8 (h.setWidth 32)).map WireCell.driven ++ lv.map WireCell.sampled, target := {s.target with drive := []}, levels := rest, draws := n}) := by
  obtain ⟨bs, lv', dr, hs, hlen, he⟩ := executeTransaction_eq d hl ho
  have hd : (requested h s).target.drive = [] := by
    show (Target.onRequest _ _ _).drive = []
    simp [Target.onRequest, ha, Target.stayMute]
  have hlev : (requested h s).levels = lv ++ rest := by
    show (State.outCells _ _).levels = _
    rw [outCells_eq]; exact hlv
  have hge := samples_ge (phaseOf h (ackOf bs))
  have hack : ackOf bs = ackOf lv := by
    have h1 := (hs.2 hd).1
    unfold ackOf
    have e : (bs.drop 1).take 3 = (lv.drop 1).take 3 := by
      apply List.ext_getElem?
      intro k
      rw [List.getElem?_take, List.getElem?_take]
      split
      · rw [List.getElem?_drop, List.getElem?_drop]
        have hk : 1 + k < lv.length := by omega
        rw [h1 (1+k) (by omega) lv[1+k] (by rw [hlev, List.getElem?_append_left hk]; simp [hk])]
        simp [hk]
      · rfl
    rw [e]
  rw [hack] at hlen he
  have hle : bs.length = lv.length := by omega
  obtain ⟨e1, e2, e3⟩ := sampled_levels hs hd (by rw [hlev]; simp; omega)
  rw [hlev, hle, List.take_left' rfl] at e1
  rw [hlev, hle, List.drop_left' rfl] at e2
  subst e1 e2
  refine ⟨dr, ?_⟩
  rw [he]
  congr 3
  have hbs : bs ≠ [] := by intro e; simp [e] at h4
  have hl8 : lsbBits 8 (h.setWidth 32) ≠ [] := by simp [lsbBits, List.range_succ]
  simp only [sampledState, requested, hbs, if_false, State.setTarget, State.setDraws, State.setOe, outCells_eq, hl8]
  simp [Target.onRequest, ha, Target.stayMute, List.getLastD_eq_getLast?, header_park hl]

/-! ## A released line -/

theorem executeTransaction_released {code : Byte} (data : Word) {s : State} (hc : isLegalCode code = true)
    (ho : s.oe = false) : executeTransaction code data s = .error .phyMisuse := by
  unfold executeTransaction
  rw [if_pos hc]
  apply op_bind_error
  rw [op_shiftOutBits, if_neg (by omega), if_pos ho]

theorem wrapped_released {code : Byte} (data : Word) {s : State} (hc : isLegalCode code = true)
    (ho : s.oe = false) : wrapped code data s = .error .phyMisuse := by
  unfold wrapped
  apply op_bind_error
  unfold withFullRetry
  rw [op_bind_ok (op_get s)]
  exact op_bind_error (executeTransaction_released data hc ho) _

theorem wrapWrite_released {code : Byte} (data : Word) {s : State} (hc : isLegalCode code = true)
    (ho : s.oe = false) : (wrapWrite code data).run s = .error .phyMisuse := by
  unfold wrapWrite
  rw [steps_bind_run, steps_lift_run]
  exact op_bind_error (op_bind_error (wrapped_released data hc ho) _) _

/-- A word operation on a released line, past its preconditions, faults at its CSW write (70_reset R392). -/
theorem writeChunkSteps_released (addr : Word) (ws : List Word) {s : State} (ho : s.oe = false) :
    (writeChunkSteps addr ws).run s = .error .phyMisuse := by
  unfold writeChunkSteps
  rw [steps_bind_run, steps_lift_run, op_bind_ok (op_bind_ok (op_get s) _)]
  simp only
  rw [steps_bind_run]
  exact op_bind_error (wrapWrite_released _ legal_wrCsw ho) _

theorem readChunkSteps_released (addr : Word) (n : Nat) {s : State} (ho : s.oe = false) :
    readChunkSteps addr n s = .error .phyMisuse := by
  have h : (startRead addr).run s = .error .phyMisuse := by
    unfold startRead
    rw [steps_bind_run, steps_lift_run, op_bind_ok (op_bind_ok (op_get s) _)]
    simp only
    rw [steps_bind_run]
    exact op_bind_error (wrapWrite_released _ legal_wrCsw ho) _
  unfold readChunkSteps
  rw [op_bind_ok (op_get s)]
  apply op_bind_error
  rw [steps_code_eq]
  exact op_bind_error h _

end Sys2Proof.Laws
end

