-- ==== Sys2Proof/Laws/PerInstr.lean ====
section
/-! SUPPORT. Statements made per instruction, one lemma for each constructor. -/

namespace Sys2Proof.Laws

open Sys2Proof Sys2Proof.Machine

/-- What carries an instruction: a header of the form of 30_encoding R120-R124 that the engine accepts (R126), a 16-bit line
sequence (R146, R147), or a packet of `PKT_LEN` bytes (46_host_adapter R330). -/
def Carried.Statement (i : Instr) : Prop :=
  (∃ h d, encode i = .transaction h d ∧ headerFormOk h = true ∧ isLegalCode h = true) ∨
  (∃ v, encode i = .sequence v) ∨
  (∃ p, encode i = .packet p ∧ p.length = packetLength)

theorem Carried.rdIdcode : Carried.Statement .rdIdcode := .inl ⟨_, 0, rfl, by decide, by decide⟩

theorem Carried.wrAbort (d : Word) : Carried.Statement (.wrAbort d) := .inl ⟨_, d, rfl, by decide, by decide⟩

theorem Carried.rdCtrlstat : Carried.Statement .rdCtrlstat := .inl ⟨_, 0, rfl, by decide, by decide⟩

theorem Carried.wrCtrlstat (d : Word) : Carried.Statement (.wrCtrlstat d) := .inl ⟨_, d, rfl, by decide, by decide⟩

theorem Carried.wrSelect (d : Word) : Carried.Statement (.wrSelect d) := .inl ⟨_, d, rfl, by decide, by decide⟩

theorem Carried.rdRdbuff : Carried.Statement .rdRdbuff := .inl ⟨_, 0, rfl, by decide, by decide⟩

theorem Carried.wrCsw (d : Word) : Carried.Statement (.wrCsw d) := .inl ⟨_, d, rfl, by decide, by decide⟩

theorem Carried.wrTar (d : Word) : Carried.Statement (.wrTar d) := .inl ⟨_, d, rfl, by decide, by decide⟩

theorem Carried.rdDrw : Carried.Statement .rdDrw := .inl ⟨_, 0, rfl, by decide, by decide⟩

theorem Carried.wrDrw (d : Word) : Carried.Statement (.wrDrw d) := .inl ⟨_, d, rfl, by decide, by decide⟩

theorem Carried.rdIdr : Carried.Statement .rdIdr := .inl ⟨_, 0, rfl, by decide, by decide⟩

theorem Carried.jtagToSwd : Carried.Statement .jtagToSwd := .inr (.inl ⟨_, rfl⟩)

theorem Carried.swdToJtag : Carried.Statement .swdToJtag := .inr (.inl ⟨_, rfl⟩)

theorem Carried.hostReadMem32 (addr : Word) (len : BitVec 16) : Carried.Statement (.hostReadMem32 addr len) :=
  .inr (.inr ⟨_, rfl, rfl⟩)

end Sys2Proof.Laws
end

