-- ==== Sys2Proof/Laws/ReferenceMemory.lean ====
section
/-! SUPPORT. The chunk primitives of 43_memory_access R251, R252 against the reference target: they store and return the
words of memory in order. -/

namespace Sys2Proof.Laws

open Sys2Proof Sys2Proof.Machine

theorem bank0_of_settled {t u : Target} (h : t.Bank0) (e : u.settled = t.settled) : u.Bank0 := by
  have h' := bank0_settled h
  rw [← e] at h'
  exact ⟨⟨h'.ready.attached, h'.ready.protocol, h'.ready.inSync, h'.ready.answers, h'.ready.clear, h'.ready.idle⟩,
    h'.ap, h'.bank⟩

/-- Only these six fields differ and no sticky flag is set, so bank 0 stays selected and the target ready. -/
theorem bank0_keep {t u : Target} (h : t.Bank0) (hs : stickySet u.ctrlStat = false) (e : u.settled = Target.settled { t with
    ctrlStat := u.ctrlStat, mem := u.mem, csw := u.csw, tar := u.tar, rdbuf := u.rdbuf, stale := u.stale }) : u.Bank0 :=
  bank0_of_settled
    (t := { t with ctrlStat := u.ctrlStat, mem := u.mem, csw := u.csw, tar := u.tar, rdbuf := u.rdbuf, stale := u.stale })
    ⟨⟨h.ready.attached, h.ready.protocol, h.ready.inSync, h.ready.answers, hs, h.ready.idle⟩, h.ap, h.bank⟩ e

theorem clear_afterRead {t : Target} (h : t.Bank0) : stickySet t.afterRead = false := by
  rw [stickySet_afterRead]
  exact h.ready.clear

/-! ## One wrapped transaction (42_error_recovery R232) -/

/-- A step that took effect: the line driven, nothing changed above the wire, no failure cleared. -/
structure Took (s t : State) : Prop where
  oe      : t.oe = true
  wire    : WireOnly s t
  cleared : t.cleared = s.cleared

theorem Took.trans {s t u : State} (h : Took s t) (k : Took t u) : Took s u :=
  ⟨k.oe, h.wire.trans k.wire, k.cleared.trans h.cleared⟩

theorem step_wrDrw {s : State} (ho : s.oe = true) (hb : s.target.Bank0) (hn : s.target.normalTransfer = true)
    (hc : WordMode s.target.csw) (hp : s.target.Plain s.target.tar) (w : Word) :
    Runs (wrapWrite codeWrDrw w).run s fun r t => ∃ u, r = .ok u ∧ Took s t ∧
      t.target = Target.settled { s.target with
        mem := Memory.writeWord s.target.mem s.target.tar w, tar := tarNext s.target.tar } :=
  (ok_wrapWrite w legal_wrDrw ho (by decide) (ready_answersOk hb.ready _)).mono fun _ _ ⟨h1, ⟨n, h2⟩, h3, h4, h5⟩ =>
    ⟨(), h1, ⟨h3, h4, h5⟩, by rw [h2, wrote_drw hb hn hc hp]⟩

theorem step_wrTar {s : State} (ho : s.oe = true) (hb : s.target.Bank0) (a : Word) :
    Runs (wrapWrite codeWrTar a).run s fun r t => ∃ u, r = .ok u ∧ Took s t ∧
      t.target = Target.settled { s.target with tar := a } :=
  (ok_wrapWrite a legal_wrTar ho (by decide) (ready_answersOk hb.ready _)).mono fun _ _ ⟨h1, ⟨n, h2⟩, h3, h4, h5⟩ =>
    ⟨(), h1, ⟨h3, h4, h5⟩, by rw [h2, wrote_tar hb]⟩

theorem step_wrCsw {s : State} (ho : s.oe = true) (hb : s.target.Bank0) (a : Word) :
    Runs (wrapWrite codeWrCsw a).run s fun r t => ∃ u, r = .ok u ∧ Took s t ∧
      t.target = Target.settled { s.target with csw := writeCsw s.target.csw a } :=
  (ok_wrapWrite a legal_wrCsw ho (by decide) (ready_answersOk hb.ready _)).mono fun _ _ ⟨h1, ⟨n, h2⟩, h3, h4, h5⟩ =>
    ⟨(), h1, ⟨h3, h4, h5⟩, by rw [h2, wrote_csw hb]⟩

theorem step_rdRdbuff {s : State} (ho : s.oe = true) (hb : s.target.Ready) :
    Runs (wrapRead codeRdRdbuff).run s fun r t => ∃ w, r = .ok w ∧ w = s.target.rdbuf ∧ Took s t ∧
      t.target = Target.settled { s.target with ctrlStat := s.target.afterRead } :=
  (ok_wrapRead legal_rdRdbuff ho (by decide) (ready_answersOk hb _)).mono fun _ _ ⟨n, h1, h2, h3, h4, h5⟩ => by
    obtain ⟨w1, w2⟩ := wasRead_rdbuff hb n
    exact ⟨_, h1, w2, ⟨h3, h4, h5⟩, by rw [h2, w1]⟩

theorem step_rdDrw {s : State} (ho : s.oe = true) (hb : s.target.Bank0) (hc : WordMode s.target.csw)
    (hp : s.target.Plain s.target.tar) :
    Runs (wrapRead codeRdDrw).run s fun r t => ∃ w, r = .ok w ∧ (s.target.stale = false → w = s.target.rdbuf) ∧
      Took s t ∧ t.target = Target.settled { s.target with
        ctrlStat := s.target.afterRead, rdbuf := Memory.readWord s.target.mem s.target.tar, stale := false,
        tar := tarNext s.target.tar } :=
  (ok_wrapRead legal_rdDrw ho (by decide) (ready_answersOk hb.ready _)).mono fun _ _ ⟨n, h1, h2, h3, h4, h5⟩ => by
    obtain ⟨w1, w2⟩ := wasRead_drw hb hc hp n
    exact ⟨_, h1, by rw [w2]; intro h; simp [h], ⟨h3, h4, h5⟩, by rw [h2, w1]⟩

/-- A word read while no failure was cleared is stored as it was received (43_memory_access R252). -/
theorem readStored_ok {k : Nat} {code : Byte} {s : State} {Q : Word → State → Prop}
    (h : Runs (wrapRead code).run s fun r t => ∃ w, r = .ok w ∧ t.cleared = k ∧ Q w t) :
    Runs (readStored k code).run s fun r t => ∃ w, r = .ok w ∧ Q w t := by
  unfold readStored
  refine runs_steps_bind h ?_
  rintro w t ⟨hk, hq⟩
  refine (runs_steps_lift (P := fun a u => a = w ∧ u = t) ⟨w, t, ?_, rfl, rfl⟩).mono ?_
  · unfold storedWord
    rw [op_bind_ok (op_get t), if_pos hk]
    rfl
  · rintro r u ⟨a, rfl, rfl, rfl⟩
    exact ⟨_, rfl, hq⟩

/-! ## TAR inside a page (10_state R64) -/

theorem tarNext_eq {a : Word} (h4 : a.toNat % 4 = 0) (hp : a.toNat % 1024 + 4 < 1024) : tarNext a = a + 4 := by
  have key : ∀ x : Word, (x &&& (0xFFFFFC00 : Word)) = (x >>> 10) <<< 10 ∧
      (x &&& (0x000003FF : Word)) = BitVec.ofNat 32 (x.toNat % 1024) := by
    intro x
    constructor
    · apply BitVec.eq_of_getLsbD_eq
      intro k hk
      have : ∀ k < 32, (0xFFFFFC00 : Word).getLsbD k = decide (10 ≤ k) := by decide
      rw [BitVec.getLsbD_and, this k hk, BitVec.getLsbD_shiftLeft, BitVec.getLsbD_ushiftRight]
      by_cases h : k < 10
      · simp [h]
      · have e : 10 + (k - 10) = k := by omega
        simp [h, hk, e]; omega
    · apply BitVec.eq_of_toNat_eq
      rw [BitVec.toNat_and, BitVec.toNat_ofNat]
      have : (0x000003FF : Word).toNat = 2^10 - 1 := by decide
      rw [this, Nat.and_two_pow_sub_one_eq_mod]
      omega
  unfold tarNext
  rw [(key a).1, (key (a+4)).2]
  have hlt := a.isLt
  apply BitVec.eq_of_toNat_eq
  have hs : ((a >>> 10) <<< 10).toNat = a.toNat / 1024 * 1024 := by
    simp [BitVec.toNat_shiftLeft, BitVec.toNat_ushiftRight, Nat.shiftRight_eq_div_pow, Nat.shiftLeft_eq]
    omega
  have h44 : (4 : Word).toNat = 4 := rfl
  have hadd : (a + 4).toNat = a.toNat + 4 := by rw [BitVec.toNat_add, h44]; omega
  rw [BitVec.toNat_or, hs, BitVec.toNat_ofNat, hadd]
  have e : (a.toNat + 4) % 1024 % 2^32 = (a.toNat + 4) % 1024 := by omega
  rw [e, show a.toNat / 1024 * 1024 = 2^10 * (a.toNat / 1024) by omega]
  have hlt' : (a.toNat + 4) % 1024 < 2^10 := by omega
  rw [← Nat.two_pow_add_eq_or_of_lt hlt']
  omega

/-! ## The chunk primitives -/

/-- Memory with words stored one after the other from `a` on. -/
def storeWords (m : List Host.Cell) (a : Word) : List Word → List Host.Cell
  | [] => m
  | w :: ws => storeWords (Memory.writeWord m a w) (a + 4) ws

theorem add4 (a : Word) (i : Nat) : a + 4 + BitVec.ofNat 32 (4 * i) = a + BitVec.ofNat 32 (4 * (i + 1)) := by
  have h44 : (4 : Word).toNat = 4 := rfl
  apply BitVec.eq_of_toNat_eq
  simp only [BitVec.toNat_add, BitVec.toNat_ofNat, h44]
  omega

theorem toNat_add4 {a : Word} (hp : a.toNat % 1024 + 4 < 1024) : (a + 4).toNat = a.toNat + 4 := by
  have := a.isLt
  have h44 : (4 : Word).toNat = 4 := rfl
  rw [BitVec.toNat_add, h44]; omega

/-- The write loop stores its words one after the other from TAR on (43_memory_access R251). -/
theorem writeWordsLoop_ok (ws : List Word) {s : State} {a : Word} (ho : s.oe = true) (hb : s.target.Bank0)
    (hn : s.target.normalTransfer = true) (hc : WordMode s.target.csw)
    (h4 : a.toNat % 4 = 0) (hpage : a.toNat % 1024 + 4 * ws.length ≤ 1024)
    (hta : ws ≠ [] → s.target.tar = a) (hp : ∀ i < ws.length, s.target.Plain (a + BitVec.ofNat 32 (4 * i))) :
    Runs (writeWordsLoop ws).run s fun r t => (∃ u, r = .ok u) ∧ Took s t ∧ ∃ tar,
      t.target.settled = Target.settled { s.target with mem := storeWords s.target.mem a ws, tar := tar } := by
  induction ws generalizing s a with
  | nil => exact ⟨_, s, rfl, ⟨(), rfl⟩, ⟨ho, .refl s, rfl⟩, s.target.tar, rfl⟩
  | cons w ws ih =>
    have ht := hta (by simp)
    subst ht
    unfold writeWordsLoop
    have hp0 : s.target.Plain s.target.tar := by simpa using hp 0 (by simp)
    refine runs_steps_bind ((step_wrDrw ho hb hn hc hp0 w).mono fun r t ⟨u, h1, h2⟩ => ⟨u, h1, h2⟩) ?_
    rintro _ t ⟨hw, ht⟩
    have hlen : 4 * (ws.length + 1) = 4 * ws.length + 4 := by omega
    simp only [List.length_cons, hlen] at hpage
    have hb' : t.target.Bank0 := bank0_keep hb (by rw [ht]; exact hb.ready.clear) (by rw [ht]; rfl)
    by_cases hws : ws = []
    · subst hws
      exact ⟨_, t, rfl, ⟨(), rfl⟩, hw, tarNext s.target.tar, by rw [ht]; rfl⟩
    · have hpos : 0 < ws.length := List.length_pos_iff.2 hws
      have hlt : s.target.tar.toNat % 1024 + 4 < 1024 := by omega
      have e4 := toNat_add4 hlt
      refine (ih (s := t) (a := s.target.tar + 4) hw.oe hb' (by rw [ht]; exact hn) (by rw [ht]; exact hc) (by omega)
        (by omega) (fun _ => by rw [ht]; exact tarNext_eq h4 hlt) ?_).mono ?_
      · intro i hi
        have := hp (i + 1) (by simp; omega)
        rw [← add4] at this
        rw [ht]
        exact ⟨this.bus, this.dhcsr, this.dcrsr, this.dcrdr⟩
      · rintro r u ⟨h1, h2, tar, h5⟩
        exact ⟨h1, hw.trans h2, tar, by rw [h5, ht]; rfl⟩

/-- `writeWord32Chunk` (43_memory_access R251) stores its words from `a` on. -/
theorem writeChunkSteps_ok (ws : List Word) {s : State} {a : Word} (ho : s.oe = true) (hb : s.target.Bank0)
    (hn : s.target.normalTransfer = true) (hcw : WordMode s.params.cswWord)
    (h4 : a.toNat % 4 = 0) (hpage : a.toNat % 1024 + 4 * ws.length ≤ 1024)
    (hp : ∀ i < ws.length, s.target.Plain (a + BitVec.ofNat 32 (4 * i))) :
    Runs (writeChunkSteps a ws).run s fun r t => (∃ u, r = .ok u) ∧ Took s t ∧ ∃ tar,
      t.target.settled = Target.settled { s.target with
        ctrlStat := s.target.afterRead, mem := storeWords s.target.mem a ws,
        csw := writeCsw s.target.csw s.params.cswWord, tar := tar } := by
  unfold writeChunkSteps
  refine runs_steps_bind (P := fun x t => s = x ∧ s = t) ⟨_, s, rfl, s, rfl, rfl, rfl⟩ ?_
  rintro _ _ ⟨rfl, rfl⟩
  refine runs_steps_bind ((step_wrCsw ho hb _).mono fun r t ⟨u, h1, h2⟩ => ⟨u, h1, h2⟩) ?_
  rintro _ t1 ⟨hw1, ht1⟩
  have hb1 : t1.target.Bank0 := bank0_keep hb (by rw [ht1]; exact hb.ready.clear) (by rw [ht1]; rfl)
  refine runs_steps_bind ((step_wrTar hw1.oe hb1 _).mono fun r t ⟨u, h1, h2⟩ => ⟨u, h1, h2⟩) ?_
  rintro _ t2 ⟨hw2, ht2⟩
  have hb2 : t2.target.Bank0 := bank0_keep hb1 (by rw [ht2]; exact hb1.ready.clear) (by rw [ht2]; rfl)
  have hc2 : WordMode t2.target.csw := by rw [ht2, ht1]; exact wordMode_writeCsw hcw
  refine runs_steps_bind ((writeWordsLoop_ok ws (a := a) hw2.oe hb2 (by rw [ht2, ht1]; exact hn) hc2 h4 hpage
    (fun _ => by rw [ht2]; rfl) ?_).mono fun r t ⟨⟨u, h1⟩, h2⟩ => ⟨u, h1, h2⟩) ?_
  · intro i hi
    have := hp i hi
    rw [ht2, ht1]; exact ⟨this.bus, this.dhcsr, this.dcrsr, this.dcrdr⟩
  rintro _ t3 ⟨hw3, tar, ht3⟩
  have hb3 : t3.target.Bank0 := bank0_of_settled
    (t := { t2.target with mem := storeWords t2.target.mem a ws, tar := tar })
    ⟨⟨hb2.ready.attached, hb2.ready.protocol, hb2.ready.inSync, hb2.ready.answers, hb2.ready.clear, hb2.ready.idle⟩,
      hb2.ap, hb2.bank⟩ ht3
  refine runs_steps_bind ((step_rdRdbuff hw3.oe hb3.ready).mono fun r t ⟨u, h1, h2⟩ => ⟨u, h1, h2⟩) ?_
  rintro _ t4 ⟨-, hw4, ht4⟩
  refine ⟨_, t4, rfl, ⟨(), rfl⟩, hw1.trans (hw2.trans (hw3.trans hw4)), tar, ?_⟩
  have e : Target.settled { t3.target with ctrlStat := t3.target.afterRead } =
      { t3.target.settled with ctrlStat := t3.target.settled.afterRead } := rfl
  rw [ht4, show ∀ t : Target, t.settled.settled = t.settled from fun _ => rfl, e, ht3, ht2, ht1]
  rfl

/-- The stored reads: each word is the one asked for before it, RDBUFF gives the last (10_state R62). -/
theorem readsStored_ok (n : Nat) {s : State} {a : Word} (ho : s.oe = true) (hb : s.target.Bank0)
    (hc : WordMode s.target.csw)
    (h4 : a.toNat % 4 = 0) (hpage : a.toNat % 1024 + 4 * n ≤ 1024) (hst : s.target.stale = false)
    (hta : n ≠ 0 → s.target.tar = a) (hp : ∀ i < n, s.target.Plain (a + BitVec.ofNat 32 (4 * i))) :
    Runs (readsStored s.cleared (List.replicate n codeRdDrw ++ [codeRdRdbuff])) s fun r t =>
      r = (.ok, s.target.rdbuf ::
        (List.range n).map fun i => Memory.readWord s.target.mem (a + BitVec.ofNat 32 (4 * i))) ∧
      Took s t ∧ ∃ tar rdbuf, t.target.settled = Target.settled { s.target with
        ctrlStat := s.target.afterRead, rdbuf := rdbuf, stale := false, tar := tar } := by
  induction n generalizing s a with
  | zero =>
    unfold readsStored
    refine Runs.bind (readStored_ok (Q := fun w t => w = s.target.rdbuf ∧ Took s t ∧
      t.target = Target.settled { s.target with ctrlStat := s.target.afterRead })
      ((step_rdRdbuff ho hb.ready).mono fun r t ⟨w, h1, h2, h3, h5⟩ => ⟨w, h1, h3.cleared, h2, h3, h5⟩)) ?_
    rintro _ t ⟨_, rfl, rfl, hw, ht⟩
    exact ⟨_, t, rfl, rfl, hw, s.target.tar, s.target.rdbuf, by rw [ht, ← hst]; rfl⟩
  | succ n ih =>
    have ht := hta (by simp)
    subst ht
    rw [List.replicate_succ, List.cons_append]
    unfold readsStored
    have hp0 : s.target.Plain s.target.tar := by simpa using hp 0 (by simp)
    refine Runs.bind (readStored_ok (Q := fun w t => w = s.target.rdbuf ∧ Took s t ∧
      t.target = Target.settled { s.target with
        ctrlStat := s.target.afterRead, rdbuf := Memory.readWord s.target.mem s.target.tar, stale := false,
        tar := tarNext s.target.tar })
      ((step_rdDrw ho hb hc hp0).mono fun r t ⟨w, h1, h2, h3, h5⟩ => ⟨w, h1, h3.cleared, h2 hst, h3, h5⟩)) ?_
    rintro _ t ⟨_, rfl, rfl, hw, ht⟩
    have hb' : t.target.Bank0 := bank0_keep hb (by rw [ht]; exact clear_afterRead hb) (by rw [ht]; rfl)
    have hrange : (List.range (n + 1)).map
          (fun i => Memory.readWord s.target.mem (s.target.tar + BitVec.ofNat 32 (4 * i))) =
        Memory.readWord s.target.mem s.target.tar :: (List.range n).map
          fun i => Memory.readWord s.target.mem (s.target.tar + 4 + BitVec.ofNat 32 (4 * i)) := by
      rw [List.range_succ_eq_map]
      simp only [List.map_cons, List.map_map, Function.comp_def, add4]
      simp
    have next : Runs (readsStored s.cleared (List.replicate n codeRdDrw ++ [codeRdRdbuff])) t fun r u =>
        r = (.ok, (List.range (n + 1)).map
          fun i => Memory.readWord s.target.mem (s.target.tar + BitVec.ofNat 32 (4 * i))) ∧
        Took t u ∧ ∃ tar rdbuf, u.target.settled = Target.settled { s.target with
          ctrlStat := s.target.afterRead, rdbuf := rdbuf, stale := false, tar := tar } := by
      have hmem : t.target.mem = s.target.mem := by rw [ht]; rfl
      have hrd : t.target.rdbuf = Memory.readWord s.target.mem s.target.tar := by rw [ht]; rfl
      have hend : ∀ u : State, (∃ tar rdbuf, u.target.settled = Target.settled { t.target with
            ctrlStat := t.target.afterRead, rdbuf := rdbuf, stale := false, tar := tar }) →
          ∃ tar rdbuf, u.target.settled = Target.settled { s.target with
            ctrlStat := s.target.afterRead, rdbuf := rdbuf, stale := false, tar := tar } := by
        rintro u ⟨tar, rdbuf, h⟩
        refine ⟨tar, rdbuf, ?_⟩
        have ha : t.target.afterRead = s.target.afterRead := by rw [ht]; exact afterRead_afterRead s.target
        rw [h, ha, ht]
        rfl
      rw [← hw.cleared]
      by_cases hn : n = 0
      · subst hn
        refine (ih (s := t) (a := s.target.tar) hw.oe hb' (by rw [ht]; exact hc) h4 (by omega) (by rw [ht]; rfl)
          (by simp) (by simp)).mono ?_
        rintro r u ⟨h1, h2, h3⟩
        exact ⟨by rw [h1, hrange, hrd]; rfl, h2, hend u h3⟩
      · have hlt : s.target.tar.toNat % 1024 + 4 < 1024 := by omega
        have e4 := toNat_add4 hlt
        refine (ih (s := t) (a := s.target.tar + 4) hw.oe hb' (by rw [ht]; exact hc) (by omega) (by omega)
          (by rw [ht]; rfl) (fun _ => by rw [ht]; exact tarNext_eq h4 hlt) ?_).mono ?_
        · intro i hi
          have := hp (i + 1) (by omega)
          rw [← add4] at this
          rw [ht]
          exact ⟨this.bus, this.dhcsr, this.dcrsr, this.dcrdr⟩
        · rintro r u ⟨h1, h2, h3⟩
          exact ⟨by rw [h1, hrange, hrd, hmem], h2, hend u h3⟩
    refine Runs.bind next ?_
    rintro _ u ⟨rfl, h2, h3⟩
    exact ⟨_, u, rfl, rfl, hw.trans h2, h3⟩

/-- `readWord32Chunk` (43_memory_access R252) returns the words from `a` on. -/
theorem readChunkSteps_ok (n : Nat) (hn : 0 < n) {s : State} {a : Word} (ho : s.oe = true) (hb : s.target.Bank0)
    (hcw : WordMode s.params.cswWord)
    (h4 : a.toNat % 4 = 0) (hpage : a.toNat % 1024 + 4 * n ≤ 1024)
    (hp : ∀ i < n, s.target.Plain (a + BitVec.ofNat 32 (4 * i))) :
    Runs (readChunkSteps a n) s fun r t =>
      r = (.ok, (List.range n).map fun i => Memory.readWord s.target.mem (a + BitVec.ofNat 32 (4 * i))) ∧
      Took s t ∧ ∃ tar rdbuf, t.target.settled = Target.settled { s.target with
        ctrlStat := s.target.afterRead, csw := writeCsw s.target.csw s.params.cswWord, tar := tar, rdbuf := rdbuf,
        stale := false } := by
  obtain ⟨m, rfl⟩ : ∃ m, n = m + 1 := ⟨n - 1, by omega⟩
  have hp0 : s.target.Plain a := by simpa using hp 0 (by omega)
  have start : Runs (startRead a).run s fun r t => (∃ u, r = .ok u) ∧ Took s t ∧
      t.target = Target.settled { s.target with
        ctrlStat := s.target.afterRead, csw := writeCsw s.target.csw s.params.cswWord,
        rdbuf := Memory.readWord s.target.mem a, stale := false, tar := tarNext a } := by
    unfold startRead
    refine runs_steps_bind (P := fun x t => s = x ∧ s = t) ⟨_, s, rfl, s, rfl, rfl, rfl⟩ ?_
    rintro _ _ ⟨rfl, rfl⟩
    refine runs_steps_bind ((step_wrCsw ho hb _).mono fun r t ⟨u, h1, h2⟩ => ⟨u, h1, h2⟩) ?_
    rintro _ t1 ⟨hw1, ht1⟩
    have hb1 : t1.target.Bank0 := bank0_keep hb (by rw [ht1]; exact hb.ready.clear) (by rw [ht1]; rfl)
    refine runs_steps_bind ((step_wrTar hw1.oe hb1 _).mono fun r t ⟨u, h1, h2⟩ => ⟨u, h1, h2⟩) ?_
    rintro _ t2 ⟨hw2, ht2⟩
    have hb2 : t2.target.Bank0 := bank0_keep hb1 (by rw [ht2]; exact hb1.ready.clear) (by rw [ht2]; rfl)
    have hc2 : WordMode t2.target.csw := by rw [ht2, ht1]; exact wordMode_writeCsw hcw
    have hp2 : t2.target.Plain t2.target.tar := by
      rw [ht2, ht1]; exact ⟨hp0.bus, hp0.dhcsr, hp0.dcrsr, hp0.dcrdr⟩
    refine runs_steps_bind ((step_rdDrw hw2.oe hb2 hc2 hp2).mono fun r t ⟨u, h1, h2⟩ => ⟨u, h1, h2⟩) ?_
    rintro _ t3 ⟨-, hw3, ht3⟩
    refine ⟨_, t3, rfl, ⟨(), rfl⟩, hw1.trans (hw2.trans hw3), ?_⟩
    rw [ht3, ht2, ht1]
    rfl
  have hcode : Runs (startRead a).code s fun e t => e = .ok ∧ Took s t ∧
      t.target = Target.settled { s.target with
        ctrlStat := s.target.afterRead, csw := writeCsw s.target.csw s.params.cswWord,
        rdbuf := Memory.readWord s.target.mem a, stale := false, tar := tarNext a } := by
    rw [steps_code_eq]
    refine Runs.bind start ?_
    rintro _ t ⟨⟨u, rfl⟩, h⟩
    exact ⟨_, t, rfl, rfl, h⟩
  unfold readChunkSteps
  refine Runs.bind (P := fun x t => s = x ∧ s = t) ⟨_, s, rfl, rfl, rfl⟩ ?_
  rintro _ _ ⟨rfl, rfl⟩
  refine Runs.bind hcode ?_
  rintro _ t ⟨rfl, hw, ht⟩
  have hb' : t.target.Bank0 := bank0_keep hb (by rw [ht]; exact clear_afterRead hb) (by rw [ht]; rfl)
  have hc' : WordMode t.target.csw := by rw [ht]; exact wordMode_writeCsw hcw
  have hrange : (List.range (m + 1)).map
        (fun i => Memory.readWord s.target.mem (a + BitVec.ofNat 32 (4 * i))) =
      Memory.readWord s.target.mem a :: (List.range m).map
        fun i => Memory.readWord s.target.mem (a + 4 + BitVec.ofNat 32 (4 * i)) := by
    rw [List.range_succ_eq_map]
    simp only [List.map_cons, List.map_map, Function.comp_def, add4]
    simp
  have hend : ∀ u : State, (∃ tar rdbuf, u.target.settled = Target.settled { t.target with
        ctrlStat := t.target.afterRead, rdbuf := rdbuf, stale := false, tar := tar }) →
      ∃ tar rdbuf, u.target.settled = Target.settled { s.target with
        ctrlStat := s.target.afterRead, csw := writeCsw s.target.csw s.params.cswWord, tar := tar, rdbuf := rdbuf,
        stale := false } := by
    rintro u ⟨tar, rdbuf, h⟩
    refine ⟨tar, rdbuf, ?_⟩
    have ha : t.target.afterRead = s.target.afterRead := by rw [ht]; exact afterRead_afterRead s.target
    rw [h, ha, ht]
    rfl
  have hmem : t.target.mem = s.target.mem := by rw [ht]; rfl
  have hrd : t.target.rdbuf = Memory.readWord s.target.mem a := by rw [ht]; rfl
  rw [if_pos rfl, ← hw.cleared]
  show Runs (readsStored t.cleared (List.replicate m codeRdDrw ++ [codeRdRdbuff])) t _
  by_cases hm : m = 0
  · subst hm
    refine (readsStored_ok 0 (a := a) hw.oe hb' hc' h4 (by omega) (by rw [ht]; rfl) (by simp) (by simp)).mono ?_
    rintro r u ⟨h1, h2, h3⟩
    exact ⟨by rw [h1, hrange, hrd]; rfl, hw.trans h2, hend u h3⟩
  · have hlt : a.toNat % 1024 + 4 < 1024 := by omega
    have e4 := toNat_add4 hlt
    refine (readsStored_ok m (a := a + 4) hw.oe hb' hc' (by omega) (by omega) (by rw [ht]; rfl)
      (fun _ => by rw [ht]; exact tarNext_eq h4 hlt) ?_).mono ?_
    · intro i hi
      have := hp (i + 1) (by omega)
      rw [← add4] at this
      rw [ht]
      exact ⟨this.bus, this.dhcsr, this.dcrsr, this.dcrdr⟩
    · rintro r u ⟨h1, h2, h3⟩
      exact ⟨by rw [h1, hrange, hrd, hmem], hw.trans h2, hend u h3⟩

end Sys2Proof.Laws
end

