-- ==== Sys2Proof/Tests/Slice0.lean ====
section
/-! SUPPORT. Tests, from the vectors of 95_test_vectors where one is named, and a witness for the hypotheses of each
statement. -/

namespace Sys2Proof.Tests

open Sys2Proof Sys2Proof.Machine

/-! ## WellFormed: an ill-formed term is refused (R127) -/

theorem test_rdIdr_refused_in_bank_0 : Instr.rdIdr.wellFormed 0 = false := by decide
theorem test_rdDrw_refused_in_bank_f : Instr.rdDrw.wellFormed 0xF = false := by decide
theorem test_tc1_parameters_wf : Params.tc1.wf := by decide
theorem test_short_lineReset_refused : ¬ ({ Params.tc1 with lrOnes := 49 } : Params).wf := by decide

/-! ## Decoding: words written out from R120-R125 (Park Stop Parity A3 A2 RnW APnDP Start), R146, R147, R332 -/

theorem test_decode_rdIdcode : decodeTableWord 8 0b10100101 = some .rdIdcode := by decide
theorem test_decode_wrAbort : decodeTableWord 8 0b10000001 = some (.wrAbort 0) := by decide
theorem test_decode_rdCtrlstat : decodeTableWord 8 0b10001101 = some .rdCtrlstat := by decide
theorem test_decode_wrCtrlstat : decodeTableWord 8 0b10101001 = some (.wrCtrlstat 0) := by decide
theorem test_decode_wrSelect : decodeTableWord 8 0b10110001 = some (.wrSelect 0) := by decide
theorem test_decode_rdRdbuff : decodeTableWord 8 0b10111101 = some .rdRdbuff := by decide
theorem test_decode_wrCsw : decodeTableWord 8 0b10100011 = some (.wrCsw 0) := by decide
theorem test_decode_wrTar : decodeTableWord 8 0b10001011 = some (.wrTar 0) := by decide
theorem test_decode_rdDrw : decodeTableWord 8 0b10011111 = some .rdDrw := by decide
theorem test_decode_wrDrw : decodeTableWord 8 0b10111011 = some (.wrDrw 0) := by decide
theorem test_decode_rdIdr : decodeHeader 0xF 0b10011111 0 = .ok .rdIdr := by decide
theorem test_decode_jtagToSwd : decodeTableWord 16 0b1110011110011110 = some .jtagToSwd := by decide
theorem test_decode_swdToJtag : decodeTableWord 16 0b1110011100111100 = some .swdToJtag := by decide
theorem test_decode_hostReadMem32 : decodeTableWord 16 0x07F2 = some (.hostReadMem32 0 0) := by decide
/-- The packet of P3. -/
theorem test_decode_packet_fields :
    decode CmdCodes.tc1 0 (.packet [0xF2, 0x07, 0x00, 0x00, 0x00, 0x20, 0x08, 0x00, 0, 0, 0, 0, 0, 0, 0, 0]) =
      .ok (.instr (.hostReadMem32 0x20000000 8)) := by decide
/-- V14: the DP RESEND header. -/
theorem test_decode_resend_refused : decodeHeader 0 0x95 0 = .error .illegalRequestCode := by decide
theorem test_decode_wrong_parity_refused : decodeHeader 0 0x85 0 = .error .illegalRequestCode := by decide
theorem test_decode_sequence_refused : decodeSequence 0xE79F = .error .unknownSequence := by decide

/-! ## States -/

/-- A driven line, the TC1 target before any power-up. -/
def driven : State := { State.reset with oe := true }

/-- The state after `open` on the TC1 target (the end state of P1, but for the trace), 0x12345678 at 0x20000000. -/
def afterOpen : State := { State.reset with
  oe := true
  session := .opened
  coreId := 0x2BA01477
  target := { Target.tc1 with
    ctrlStat := 0xF0000000
    csw := 0x23000012
    tar := 0xE000EDF4
    rdbuf := 0x24770011
    stale := false
    debugEn := true
    mem := [(0x20000000, 0x78), (0x20000001, 0x56), (0x20000002, 0x34), (0x20000003, 0x12)] } }

/-- `afterOpen` with another target. -/
def withTarget (f : Target → Target) : State := { afterOpen with target := f afterOpen.target }

/-- `afterOpen` with TAR at 0x20000000. -/
def atWord : State := withTarget fun t => { t with tar := 0x20000000 }

/-- `atWord` with byte accesses and no increment. -/
def atByte : State := withTarget fun t => { t with tar := 0x200003FF, csw := 0x23000000 }

/-- `atByte` with single increment. -/
def atByteInc : State := withTarget fun t => { t with tar := 0x200003FF, csw := 0x23000010 }

/-- A driven line with an arbitrary target that shows these levels. -/
def shows (levels : List Bool) : State :=
  { afterOpen with target := { afterOpen.target with attached := false }, levels := levels }

/-- What an instruction ends with: its result, the data cell, the cells clocked, and something of the state. -/
def after {α : Type} (x : Host.Outcome State Fault Refusal) (f : State → α) : Option (OpResult × Word × Nat × α) :=
  match x with
  | .next t => some (t.result, t.data, t.trace.length, f t)
  | _ => none

/-- What an operation ends with. -/
def ended {α β : Type} (x : Op α) (s : State) (f : α → State → β) : Except Fault β :=
  match x s with
  | .ok (a, t) => .ok (f a t)
  | .error e => .error e

/-- The model fault a step stops in. -/
def faultOf (x : Host.Outcome State Fault Refusal) : Option Fault :=
  match x with
  | .fault f => some f
  | _ => none

/-- The out-cells of a trace, as bits. -/
def drivenBits (t : State) : List Bool := t.trace.filterMap WireCell.out

/-! ## PHY (V1-V10) -/

theorem test_shiftOut_v1 : ended (shiftOutBits 0xA5 8) driven (fun _ t => drivenBits t) =
    .ok [true, false, true, false, false, true, false, true] := by decide
theorem test_shiftOut_v4 : ended (shiftOutBits 0 33) driven (fun _ t => t.trace) = .error .shiftCountTooLarge := by decide
theorem test_shiftOut_v5 : ended (shiftOutBits 0 1) State.reset (fun _ t => t.trace) = .error .phyMisuse := by decide
theorem test_shiftIn_v6 : ended (shiftInBits 3) { State.reset with levels := [true, false, false] } (fun r _ => r) =
    .ok 0b001 := by decide
theorem test_shiftIn_v10 : ended (shiftInBits 33) driven (fun r _ => r) = .error .shiftCountTooLarge := by decide

/-! ## The eleven request codes (V16-V26) -/

theorem test_rdIdcode_v16 : after (exec .rdIdcode afterOpen) (·.oe) = some (.ack .ok, 0x2BA01477, 46, true) := by decide
theorem test_rdIdcode_released_v33 : faultOf (exec .rdIdcode State.reset) = some .phyMisuse := by decide
theorem test_wrAbort_v17 : after (exec (.wrAbort 0x1E) (withTarget fun t => { t with ctrlStat := 0xF0000020 }))
    (·.target.ctrlStat) = some (.ack .ok, 0x1E, 46, 0xF0000000) := by decide
theorem test_wrAbort_one_flag : after (exec (.wrAbort 0x08) (withTarget fun t => { t with ctrlStat := 0xF00000B2 }))
    (·.target.ctrlStat) = some (.ack .ok, 0x08, 46, 0xF0000032) := by decide
theorem test_rdCtrlstat_v18 : after (exec .rdCtrlstat afterOpen) (·.oe) = some (.ack .ok, 0xF0000000, 46, true) := by decide
theorem test_rdCtrlstat_wait_v27 : after (exec .rdCtrlstat (withTarget fun t => { t with answers := [.wait] })) (·.oe) =
    some (.ack .wait, 0, 13, true) := by decide
theorem test_wrCtrlstat_v19 : after (exec (.wrCtrlstat 0x50000000) driven) (·.target.ctrlStat) =
    some (.ack .ok, 0x50000000, 46, 0xF0000000) := by decide
theorem test_wrCtrlstat_powers_down : after (exec (.wrCtrlstat 0) afterOpen) (·.target.ctrlStat) =
    some (.ack .ok, 0, 46, 0) := by decide
theorem test_wrSelect_v20 : after (exec (.wrSelect 0xF0) afterOpen) (·.target.select) =
    some (.ack .ok, 0xF0, 46, 0xF0) := by decide
theorem test_wrSelect_wire_v20 : after (exec (.wrSelect 0xF0) afterOpen) (fun t => (drivenBits t).take 20) =
    some (.ack .ok, 0xF0, 46, [true, false, false, false, true, true, false, true,
      false, false, false, false, true, true, true, true, false, false, false, false]) := by decide
theorem test_rdRdbuff_v24 : after (exec .rdRdbuff (withTarget fun t => { t with rdbuf := 0x12345678 })) (·.oe) =
    some (.ack .ok, 0x12345678, 46, true) := by decide
theorem test_rdRdbuff_parity_v31 : after (exec .rdRdbuff (withTarget fun t => { t with answers := [.badParity 0x12345678] }))
    (·.oe) = some (.ack .parityError, 0x12345678, 46, true) := by decide
theorem test_wrCsw_v21 : after (exec (.wrCsw 0x23000012) driven) (·.target.csw) =
    some (.ack .ok, 0x23000012, 46, 0x23000012) := by decide
theorem test_wrCsw_wrong_bank_v57 : after (exec (.wrCsw 0x23000012) (withTarget fun t => { t with select := 0xF0, csw := 0 }))
    (fun t => (t.target.csw, sparseGet 0 t.target.apOther 0xF0)) =
      some (.ack .ok, 0x23000012, 46, (0, 0x23000012)) := by decide
theorem test_wrTar_v22 : after (exec (.wrTar 0x20000000) afterOpen) (·.target.tar) =
    some (.ack .ok, 0x20000000, 46, 0x20000000) := by decide
theorem test_wrTar_fault_v28 : after (exec (.wrTar 0x20000000) (withTarget fun t => { t with answers := [.fault] }))
    (fun t => (t.target.tar, t.target.ctrlStat)) =
      some (.ack .fault, 0x20000000, 13, (0xE000EDF4, 0xF0000020)) := by decide
theorem test_rdDrw_v23 : after (exec .rdDrw atWord) (fun t => (t.target.rdbuf, t.target.tar)) =
    some (.ack .ok, 0x24770011, 46, (0x12345678, 0x20000004)) := by decide
theorem test_rdDrw_protocol_v29 : after (exec .rdDrw (withTarget fun t => { t with answers := [.raw 0 []] })) (·.oe) =
    some (.ack (.protocolError 0), 0, 46, true) := by decide
theorem test_wrDrw_v25 : after (exec (.wrDrw 0xCAFEF00D) atWord)
    (fun t => (Memory.readByte t.target.mem 0x20000000, Memory.readByte t.target.mem 0x20000003, t.target.tar)) =
      some (.ack .ok, 0xCAFEF00D, 46, (0x0D, 0xCA, 0x20000004)) := by decide
/-- R64: TAR wraps inside its page; R92: only the lane of the address is written. -/
theorem test_wrDrw_byte_lane : after (exec (.wrDrw 0xAB000000) atByteInc)
    (fun t => (Memory.readByte t.target.mem 0x200003FF, t.target.tar)) =
      some (.ack .ok, 0xAB000000, 46, (0xAB, 0x20000000)) := by decide
theorem test_rdIdr_v26 : (after (exec .rdIdr (withTarget fun t => { t with select := 0xF0 }))
    (fun t => t.target.rdbuf)).map (fun r => (r.1, r.2.2)) = some (.ack .ok, 46, 0x24770011) := by decide

/-! ## Line sequences (V44, V47) and the host packet (P3, V101) -/

theorem test_jtagToSwd_bits : after (exec .jtagToSwd (withTarget fun t => { t with protocol := .jtag }))
    (fun t => (drivenBits t, t.target.protocol)) = some (.done, 0, 16, ([false, true, true, true, true, false, false, true,
      true, true, true, false, false, true, true, true], .swd)) := by decide
theorem test_swdToJtag_bits : after (exec .swdToJtag afterOpen) (fun t => (drivenBits t, t.target.protocol)) =
    some (.done, 0, 16, ([false, false, true, true, true, true, false, false,
      true, true, true, false, false, true, true, true], .jtag)) := by decide
theorem test_hostReadMem32_p3 : after (exec (.hostReadMem32 0x20000000 8) (withTarget fun t => { t with
      mem := [(0x20000000, 0xEF), (0x20000001, 0xBE), (0x20000002, 0xAD), (0x20000003, 0xDE),
        (0x20000004, 0x0D), (0x20000005, 0xF0), (0x20000006, 0xFE), (0x20000007, 0xCA)] }))
    (fun t => (t.sent.flatten, t.lastStatus)) = some (.host 0, 0, 230,
      ([0xEF, 0xBE, 0xAD, 0xDE, 0x0D, 0xF0, 0xFE, 0xCA], .ok)) := by decide +kernel
theorem test_hostReadMem32_v101 : faultOf (exec (.hostReadMem32 0x20000002 4) afterOpen) =
    some .misalignedWordAccess := by decide

/-! ## Operands (X1, X5, V63) -/

theorem test_parity_x1 : [parity32 0, parity32 1, parity32 0x12345678, parity32 0xCAFEF00D, parity32 0xE000EDF0] =
    [false, true, true, false, true] := by decide
theorem test_lane_x5 : laneWord 0x1003 0xAB = 0xAB000000 ∧ laneByte 0x1003 0xAB000000 = 0xAB := by decide
theorem test_chunks_v63b : chunks 0x200003FC 16 = [(0x200003FC, 4), (0x20000400, 12)] := by decide
theorem test_chunks_v63f : chunks 0xFFFFFFFC 8 = [(0xFFFFFFFC, 4), (0x00000000, 4)] := by decide

/-! ## Buffers after a failed read (43_memory_access R252) -/

/-- The second word's read has a bad parity: code 1, and the first word stays in the buffer. -/
theorem test_readChunk_keeps_stored_words : ended (readWord32Chunk 0x20000000 8) (withTarget fun t => { t with
      answers := [.normal, .normal, .normal, .normal, .badParity 0] }) (fun r _ => (r.1, r.2.take 4, r.2.length)) =
    .ok (.soft, [0x78, 0x56, 0x34, 0x12], 8) := by decide +kernel

/-! ## A target that acts on the CTRL/STAT fields of 10_state R54 (log 32), and injected effects (60_exceptions R363) -/

/-- The target of `atWord` with this CTRL/STAT, acting on its fields. -/
def live (ctrlStat : Word) : Target := { atWord.target with statusLive := true, ctrlStat := ctrlStat }

/-- The words at 0x20000000 and 0x20000004, CTRL/STAT and TAR. -/
def wordsAfter (t : Target) : Word × Word × Word × Word :=
  (Memory.readWord t.mem 0x20000000, Memory.readWord t.mem 0x20000004, t.ctrlStat, t.tar)

theorem test_readok_set : ((live 0xF0000000).performRead 0 codeRdRdbuff).2.ctrlStat = 0xF0000040 := by decide
theorem test_readok_cleared : ((live 0xF0000060).onRequest 0 codeRdRdbuff).ctrlStat = 0xF0000020 := by decide
theorem test_overrun : ({ live 0xF0000001 with busy := 1 }.onRequest 0 codeWrTar).ctrlStat = 0xF0000003 := by decide
theorem test_pushed_compare : wordsAfter ((live 0xF0000F08).apWrite 0 codeWrDrw 0x12345678) =
    (0x12345678, 0, 0xF0000F18, 0x20000004) := by decide
/-- Lane 0 differs and is not in the mask: a match, so pushed verify sets nothing. -/
theorem test_pushed_verify_masked : wordsAfter ((live 0xF0000E04).apWrite 0 codeWrDrw 0x123456FF) =
    (0x12345678, 0, 0xF0000E04, 0x20000004) := by decide
theorem test_transfer_count : wordsAfter ((live 0xF0001000).apWrite 0 codeWrDrw 0x55667788) =
    (0x55667788, 0x55667788, 0xF0000000, 0x20000008) := by decide
/-- The reference target stores the same CTRL/STAT fields and does not act on them (R65). -/
theorem test_reference_writes : wordsAfter ({ live 0xF0001F08 with statusLive := false }.apWrite 0 codeWrDrw 0x55667788) =
    (0x55667788, 0, 0xF0001F08, 0x20000004) := by decide
theorem test_protocol_error_effect :
    Memory.readByte (atWord.target.answerRaw 0 codeWrTar 0b111 [.memByte 0x1000 0x5A, .tar 4]).mem 0x1000 = 0x5A := by decide

/-! ## One step -/

theorem test_empty_inbox_waits : step State.reset = .next State.reset := rfl
theorem test_fetch_idcode : after (step (afterOpen.withFetchWord 8 0xA5)) (·.inbox) =
    some (.ack .ok, 0x2BA01477, 46, []) := by decide
/-- R392, V33: before the line is driven the first transaction faults. -/
theorem test_fetch_at_reset : faultOf (step (State.reset.withFetchWord 8 0xA5)) = some .phyMisuse := by decide

/-! ## Witnesses: concrete states and operands that meet the hypotheses of each statement, at the edges of its clauses -/

/-- `afterOpen` with this in its inbox. -/
def asked (r : Request) : State := { afterOpen with inbox := [r] }

/-- An operation ends with code 0. -/
def endsOk (x : Op Code) (s : State) : Bool := ended x s (fun c _ => c) == .ok .ok

theorem ok_of_endsOk {x : Op Code} {s : State} (h : endsOk x s = true) : ∃ t, x s = .ok (.ok, t) := by
  unfold endsOk ended at h
  split at h
  · rename_i c t he
    exact ⟨t, by rw [he, show c = .ok from by simpa using h]⟩
  · simp at h

/-- A step answers a next state. -/
def steps (s : State) : Bool :=
  match step s with
  | .next _ => true
  | _ => false

theorem next_of_steps {s : State} (h : steps s = true) : ∃ t, step s = .next t := by
  unfold steps at h
  split at h
  · exact ⟨_, by assumption⟩
  · simp at h

theorem ready_afterOpen : afterOpen.target.Ready := ⟨rfl, rfl, rfl, rfl, by decide, rfl⟩
theorem bank0_afterOpen : afterOpen.target.Bank0 := ⟨ready_afterOpen, by decide, by decide⟩
theorem listening_afterOpen : afterOpen.target.Listening := ⟨rfl, rfl, rfl, rfl⟩
theorem wordMode_tc1 : WordMode Params.tc1.cswWord := ⟨by decide, by decide⟩

theorem witness_DecodeInvertsEncode : Instr.rdDrw.wellFormed 0xE = true ∧ Instr.rdIdr.wellFormed 0xF = true ∧
    (Instr.wrTar 0xFFFFFFFF).wellFormed 0xF = true ∧ (Instr.hostReadMem32 0xFFFFFFFC 0xFFFF).wellFormed 0 = true := by
  decide

theorem witness_HeaderHasOneMeaning : decodeHeader 0xF 0x9F 0 = .ok .rdIdr ∧ decodeHeader 0xE 0x9F 0 = .ok .rdDrw ∧
    decodeHeader 0 0xBB 0xFFFFFFFF = .ok (.wrDrw 0xFFFFFFFF) ∧ isRead 0xBB = false := by decide

/-- V14, with the request of each clause in the inbox. -/
theorem witness_IllegalHeaderFaults :
    (0x95 : Byte) ∉ ([0xA5, 0x81, 0x8D, 0xA9, 0xB1, 0xBD, 0xA3, 0x8B, 0x9F, 0xBB] : List Byte) ∧
    (asked (.transaction 0x95 0)).inbox = [.transaction 0x95 0] ∧
    (asked (.call (.executeTransaction 0x95 0))).inbox = [.call (.executeTransaction 0x95 0)] :=
  ⟨by decide, rfl, rfl⟩

/-- The counts 33, 32 and 0, on a released and on a driven line. -/
theorem witness_ShiftOutDrivesBits :
    32 < 33 ∧ (32 ≤ 32 ∧ State.reset.oe = false) ∧ (32 ≤ 32 ∧ driven.oe = true) ∧ (0 ≤ 32 ∧ driven.oe = true) := by decide

theorem witness_ShiftInSamplesBits :
    32 < 33 ∧ (32 ≤ 32 ∧ driven.oe = true) ∧ (32 ≤ 32 ∧ State.reset.oe = false) ∧ (0 ≤ 32 ∧ State.reset.oe = false) := by
  decide

/-- RD_RDBUFF, the received word 0x12345678 with its right and with a wrong parity bit. -/
theorem witness_OkReadOfAnyTarget (p : Bool) :
    let levels := [true, true, false, false] ++ lsbBits 32 0x12345678 ++ [p, true] ++ []
    encode .rdRdbuff = .transaction 0xBD 0 ∧ isRead 0xBD = true ∧ (shows levels).oe = true ∧
      (shows levels).target.attached = false ∧ (shows levels).levels = levels :=
  ⟨rfl, rfl, rfl, rfl, rfl⟩

/-- WR_SELECT, the one write the model records, and WR_TAR. -/
theorem witness_OkWriteToAnyTarget :
    let levels := [true, true, false, false, false] ++ []
    encode (.wrSelect 0xF0) = .transaction 0xB1 0xF0 ∧ encode (.wrTar 0xF0) = .transaction 0x8B 0xF0 ∧
      isRead 0xB1 = false ∧ isRead 0x8B = false ∧ (shows levels).oe = true ∧
      (shows levels).target.attached = false ∧ (shows levels).levels = levels :=
  ⟨rfl, rfl, rfl, rfl, rfl, rfl, rfl⟩

theorem witness_WaitAndFaultEndAtOnce (fault : Bool) :
    let levels := [true, false, !fault, fault, true] ++ []
    encode .rdDrw = .transaction 0x9F 0 ∧ encode (.wrDrw 1) = .transaction 0xBB 1 ∧ (shows levels).oe = true ∧
      (shows levels).target.attached = false ∧ (shows levels).levels = levels :=
  ⟨rfl, rfl, rfl, rfl, rfl⟩

/-- A silent target on a line pulled high (V30). -/
theorem witness_ProtocolErrorDiscardsAPhase :
    let z := List.replicate 34 true
    let levels := [true, true, true, true] ++ z ++ []
    encode (.wrDrw 0xDEADBEEF) = .transaction 0xBB 0xDEADBEEF ∧ (shows levels).oe = true ∧
      (shows levels).target.attached = false ∧
      (true, true, true) ∉ [(true, false, false), (false, true, false), (false, false, true)] ∧ z.length = 34 ∧
      (shows levels).levels = levels :=
  ⟨rfl, rfl, rfl, by decide, rfl, rfl⟩

theorem witness_TransactionsComplete : encode .rdIdr = .transaction 0x9F 0 ∧ encode (.wrCsw 7) = .transaction 0xA3 7 ∧
    afterOpen.oe = true ∧ isRead 0xA3 = false ∧ isRead 0x9F = true := by decide

/-- Reset itself; the host read of the smallest and of an edge range. -/
theorem witness_ReleasedLineFaults : State.reset.oe = false ∧ encode .rdIdcode = .transaction 0xA5 0 ∧
    wordAligned 0xFFFFFFFC (4 : BitVec 16).toNat = true ∧ (4 : BitVec 16) ≠ 0 ∧ State.reset.params.xferBuf % 4 = 0 ∧
    0 < State.reset.params.xferBuf := by decide

/-- Four WAITs exhaust three retries (V37, V38); three WAITs and an OK do not (V36). -/
theorem witness_RetryIsBounded :
    let waits (n : Nat) := List.replicate n (true, false)
    isLegalCode 0x8D = true ∧ isLegalCode 0xB1 = true ∧ isRead 0x8D = true ∧ isRead 0xB1 = false ∧ afterOpen.oe = true ∧
      (waits 4).length = 3 + 1 ∧ (waits 3).length ≤ 3 ∧ (waits 0).length ≤ 3 ∧
      (shows ((waits 4).flatMap waitLevels ++ [])).levels = (waits 4).flatMap waitLevels ++ [] ∧
      (shows ((waits 3).flatMap waitLevels ++ [true, true, false, false] ++ lsbBits 32 5 ++ [parity32 5, true] ++ [])).levels =
        (waits 3).flatMap waitLevels ++ [true, true, false, false] ++ lsbBits 32 5 ++ [parity32 5, true] ++ [] ∧
      (shows ((waits 3).flatMap waitLevels ++ [true, true, false, false, true] ++ [])).levels =
        (waits 3).flatMap waitLevels ++ [true, true, false, false, true] ++ [] ∧
      (shows []).target.attached = false :=
  ⟨by decide, by decide, rfl, rfl, rfl, rfl, by decide, by decide, rfl, rfl, rfl, rfl⟩

/-- After a line reset, with every sticky flag set. -/
theorem witness_ReadIdcodeEffect :
    let s := withTarget fun t => { t with expectsIdcode := true, ctrlStat := 0xF00000B2 }
    s.oe = true ∧ s.target.attached = true ∧ s.target.protocol = .swd ∧ s.target.answers = [] :=
  ⟨rfl, rfl, rfl, rfl⟩

theorem witness_WriteAbortEffect :
    let s := withTarget fun t => { t with ctrlStat := 0xF00000B2 }
    s.oe = true ∧ s.target.Listening :=
  ⟨rfl, ⟨rfl, rfl, rfl, rfl⟩⟩

/-- Each state of the power-up delay: none running, two reads left, one, none left. -/
theorem witness_ReadCtrlStatEffect (left : Option Nat) :
    let s := withTarget fun t => { t with pwrLeft := left, ctrlStat := 0x50000000 }
    s.oe = true ∧ s.target.Listening ∧ dpBankSel s.target.select = 0 ∧ s.target.pwrLeft = left :=
  ⟨rfl, ⟨rfl, rfl, rfl, rfl⟩, (by decide : dpBankSel 0 = 0), rfl⟩

theorem witness_ReadCtrlStatEffect_clauses : (1 < 2 ∧ some 2 = some 2) ∧ (1 ≤ 1 ∧ some 1 = some 1) ∧ 0 ≤ 1 := by decide

/-- Each power-up delay: at once, after two reads, never. -/
theorem witness_WriteCtrlStatEffect (delay : Option Nat) :
    let s := withTarget fun t => { t with pwrDelay := delay }
    s.oe = true ∧ s.target.Listening ∧ dpBankSel s.target.select = 0 ∧ s.target.pwrDelay = delay :=
  ⟨rfl, ⟨rfl, rfl, rfl, rfl⟩, (by decide : dpBankSel 0 = 0), rfl⟩

theorem witness_WriteCtrlStatEffect_clauses : some 0 = some 0 ∧ some 2 ≠ some 0 ∧ (none : Option Nat) ≠ some 0 := by decide

theorem witness_WriteSelectEffect : afterOpen.oe = true ∧ afterOpen.target.Listening := ⟨rfl, listening_afterOpen⟩

theorem witness_ReadRdbuffEffect : afterOpen.oe = true ∧ afterOpen.target.Ready := ⟨rfl, ready_afterOpen⟩

theorem witness_WriteCswEffect : afterOpen.oe = true ∧ afterOpen.target.Bank0 := ⟨rfl, bank0_afterOpen⟩

theorem witness_WriteTarEffect : afterOpen.oe = true ∧ afterOpen.target.Bank0 := ⟨rfl, bank0_afterOpen⟩

theorem plain_atWord : atWord.target.Plain atWord.target.tar := ⟨by decide, by decide, by decide, by decide⟩

theorem bank0_atWord : atWord.target.Bank0 := ⟨⟨rfl, rfl, rfl, rfl, by decide, rfl⟩, by decide, by decide⟩

/-- `atWord` at the last word of its page, with no increment. -/
def atWordStay : State := withTarget fun t => { t with tar := 0x200003FC, csw := 0x23000002 }

theorem bank0_drw : atWordStay.target.Bank0 ∧ atByte.target.Bank0 ∧ atByteInc.target.Bank0 :=
  ⟨⟨⟨rfl, rfl, rfl, rfl, by decide, rfl⟩, by decide, by decide⟩,
    ⟨⟨rfl, rfl, rfl, rfl, by decide, rfl⟩, by decide, by decide⟩,
    ⟨⟨rfl, rfl, rfl, rfl, by decide, rfl⟩, by decide, by decide⟩⟩

/-- Normal transfer mode of a target that acts on TRNMODE and of one that does not, and a pushed transfer. -/
theorem witness_WriteDrwEffect_modes :
    atWord.target.normalTransfer = true ∧ atWordStay.target.normalTransfer = true ∧ atByte.target.normalTransfer = true ∧
      atByteInc.target.normalTransfer = true ∧ (live 0xF0000F40).normalTransfer = true := by decide

theorem witness_WriteDrwEffect_pushed (ctrlStat : Word) (h : ctrlStat = 0xF0000F08 ∨ ctrlStat = 0xF0000104) :
    let s := withTarget fun _ => live ctrlStat
    s.oe = true ∧ s.target.Bank0 ∧ Memory.wf s.target.mem ∧ s.target.statusLive = true ∧ trnCnt s.target.ctrlStat = 0 ∧
      cswSize s.target.csw = 0b010#3 ∧ s.target.Plain s.target.tar ∧
      (trnMode s.target.ctrlStat = 0b01#2 ∨ trnMode s.target.ctrlStat = 0b10#2) := by
  rcases h with rfl | rfl
  · exact ⟨rfl, ⟨⟨rfl, rfl, rfl, rfl, by decide, rfl⟩, by decide, by decide⟩, by decide, rfl, by decide, by decide,
      ⟨by decide, by decide, by decide, by decide⟩, by decide⟩
  · exact ⟨rfl, ⟨⟨rfl, rfl, rfl, rfl, by decide, rfl⟩, by decide, by decide⟩, by decide, rfl, by decide, by decide,
      ⟨by decide, by decide, by decide, by decide⟩, by decide⟩

/-- Word and byte accesses, with single increment and with none, the last word and the last byte of a page among them. -/
theorem witness_WriteDrwEffect :
    (atWord.oe = true ∧ atWord.target.Bank0 ∧ Memory.wf atWord.target.mem ∧ cswSize atWord.target.csw = 0b010#3 ∧
      atWord.target.Plain atWord.target.tar ∧ cswAddrInc atWord.target.csw = 0b01#2) ∧
    (atWordStay.oe = true ∧ atWordStay.target.Bank0 ∧ Memory.wf atWordStay.target.mem ∧
      cswSize atWordStay.target.csw = 0b010#3 ∧ atWordStay.target.Plain atWordStay.target.tar ∧
      cswAddrInc atWordStay.target.csw = 0b00#2) ∧
    (atByte.oe = true ∧ atByte.target.Bank0 ∧ Memory.wf atByte.target.mem ∧ cswSize atByte.target.csw = 0b000#3 ∧
      atByte.target.busError atByte.target.tar = false ∧ cswAddrInc atByte.target.csw = 0b00#2) ∧
    (atByteInc.oe = true ∧ atByteInc.target.Bank0 ∧ Memory.wf atByteInc.target.mem ∧
      cswSize atByteInc.target.csw = 0b000#3 ∧ atByteInc.target.busError atByteInc.target.tar = false ∧
      cswAddrInc atByteInc.target.csw = 0b01#2) :=
  ⟨⟨rfl, bank0_atWord, by decide, by decide, plain_atWord, by decide⟩,
    ⟨rfl, bank0_drw.1, by decide, by decide, ⟨by decide, by decide, by decide, by decide⟩, by decide⟩,
    ⟨rfl, bank0_drw.2.1, by decide, by decide, by decide, by decide⟩,
    ⟨rfl, bank0_drw.2.2, by decide, by decide, by decide, by decide⟩⟩

/-- The same states; RDBUFF is not stale in them. -/
theorem witness_ReadDrwEffect :
    (atWord.oe = true ∧ atWord.target.Bank0 ∧ cswSize atWord.target.csw = 0b010#3 ∧
      atWord.target.Plain atWord.target.tar ∧ cswAddrInc atWord.target.csw = 0b01#2 ∧ atWord.target.stale = false) ∧
    (atWordStay.oe = true ∧ atWordStay.target.Bank0 ∧ cswSize atWordStay.target.csw = 0b010#3 ∧
      atWordStay.target.Plain atWordStay.target.tar ∧ cswAddrInc atWordStay.target.csw = 0b00#2) ∧
    (atByte.oe = true ∧ atByte.target.Bank0 ∧ cswSize atByte.target.csw = 0b000#3 ∧
      atByte.target.busError atByte.target.tar = false ∧ cswAddrInc atByte.target.csw = 0b00#2 ∧
      atByte.target.stale = false) ∧
    (atByteInc.oe = true ∧ atByteInc.target.Bank0 ∧ cswSize atByteInc.target.csw = 0b000#3 ∧
      atByteInc.target.busError atByteInc.target.tar = false ∧ cswAddrInc atByteInc.target.csw = 0b01#2) :=
  ⟨⟨rfl, bank0_atWord, by decide, plain_atWord, by decide, rfl⟩,
    ⟨rfl, bank0_drw.1, by decide, ⟨by decide, by decide, by decide, by decide⟩, by decide⟩,
    ⟨rfl, bank0_drw.2.1, by decide, by decide, by decide, rfl⟩,
    ⟨rfl, bank0_drw.2.2, by decide, by decide, by decide⟩⟩

theorem witness_ReadIdrEffect :
    let s := withTarget fun t => { t with select := 0xF0 }
    s.oe = true ∧ s.target.Ready ∧ apSel s.target.select = 0 ∧ apBankSel s.target.select = 0xF ∧ s.target.stale = false :=
  ⟨rfl, ⟨rfl, rfl, rfl, rfl, by decide, rfl⟩, by decide, by decide, rfl⟩

theorem witness_StickyFlagBlocksTheAp :
    let s := withTarget fun t => { t with ctrlStat := 0xF0000002 }
    encode .rdRdbuff = .transaction 0xBD 0 ∧ blockable 0xBD = true ∧ encode (.wrTar 4) = .transaction 0x8B 4 ∧
      blockable 0x8B = true ∧ s.oe = true ∧ s.target.Listening ∧ stickySet s.target.ctrlStat = true :=
  ⟨rfl, rfl, rfl, rfl, rfl, ⟨rfl, rfl, rfl, rfl⟩, by decide⟩

theorem witness_BusyApAnswersWait :
    let s := withTarget fun t => { t with busy := 1 }
    encode .rdDrw = .transaction 0x9F 0 ∧ blockable 0x9F = true ∧ s.oe = true ∧ s.target.Listening ∧
      stickySet s.target.ctrlStat = false ∧ s.target.busy ≠ 0 :=
  ⟨rfl, rfl, rfl, ⟨rfl, rfl, rfl, rfl⟩, by decide, by decide⟩

theorem witness_BusErrorSetsStickyErr :
    let s := withTarget fun t => { t with tar := 0x40000003, busErrors := [0x40000000] }
    s.oe = true ∧ s.target.Bank0 ∧ s.target.busError s.target.tar = true ∧ s.target.stale = false :=
  ⟨rfl, ⟨⟨rfl, rfl, rfl, rfl, by decide, rfl⟩, by decide, by decide⟩, by decide, rfl⟩

theorem witness_WrongBankMissesTheRegisters :
    let s := withTarget fun t => { t with select := 0xF0 }
    Instr.wrDrw 1 ∈ [Instr.wrCsw 1, Instr.wrTar 1, Instr.wrDrw 1] ∧ s.oe = true ∧ s.target.Ready ∧
      apSel s.target.select = 0 ∧ apBankSel s.target.select = 0xF :=
  ⟨by decide, rfl, ⟨rfl, rfl, rfl, rfl, by decide, rfl⟩, by decide, by decide⟩

theorem witness_ClearErrorCompletes : afterOpen.oe = true ∧ Ack.protocolError 0b101#3 ≠ .ok ∧
    Ack.protocolError 0b101#3 ≠ .parityError ∧ Ack.protocolError 0b101#3 ≠ .protocolError 0b000#3 := by decide

/-- V51: a set STICKYERR cleared. -/
theorem witness_ClearedErrorEndsWithCswWrite : Ack.fault ≠ .ok ∧
    ∃ t, clearError .fault (withTarget fun t => { t with ctrlStat := 0xF0000020 }) = .ok (.ok, t) :=
  ⟨by decide, ok_of_endsOk (by decide +kernel)⟩

theorem witness_RecoveryClearsTheReferenceTarget :
    let s := withTarget fun t => { t with ctrlStat := 0xF00000B2 }
    s.oe = true ∧ Ack.wait ≠ .ok ∧ Ack.wait ≠ .parityError ∧ Ack.wait ≠ .protocolError 0b000#3 ∧ s.target.Listening ∧
      s.target.busy = 0 ∧ s.target.pwrLeft = none ∧ apSel s.target.select = 0 ∧ apBankSel s.target.select = 0 :=
  ⟨rfl, by decide, by decide, by decide, ⟨rfl, rfl, rfl, rfl⟩, rfl, rfl, by decide, by decide⟩

/-- V60. -/
theorem witness_ClearedFaultReportsSuccess :
    let s := withTarget fun t => { t with answers := [.fault] }
    s.oe = true ∧ s.target.attached = true ∧ s.target.protocol = .swd ∧ s.target.expectsIdcode = false ∧
      s.target.answers = [.fault] ∧ s.target.busy = 0 ∧ s.target.pwrLeft = none ∧ apSel s.target.select = 0 ∧
      apBankSel s.target.select = 0 :=
  ⟨rfl, rfl, rfl, rfl, rfl, rfl, rfl, by decide, by decide⟩

/-- V63b: a chunk that ends on a page boundary and the one after it. -/
theorem witness_ChunksTileTheRange : (chunks 0x200003FC 16)[0]? = some (0x200003FC, 4) ∧
    (chunks 0x200003FC 16)[1]? = some (0x20000400, 12) ∧ 1 ≠ 0 ∧ 0 + 1 < (chunks 0x200003FC 16).length := by decide

/-- V64a to V64f, at the edges: one byte off, one word over the page, nothing at all. -/
theorem witness_WordOperationPreconditions :
    ((0x20000001 : Word).toNat % 4 ≠ 0) ∧ (6 % 4 ≠ 0) ∧
    ((0x200003FC : Word).toNat % 4 = 0 ∧ 8 % 4 = 0 ∧ 1024 < (0x200003FC : Word).toNat % 1024 + 8) ∧
    ((0x20000000 : Word).toNat % 4 = 0 ∧ 1028 % 4 = 0 ∧ 1024 < (0x20000000 : Word).toNat % 1024 + 1028) ∧
    (List.replicate 8 (0 : Byte)).length % 4 = 0 ∧ (4 : BitVec 16) ≠ 0 ∧ 0 < afterOpen.params.xferBuf ∧
    ((0x20000000 : Word).toNat % 4 = 0 ∧ (0x0041 : BitVec 16).toNat % 4 ≠ 0 ∧ (0x0002 : BitVec 16).toNat % 4 ≠ 0 ∧
      afterOpen.params.xferBuf % 4 = 0 ∧ afterOpen.oe = true) := by decide

/-- Eight bytes across a page boundary are plain memory. -/
theorem plain_range (t : Target) (ht : t.busErrors = []) : ∀ k < 8, t.Plain (0x200003FC + BitVec.ofNat 32 k) := by
  intro k hk
  refine ⟨by simp [Target.busError, ht], ?_, ?_, ?_⟩ <;> revert k <;> decide

/-- P4, with 8 bytes. -/
theorem witness_WriteMem32StoresTheBuffer :
    let buf : List Byte := [0xA0, 0xA1, 0xA2, 0xA3, 0xA4, 0xA5, 0xA6, 0xA7]
    afterOpen.oe = true ∧ afterOpen.target.Bank0 ∧ afterOpen.target.normalTransfer = true ∧
      WordMode afterOpen.params.cswWord ∧ Memory.wf afterOpen.target.mem ∧ (0x200003FC : Word).toNat % 4 = 0 ∧ buf.length % 4 = 0 ∧ buf.length ≤ 2 ^ 32 ∧
      (∀ k < buf.length, afterOpen.target.Plain (0x200003FC + BitVec.ofNat 32 k)) ∧ buf[7]? = some 0xA7 :=
  ⟨rfl, bank0_afterOpen, rfl, wordMode_tc1, by decide, by decide, rfl, by decide, plain_range _ rfl, rfl⟩

theorem witness_ReadAfterWriteReturnsTheBuffer :
    let buf : List Byte := [0xA0, 0xA1, 0xA2, 0xA3, 0xA4, 0xA5, 0xA6, 0xA7]
    afterOpen.oe = true ∧ afterOpen.target.Bank0 ∧ afterOpen.target.normalTransfer = true ∧
      WordMode afterOpen.params.cswWord ∧ Memory.wf afterOpen.target.mem ∧ (0x200003FC : Word).toNat % 4 = 0 ∧ buf.length % 4 = 0 ∧ buf.length ≤ 2 ^ 32 ∧
      (∀ k < buf.length, afterOpen.target.Plain (0x200003FC + BitVec.ofNat 32 k)) :=
  ⟨rfl, bank0_afterOpen, rfl, wordMode_tc1, by decide, by decide, rfl, by decide, plain_range _ rfl⟩

/-- V72's first and last byte lanes. -/
theorem witness_WriteMem8StoresTheBytes :
    let buf : List Byte := [0x11, 0x22, 0x33, 0x44]
    afterOpen.oe = true ∧ afterOpen.target.Bank0 ∧ afterOpen.target.normalTransfer = true ∧
      cswSize afterOpen.params.cswByte = 0b000#3 ∧
      Memory.wf afterOpen.target.mem ∧ buf.length ≤ 2 ^ 32 ∧
      (∀ k < buf.length, afterOpen.target.busError (0x1000 + BitVec.ofNat 32 k) = false) ∧
      buf[0]? = some 0x11 ∧ buf[3]? = some 0x44 :=
  ⟨rfl, bank0_afterOpen, rfl, by decide, by decide, by decide, fun _ _ => rfl, rfl, rfl⟩

/-- V74: an 8-bit write of nothing, which ends with code 0; an 8-bit read of nothing does too. -/
theorem witness_ByteOperationsRestoreCsw : (∃ t, writeMem8 0x1000 [] afterOpen = .ok (.ok, t)) ∧
    ended (readMem8 0x1000 0) afterOpen (fun r _ => r) = .ok (.ok, []) :=
  ⟨ok_of_endsOk (by decide +kernel), by decide +kernel⟩

theorem witness_ReadCoreRegReturnsTheRegister : afterOpen.oe = true ∧ afterOpen.target.Bank0 ∧
    afterOpen.target.normalTransfer = true ∧
    WordMode afterOpen.params.cswWord ∧ 1 ≤ afterOpen.params.regPollMax ∧ afterOpen.target.regDelay = some 0 ∧
    afterOpen.target.busErrors = [] :=
  ⟨rfl, bank0_afterOpen, rfl, wordMode_tc1, by decide, rfl, rfl⟩

theorem witness_WriteCoreRegSetsTheRegister : afterOpen.oe = true ∧ afterOpen.target.Bank0 ∧
    afterOpen.target.normalTransfer = true ∧
    WordMode afterOpen.params.cswWord ∧ 1 ≤ afterOpen.params.regPollMax ∧ afterOpen.target.regDelay = some 0 ∧
    afterOpen.target.busErrors = [] ∧ SparseWf 0 afterOpen.target.coreRegs :=
  ⟨rfl, bank0_afterOpen, rfl, wordMode_tc1, by decide, rfl, rfl, by decide⟩

theorem witness_RegisterTimeoutIsSoft :
    let s := withTarget fun t => { t with regDelay := none }
    s.oe = true ∧ s.target.Bank0 ∧ s.target.normalTransfer = true ∧ WordMode s.params.cswWord ∧
      s.target.regDelay = none ∧ s.target.busErrors = [] :=
  ⟨rfl, ⟨⟨rfl, rfl, rfl, rfl, by decide, rfl⟩, by decide, by decide⟩, rfl, wordMode_tc1, rfl, rfl⟩

theorem witness_SwitchSequenceEffect : afterOpen.oe = true := rfl

/-- Reset itself (P1). -/
theorem witness_OpenOnTheReferenceTarget : State.reset.target.attached = true ∧ State.reset.target.answers = [] ∧
    State.reset.target.busy = 0 ∧ State.reset.target.pwrDelay = some 0 ∧ State.reset.target.busErrors = [] ∧
    WordMode State.reset.params.cswWord ∧ 1 ≤ State.reset.params.pwrPollMax ∧
    (State.reset.params.idrCheck = true → State.reset.target.idr ≠ 0) :=
  ⟨rfl, rfl, rfl, rfl, rfl, wordMode_tc1, by decide, fun _ => by decide⟩

theorem witness_CloseReleasesTheLine : afterOpen.oe = true := rfl

theorem witness_HostReadAlwaysEnds : afterOpen.oe = true ∧ wordAligned 0xFFFFFFFC (0xFFFC : BitVec 16).toNat = true ∧
    wordAligned 0 (0 : BitVec 16).toNat = true ∧ afterOpen.params.xferBuf % 4 = 0 ∧ 0 < afterOpen.params.xferBuf := by decide

theorem witness_HostReadReturnsMemory : afterOpen.oe = true ∧ afterOpen.target.Bank0 ∧
    WordMode afterOpen.params.cswWord ∧ wordAligned 0x200003FC (8 : BitVec 16).toNat = true ∧
    wordAligned 0x200003FC (0 : BitVec 16).toNat = true ∧ afterOpen.params.xferBuf % 4 = 0 ∧
    0 < afterOpen.params.xferBuf ∧
    (∀ k < (8 : BitVec 16).toNat, afterOpen.target.Plain (0x200003FC + BitVec.ofNat 32 k)) :=
  ⟨rfl, bank0_afterOpen, wordMode_tc1, by decide, by decide, by decide, by decide, plain_range _ rfl⟩

/-- A sub-chunk that the layer reads, and one against a line held low. -/
theorem witness_LatchFollowsTheSubChunk :
    ended (layerOp .r32 0x20000000 4) afterOpen (fun r _ => r.1) = .ok .ok ∧
    ended (layerOp .r32 0x20000000 4) (shows (List.replicate 120 false)) (fun r _ => r.1) = .ok .soft :=
  ⟨by decide +kernel, by decide +kernel⟩

/-- V94, both packets. -/
theorem witness_UnsupportedPacket :
    let c := afterOpen.params.codes
    ((0x00 : Byte) ∉ [0xF2, c.getVersion, c.dfu, c.getMode, c.getTargetVoltage]) ∧
    (0x99 : Byte) ∉ [0x07, c.writeMem32, c.readMem8, c.writeMem8, c.enterSwd, c.exitDebug, c.readCoreId, c.readReg,
      c.writeReg, c.readAllRegs, c.getLastRwStatus] ∧
    (0x00 :: 0x07 :: List.replicate 14 (0 : Byte)).length = 16 ∧
    (0xF2 :: 0x99 :: List.replicate 14 (0 : Byte)).length = 16 := by decide

/-- V93, and the packet of V99. -/
theorem witness_StatusCommands : afterOpen.params.codes.wf ∧
    (0xF2 :: 0x22 :: List.replicate 14 (0 : Byte)).length = 16 ∧ (0x22 : Byte) = afterOpen.params.codes.readCoreId ∧
    (0x3B : Byte) = afterOpen.params.codes.getLastRwStatus := by decide

/-- V92. -/
theorem witness_EnterSwdCommand : State.reset.params.codes.wf ∧
    (0xF2 :: 0x30 :: List.replicate 14 (0 : Byte)).length = 16 ∧ (0x30 : Byte) = State.reset.params.codes.enterSwd := by
  decide

theorem witness_StepRunsTheDecodedInstruction : State.reset.inbox = [] ∧
    (asked (.transaction 0xBB 7)).inbox = [.transaction 0xBB 7] ∧
    decode afterOpen.params.codes (apBankSel afterOpen.target.select) (.transaction 0xBB 7) = .ok (.instr (.wrDrw 7)) ∧
    (Instr.wrDrw 7).wellFormed (apBankSel afterOpen.target.select) = true :=
  ⟨rfl, rfl, by decide, by decide⟩

theorem targetInv_afterOpen : afterOpen.target.Inv := ⟨by decide, by decide, by decide, by decide⟩

theorem inv_asked (r : Request) : (asked r).Inv where
  wire := ⟨fun _ h => (by cases h), fun h => absurd rfl h, fun _ h => (by cases h)⟩
  target := targetInv_afterOpen
  session := (by decide : Session.opened ≠ .connecting)

theorem witness_StepKeepsTheInvariant : (asked (.transaction 0xBB 7)).Inv ∧
    ∃ t, step (asked (.transaction 0xBB 7)) = .next t :=
  ⟨inv_asked _, next_of_steps (by decide +kernel)⟩

theorem witness_StepOnlyAppendsToTheTrace : ∃ t, step (asked (.transaction 0xBB 7)) = .next t :=
  next_of_steps (by decide +kernel)

theorem witness_OnlyHostCommandsWriteTheLatch : (asked (.transaction 0xBB 7)).inbox = [.transaction 0xBB 7] ∧
    (∃ t, step (asked (.transaction 0xBB 7)) = .next t) ∧ (∀ pkt, Request.transaction 0xBB 7 ≠ .packet pkt) ∧
    Request.transaction 0xBB 7 ≠ .call .openSession ∧ Request.transaction 0xBB 7 ≠ .call .closeSession :=
  ⟨rfl, next_of_steps (by decide +kernel), fun _ h => (by cases h), by decide, by decide⟩

/-- The packet clauses: ReadReg, which is none of the commands shut out, and WriteMem8, which writes the latch and no mode. -/
theorem witness_OnlyHostCommandsWriteTheLatch_packets :
    let readReg := Request.packet (0xF2 :: 0x33 :: List.replicate 14 (0 : Byte))
    let writeMem8 := Request.packet (0xF2 :: 0x0D :: List.replicate 14 (0 : Byte))
    (∃ t, step (asked readReg) = .next t) ∧ (∃ t, step (asked writeMem8) = .next t) ∧
      (asked readReg).decodeRequest readReg = .ok (.command (.readReg 0)) ∧
      (∀ a n, Decoded.command (.readReg 0) ∉ [.instr (.hostReadMem32 a n), .command (.writeMem32 a n),
        .command (.readMem8 a n), .command (.writeMem8 a n)]) ∧
      Decoded.command (.readReg 0) ∉ [.command .enterSwd, .command .exitDebug, .operation .openSession,
        .operation .closeSession] ∧
      (asked writeMem8).decodeRequest writeMem8 = .ok (.command (.writeMem8 0 0)) ∧
      Decoded.command (.writeMem8 0 0) ≠ .command .enterSwd :=
  ⟨next_of_steps (by decide +kernel), next_of_steps (by decide +kernel), by decide, fun _ _ => by simp, by decide,
    by decide, by decide⟩

end Sys2Proof.Tests
end

/-! PROOF. RD_IDCODE against the reference target (10_state R63, R70, R71): the one read that sticky flags, a busy AP and the
wait after a line reset do not hold back. -/

namespace Sys2Proof.Proofs

open Sys2Proof Sys2Proof.Machine Sys2Proof.Laws

/-! ## One transaction as an instruction (10_state R44, log 7) -/

/-- What leaves everything above the wire alone still does so once the data cell and the result are written. -/
theorem endsWith_of_wireOnly {s t : State} (h : WireOnly s t) (d : Word) (r : OpResult) :
    EndsWith s ((t.setData d).setResult r) d r :=
  { h with data := rfl, result := rfl }

/-- A read instruction whose header the reference target answers OK. -/
theorem exec_okRead {i : Instr} {h : Byte} {d : Word} {s : State} (he : encode i = .transaction h d)
    (hr : isRead h = true) (ho : s.oe = true) (ha : AnswersOk s.target h) :
    ∃ t, exec i s = .next t ∧ t.oe = true ∧
      EndsWith s t ((heard h s.target).performRead s.draws h).1 (.ack .ok) ∧
      t.target = wasRead s.draws h s.target := by
  obtain ⟨_, t, hrun, rfl, htarget, hoe, hwire⟩ := ok_read s.data (legal_of_encode he) ho hr ha
  have hexec : exec i s = (transact h s.data).outcome s := by rw [exec_transact he, if_pos hr]
  exact ⟨_, hexec.trans (outcome_transact hrun), hoe, endsWith_of_wireOnly hwire _ _, htarget⟩

/-! ## IDCODE at the reference target -/

/-- Sticky flags and a busy AP hold back AP transactions and RDBUFF reads only (10_state R67, R69). -/
theorem naturalAck_of_not_blockable {code : Byte} (hb : blockable code = false) (t : Target) :
    t.naturalAck code = .ok := by
  simp [Target.naturalAck, hb]

/-- A port that speaks SWD hears a read of IDCODE, after a line reset or not (10_state R71). -/
theorem deaf_rdIdcode {t : Target} (hp : t.protocol = .swd) : t.deaf codeRdIdcode = false := by
  simp [Target.deaf, hp]

theorem answersOk_rdIdcode {t : Target} (hat : t.attached = true) (hp : t.protocol = .swd) (han : t.answers = []) :
    AnswersOk t codeRdIdcode where
  attached := hat
  hears := deaf_rdIdcode hp
  answers := han
  ack := naturalAck_of_not_blockable (by decide) t

/-- A DP read of IDCODE gives the IDCODE and changes no register (10_state R63). -/
theorem performRead_rdIdcode (n : Nat) (t : Target) : t.performRead n codeRdIdcode = (t.idcode, t) := by
  unfold Target.performRead
  rw [if_neg (by decide), if_pos rfl]

theorem wasRead_rdIdcode (n : Nat) (t : Target) :
    wasRead n codeRdIdcode t = { t.settled with expectsIdcode := false } := by
  unfold wasRead
  rw [performRead_rdIdcode]
  rfl

/-- Settles O14: the reference target answers an IDCODE read OK whatever its sticky flags and its AP, so the instruction is an
OK read, of which only the end of the wait for IDCODE is left at the target. -/
theorem readIdcodeEffect : Obligations.ReadIdcodeEffect := by
  intro s ho hat hp han
  obtain ⟨t, hexec, hoe, hends, htarget⟩ :=
    exec_okRead (i := .rdIdcode) rfl (by decide) ho (answersOk_rdIdcode hat hp han)
  rw [performRead_rdIdcode] at hends
  rw [wasRead_rdIdcode] at htarget
  exact ⟨t, hexec, hoe, hends, htarget⟩

end Sys2Proof.Proofs

/-! PROOF. An OK read against an arbitrary target (30_encoding R131, R135; 41_transaction R180): the 38 bits it shows say
everything the exchange leaves behind. -/

namespace Sys2Proof.Proofs

open Sys2Proof Sys2Proof.Machine Sys2Proof.Laws

/-! ## The bits sampled in an OK read -/

/-- What the core samples in an OK read (30_encoding R135): turnaround, ACK 1 0 0, the word, its parity bit, turnaround. -/
def okReadBits (x : Bool) (w : Word) (p y : Bool) : List Bool := [x, true, false, false] ++ lsbBits 32 w ++ [p, y]

@[simp] theorem okReadBits_length (x : Bool) (w : Word) (p y : Bool) : (okReadBits x w p y).length = 38 := by
  simp [okReadBits]

/-- The ACK of a run of samples is that of its first four bits, 1 0 0 being OK (30_encoding R130). -/
theorem ackOf_okBits (x : Bool) (bs : List Bool) : ackOf (x :: true :: false :: false :: bs) = .ok := by
  show classifyAck ((assemble [true, false, false]).setWidth 3) = .ok
  decide

@[simp] theorem ackOf_okReadBits (x : Bool) (w : Word) (p y : Bool) : ackOf (okReadBits x w p y) = .ok :=
  ackOf_okBits x (lsbBits 32 w ++ [p, y])

@[simp] theorem wordOf_okReadBits (x : Bool) (w : Word) (p y : Bool) : wordOf (okReadBits x w p y) = w := by
  have hword : ((okReadBits x w p y).drop 4).take 32 = lsbBits 32 w := List.take_left' (lsbBits_length 32 w)
  rw [wordOf, hword, assemble_lsbBits]

@[simp] theorem parityOf_okReadBits (x : Bool) (w : Word) (p y : Bool) : parityOf (okReadBits x w p y) = p := by
  have hpar : (okReadBits x w p y).drop 36 = [p, y] := List.drop_left' (by simp)
  rw [parityOf, hpar]
  exact assemble_single p

theorem phaseOf_read {h : Byte} (hr : isRead h = true) : phaseOf h .ok = .read := if_pos hr

/-- The Ack and the data cell of an OK read: the word received, and an Ack that its parity bit decides (30_encoding R131). -/
theorem answer_okReadBits (d : Word) (x : Bool) (w : Word) (p y : Bool) :
    Phase.read.answer d (okReadBits x w p y) = (if p = parity32 w then .ok else .parityError, w) := by
  simp only [Phase.answer, wordOf_okReadBits, parityOf_okReadBits]

/-! ## The exchange and the instruction -/

/-- `s` after an OK read of an arbitrary target that showed `bs`, with the levels `rest` and the draw counter `n` left: the
line is driven again and only wire fields have changed. -/
def afterOkRead (h : Byte) (bs rest : List Bool) (n : Nat) (s : State) : State := { s with
  clk := true
  dout := true
  oe := true
  trace := s.trace ++ (lsbBits 8 (h.setWidth 32)).map WireCell.driven ++ bs.map WireCell.sampled
  target := { s.target with drive := [] }
  levels := rest
  draws := n }

theorem executeTransaction_okRead {h : Byte} (hl : isLegalCode h = true) (hr : isRead h = true) (d : Word) {s : State}
    (ho : s.oe = true) (ha : s.target.attached = false) {x p y : Bool} {w : Word} {rest : List Bool}
    (hlv : s.levels = okReadBits x w p y ++ rest) :
    ∃ n, executeTransaction h d s = .ok ((if p = parity32 w then .ok else .parityError, w),
      afterOkRead h (okReadBits x w p y) rest n s) := by
  have hphase : phaseOf h (ackOf (okReadBits x w p y)) = .read := by rw [ackOf_okReadBits, phaseOf_read hr]
  obtain ⟨n, hrun⟩ := executeTransaction_scripted hl d ho ha _ rest hlv (by simp) (by rw [hphase]; simp [Phase.samples])
  rw [hphase, answer_okReadBits] at hrun
  exact ⟨n, hrun⟩

/-- Settles O7: each read is one transaction, and the scripted exchange with the bits of an OK read gives its whole next
state; the line was driven before it and is driven after it. -/
theorem okReadOfAnyTarget : Obligations.OkReadOfAnyTarget := by
  intro i h d s w x p y rest he hr ho ha hlv
  obtain ⟨n, hrun⟩ := executeTransaction_okRead (legal_of_encode he) hr s.data ho ha hlv
  have hexec : exec i s = (transact h s.data).outcome s := by rw [exec_transact he, if_pos hr]
  refine ⟨n, ?_⟩
  rw [hexec, outcome_transact hrun, ho]
  rfl

end Sys2Proof.Proofs

/-! PROOF. The two shifts of the Bit-Level PHY (40_phy R164, R165): the faults are read off what each shift answers, the rest
off what a run of bit cells leaves. -/

namespace Sys2Proof.Proofs

open Sys2Proof Sys2Proof.Machine Sys2Proof.Laws

/-! ## Shifting out (40_phy R164) -/

/-- The bit that stays on the line: the last one sent, or the old level when none was (40_phy R164, R166). -/
theorem lsbBits_getLastD (n : Nat) (v : Word) (b : Bool) :
    (lsbBits n v).getLastD b = if n = 0 then b else v.getLsbD (n - 1) := by
  cases n with
  | zero => rfl
  | succ n => simp [lsbBits, List.range_succ]

/-- Settles O5: the order of the checks gives the two faults, and a run of out-cells is known as a whole. -/
theorem shiftOutDrivesBits : Obligations.ShiftOutDrivesBits := by
  intro v n s
  refine ⟨fun hn => ?_, fun hn ho => ?_, fun hn ho => ?_⟩
  · rw [op_shiftOutBits, if_pos hn]
  · rw [op_shiftOutBits, if_neg (by omega), if_pos ho]
  · rw [shiftOutBits_ok hn ho, outCells_eq, lsbBits_getLastD]
    simp [lsbBits]

/-! ## Shifting in (40_phy R165) -/

/-- A bit of the assembled word is the sample of that index, 0 where there is none. -/
theorem getLsbD_assemble_of_length_le {bs : List Bool} (hn : bs.length ≤ 32) (k : Nat) :
    (assemble bs).getLsbD k = bs.getD k false := by
  by_cases hk : k < 32
  · exact getLsbD_assemble bs k hk
  · rw [BitVec.getLsbD_of_ge _ _ (by omega), List.getD_eq_default _ _ (by omega)]

theorem lsbBits_assemble {bs : List Bool} (hn : bs.length ≤ 32) : lsbBits bs.length (assemble bs) = bs := by
  apply List.ext_getElem (lsbBits_length _ _)
  intro k _ hk
  rw [lsbBits_getElem, getLsbD_assemble_of_length_le hn, List.getD_eq_getElem _ _ hk]

/-- The trace records of the samples are those of the low bits of the assembled word, in order. -/
theorem map_sampled_assemble {bs : List Bool} (hn : bs.length ≤ 32) :
    (List.range bs.length).map (fun k => WireCell.sampled ((assemble bs).getLsbD k)) = bs.map WireCell.sampled := by
  conv_rhs => rw [← lsbBits_assemble hn, lsbBits, List.map_map]
  rfl

/-- Settles O6: the order of the checks gives the two faults; the assembled word has the samples of the run of in-cells as
its low bits, so what is known of the run is known of the word. -/
theorem shiftInSamplesBits : Obligations.ShiftInSamplesBits := by
  intro n s
  refine ⟨fun hn => ?_, fun hn ho => ?_, fun hn ho => ?_⟩
  · rw [op_shiftInBits, if_pos hn]
  · rw [op_shiftInBits, if_neg (by omega), if_pos ho]
  · obtain ⟨bs, lv, dr, rfl, ⟨hdriven, -⟩, hcells⟩ := inCells_sampled n s
    have hrun := shiftInBits_ok hn ho
    rw [hcells] at hrun
    have hbit : ∀ k, (assemble bs).getLsbD k = bs.getD k false := getLsbD_assemble_of_length_le hn
    refine ⟨assemble bs, sampledState bs lv dr s, hrun, ho, rfl, ?clk, ?trace, fun k hk => ?above, fun k hk b hb => ?driven,
      rfl, wireOnly_sampledState bs lv dr s⟩
    case clk => simp only [sampledState, List.length_eq_zero_iff]
    case trace => rw [map_sampled_assemble hn]; rfl
    case above => rw [hbit, List.getD_eq_default _ _ hk]
    case driven => rw [hbit, List.getD_eq_getElem?_getD, hdriven k hk b hb, Option.getD_some]

end Sys2Proof.Proofs

/-! PROOF. The retry bound (41_transaction R195, R196): what one attempt costs in cells, whatever the target does and when its
levels are known, and from it the cost of the attempts `executeTransactionWithRetry` makes. -/

namespace Sys2Proof.Proofs

open Sys2Proof Sys2Proof.Machine Sys2Proof.Laws

/-! ## The cells of one exchange (41_transaction R182) -/

/-- How many cells an exchange takes: 13 after WAIT and FAULT, 46 otherwise (41_transaction R182). -/
def phaseCells : Phase → Nat
  | .none => 13
  | _ => 46

theorem phaseCells_le (p : Phase) : phaseCells p ≤ 46 := by cases p <;> decide

@[simp] theorem requested_trace_length (code : Byte) (s : State) :
    (requested code s).trace.length = s.trace.length + 8 := by
  simp [requested, outCells_eq]

/-- The cells sent after the last sample, 33 by a write and none otherwise, make up the number an exchange takes: with the
eight of the header and those sampled they are `phaseCells`. -/
theorem final_trace_length (code : Byte) (d : Word) (s : State) (p : Phase) :
    (p.final code d s).trace.length + 8 + p.samples = s.trace.length + phaseCells p := by
  cases p with
  | write => simp [Phase.final, dataSent, outCells_eq, Phase.samples, phaseCells]
  | read | none | discarded => rfl

@[simp] theorem final_levels (code : Byte) (d : Word) (s : State) (p : Phase) : (p.final code d s).levels = s.levels := by
  cases p with
  | write => simp [Phase.final, dataSent, outCells_eq]
  | read | none | discarded => rfl

theorem onData_attached {t : Target} (ha : t.attached = false) (n : Nat) (code : Byte) (w : Word) :
    (Target.onData n code w t).attached = false := by
  rw [Target.onData, if_neg (by simp [ha])]
  split <;> exact ha

theorem final_attached {s : State} (ha : s.target.attached = false) (code : Byte) (d : Word) (p : Phase) :
    (p.final code d s).target.attached = false := by
  cases p with
  | write => exact onData_attached ha _ _ _
  | read | none | discarded => exact ha

/-- Whatever the target does, one attempt ends on a driven line within 46 cells. -/
theorem executeTransaction_cells_le {code : Byte} (hl : isLegalCode code = true) (d : Word) {s : State} (ho : s.oe = true) :
    Runs (executeTransaction code d) s fun _ t => t.oe = true ∧ t.trace.length ≤ s.trace.length + 46 := by
  obtain ⟨bs, lv, dr, -, hlen, hrun⟩ := executeTransaction_eq d hl ho
  refine ⟨_, _, hrun, final_oe _ _ _ _, ?_⟩
  have hcells := final_trace_length code d (sampledState bs lv dr (requested code s)) (phaseOf code (ackOf bs))
  have hle := phaseCells_le (phaseOf code (ackOf bs))
  simp only [sampledState, List.length_append, List.length_map, requested_trace_length] at hcells ⊢
  omega

/-! ## An exchange with levels that are known -/

/-- From `s` an arbitrary target has shown the levels up to `rest` in `n` cells, and the next exchange can begin. -/
structure Showed (s : State) (n : Nat) (rest : List Bool) (t : State) : Prop where
  oe       : t.oe = true
  attached : t.target.attached = false
  levels   : t.levels = rest
  cells    : t.trace.length = s.trace.length + n

theorem Showed.trans {s t u : State} {m n : Nat} {mid rest : List Bool} (h : Showed s m mid t) (k : Showed t n rest u) :
    Showed s (m + n) rest u :=
  ⟨k.oe, k.attached, k.levels, by rw [k.cells, h.cells, Nat.add_assoc]⟩

/-- An exchange that is shown the levels `lv` of the phase `p` ends with that phase's answer and in its number of cells. -/
theorem executeTransaction_showed {code : Byte} (hl : isLegalCode code = true) (d : Word) {s : State} (ho : s.oe = true)
    (ha : s.target.attached = false) {lv rest : List Bool} (hlv : s.levels = lv ++ rest) {p : Phase}
    (hp : phaseOf code (ackOf lv) = p) (hn : lv.length = p.samples) :
    ∃ t, executeTransaction code d s = .ok (p.answer d lv, t) ∧ Showed s (phaseCells p) rest t := by
  have hsamples := samples_ge p
  obtain ⟨n, hrun⟩ := executeTransaction_scripted hl d ho ha lv rest hlv (by omega) (by rw [hp, hn])
  rw [hp] at hrun
  refine ⟨_, hrun, final_oe _ _ _ _, final_attached (by exact ha) _ _ _, final_levels _ _ _ _, ?_⟩
  apply Nat.add_right_cancel (m := 8 + p.samples)
  rw [← Nat.add_assoc, final_trace_length]
  simp only [List.length_append, List.length_map, lsbBits_length, hn]
  omega

/-- Only an OK read puts a new word into the data cell (41_transaction R181). -/
theorem answer_of_ne_read {p : Phase} (hp : p ≠ .read) (d : Word) (bs : List Bool) : p.answer d bs = (ackOf bs, d) := by
  cases p with
  | read => exact absurd rfl hp
  | write | none | discarded => rfl

theorem ackOf_waitLevels (xy : Bool × Bool) : ackOf (waitLevels xy) = .wait := by
  show classifyAck ((assemble [false, true, false]).setWidth 3) = .wait
  decide

/-- An attempt answered WAIT takes 13 cells and leaves the data cell alone (30_encoding R130). -/
theorem executeTransaction_wait {code : Byte} (hl : isLegalCode code = true) (d : Word) {s : State} (ho : s.oe = true)
    (ha : s.target.attached = false) {xy : Bool × Bool} {rest : List Bool} (hlv : s.levels = waitLevels xy ++ rest) :
    ∃ t, executeTransaction code d s = .ok ((.wait, d), t) ∧ Showed s 13 rest t := by
  have hp : phaseOf code (ackOf (waitLevels xy)) = .none := by rw [ackOf_waitLevels]; rfl
  obtain ⟨t, hrun, ht⟩ := executeTransaction_showed hl d ho ha hlv hp rfl
  rw [answer_of_ne_read (by decide), ackOf_waitLevels] at hrun
  exact ⟨t, hrun, ht⟩

theorem executeTransaction_readOk {code : Byte} (hl : isLegalCode code = true) (hr : isRead code = true) (d : Word)
    {s : State} (ho : s.oe = true) (ha : s.target.attached = false) {x y : Bool} {w : Word} {rest : List Bool}
    (hlv : s.levels = okReadBits x w (parity32 w) y ++ rest) :
    ∃ t, executeTransaction code d s = .ok ((.ok, w), t) ∧ Showed s 46 rest t := by
  have hp : phaseOf code (ackOf (okReadBits x w (parity32 w) y)) = .read := by rw [ackOf_okReadBits, phaseOf_read hr]
  obtain ⟨t, hrun, ht⟩ := executeTransaction_showed hl d ho ha hlv hp (okReadBits_length _ _ _ _)
  rw [answer_okReadBits, if_pos rfl] at hrun
  exact ⟨t, hrun, ht⟩

theorem executeTransaction_writeOk {code : Byte} (hl : isLegalCode code = true) (hw : isRead code = false) (d : Word)
    {s : State} (ho : s.oe = true) (ha : s.target.attached = false) {x y : Bool} {rest : List Bool}
    (hlv : s.levels = [x, true, false, false, y] ++ rest) :
    ∃ t, executeTransaction code d s = .ok ((.ok, d), t) ∧ Showed s 46 rest t := by
  have hp : phaseOf code (ackOf [x, true, false, false, y]) = .write := by simp [ackOf_okBits, phaseOf, hw]
  obtain ⟨t, hrun, ht⟩ := executeTransaction_showed hl d ho ha hlv hp rfl
  rw [answer_of_ne_read (by decide), ackOf_okBits] at hrun
  exact ⟨t, hrun, ht⟩

/-! ## The attempts (41_transaction R195) -/

/-- The call is its own loop entered with a WAIT and one attempt more, so that what is said of the loop is said of it. -/
theorem executeTransactionWithRetry_eq (code : Byte) (d : Word) (m : Nat) :
    executeTransactionWithRetry code d m = retryLoop code (m + 1) (.wait, d) := rfl

theorem retryLoop_of_ne_wait (code : Byte) (left : Nat) {r : Ack × Word} (hr : r.1 ≠ .wait) :
    retryLoop code left r = pure r := by
  cases left with
  | zero => rfl
  | succ left => rw [retryLoop, if_neg hr]

/-- After a WAIT the loop goes on from what the next attempt leaves behind. -/
theorem retryLoop_wait_succ {code : Byte} {d : Word} {s t : State} {r : Ack × Word}
    (h : executeTransaction code d s = .ok (r, t)) (left : Nat) :
    retryLoop code (left + 1) (.wait, d) s = retryLoop code left r t := op_bind_ok h _

/-- No target makes the loop longer than the attempts it has left, of at most 46 cells each. -/
theorem retryLoop_cells_le {code : Byte} (hl : isLegalCode code = true) (left : Nat) (r : Ack × Word) {s : State}
    (ho : s.oe = true) :
    Runs (retryLoop code left r) s fun _ t => t.trace.length ≤ s.trace.length + 46 * left := by
  induction left generalizing r s with
  | zero => exact (runs_pure _ _ _).2 (by omega)
  | succ left ih =>
    by_cases hr : r.1 = .wait
    · rw [retryLoop, if_pos hr]
      refine (executeTransaction_cells_le hl r.2 ho).bind fun r' t ⟨hot, ht⟩ => ?_
      exact (ih r' hot).mono fun _ u hu => by omega
    · rw [retryLoop_of_ne_wait code _ hr]
      exact (runs_pure _ _ _).2 (by omega)

/-- The levels of `waits` use up as many attempts, of 13 cells each; what the loop does after them does not depend on how it
came there. -/
theorem retryLoop_waits {code : Byte} (hl : isLegalCode code = true) (d : Word) (waits : List (Bool × Bool))
    {rest : List Bool} {s : State} (ho : s.oe = true) (ha : s.target.attached = false)
    (hlv : s.levels = waits.flatMap waitLevels ++ rest) :
    ∃ t, (∀ left, retryLoop code (left + waits.length) (.wait, d) s = retryLoop code left (.wait, d) t) ∧
      Showed s (13 * waits.length) rest t := by
  induction waits generalizing s with
  | nil => exact ⟨s, fun _ => rfl, ho, ha, hlv, rfl⟩
  | cons xy waits ih =>
    rw [List.flatMap_cons, List.append_assoc] at hlv
    obtain ⟨t, hrun, ht⟩ := executeTransaction_wait hl d ho ha hlv
    obtain ⟨u, hloop, hu⟩ := ih ht.oe ht.attached ht.levels
    refine ⟨u, fun left => ?_, ?_⟩
    · rw [List.length_cons, ← Nat.add_assoc, retryLoop_wait_succ hrun, hloop]
    · rw [List.length_cons, Nat.mul_succ, Nat.add_comm]
      exact ht.trans hu

/-- `maxRetries + 1` WAITs use up every attempt, and the call returns WAIT (41_transaction R196). -/
theorem executeTransactionWithRetry_allWait {code : Byte} (hl : isLegalCode code = true) (d : Word) {m : Nat} {s : State}
    (ho : s.oe = true) (ha : s.target.attached = false) {waits : List (Bool × Bool)} {rest : List Bool}
    (hm : waits.length = m + 1) (hlv : s.levels = waits.flatMap waitLevels ++ rest) :
    ∃ t, executeTransactionWithRetry code d m s = .ok ((.wait, d), t) ∧ Showed s (13 * (m + 1)) rest t := by
  obtain ⟨t, hloop, ht⟩ := retryLoop_waits hl d waits ho ha hlv
  have hspent := hloop 0
  rw [hm] at hspent ht
  rw [Nat.zero_add] at hspent
  exact ⟨t, hspent, ht⟩

/-- After at most `maxRetries` WAITs there is one more attempt, and if it is not answered WAIT its result is the call's. -/
theorem executeTransactionWithRetry_afterWaits {code : Byte} (hl : isLegalCode code = true) (d : Word) {m : Nat} {s : State}
    (ho : s.oe = true) (ha : s.target.attached = false) {waits : List (Bool × Bool)} {mid rest : List Bool}
    (hm : waits.length ≤ m) (hlv : s.levels = waits.flatMap waitLevels ++ mid) {r : Ack × Word} (hr : r.1 ≠ .wait) {n : Nat}
    (hlast : ∀ t : State, t.oe = true → t.target.attached = false → t.levels = mid →
      ∃ u, executeTransaction code d t = .ok (r, u) ∧ Showed t n rest u) :
    ∃ u, executeTransactionWithRetry code d m s = .ok (r, u) ∧ Showed s (13 * waits.length + n) rest u := by
  obtain ⟨t, hloop, ht⟩ := retryLoop_waits hl d waits ho ha hlv
  obtain ⟨u, hrun, hu⟩ := hlast t ht.oe ht.attached ht.levels
  have hleft : m + 1 = m - waits.length + 1 + waits.length := by omega
  refine ⟨u, ?_, ht.trans hu⟩
  rw [executeTransactionWithRetry_eq, hleft, hloop, retryLoop_wait_succ hrun, retryLoop_of_ne_wait code _ hr, op_pure]

/-- Settles O13: the bound is the loop's, by induction on the attempts left; the exact counts follow from what the WAITs use
up, by induction on them, and from the one attempt that may come after. -/
theorem retryIsBounded : Obligations.RetryIsBounded := by
  intro code data m s hl ho
  refine ⟨?bound, fun waits rest ha => ⟨fun hm hlv => ?allWait, fun x w y hm hr hlv => ?readOk, fun x y hm hw hlv => ?writeOk⟩⟩
  case bound => exact retryLoop_cells_le hl (m + 1) (.wait, data) ho
  case allWait =>
    obtain ⟨t, hrun, ht⟩ := executeTransactionWithRetry_allWait hl data ho ha hm hlv
    exact ⟨t, hrun, ht.levels, ht.cells⟩
  case readOk =>
    have hsplit : s.levels = waits.flatMap waitLevels ++ (okReadBits x w (parity32 w) y ++ rest) := by
      simpa only [okReadBits, List.append_assoc] using hlv
    obtain ⟨t, hrun, ht⟩ := executeTransactionWithRetry_afterWaits hl data ho ha hm hsplit (by simp)
      fun _ hot hat hlt => executeTransaction_readOk hl hr data hot hat hlt
    exact ⟨t, hrun, ht.levels, ht.cells⟩
  case writeOk =>
    have hsplit : s.levels = waits.flatMap waitLevels ++ ([x, true, false, false, y] ++ rest) := by
      rw [hlv, List.append_assoc]
    obtain ⟨t, hrun, ht⟩ := executeTransactionWithRetry_afterWaits hl data ho ha hm hsplit (by simp)
      fun _ hot hat hlt => executeTransaction_writeOk hl hw data hot hat hlt
    exact ⟨t, hrun, ht.levels, ht.cells⟩

end Sys2Proof.Proofs

/-! PROOF. Error recovery below the transaction (42_error_recovery R220-R224): the connect sequence, as a run of line
sequences that each append known out-cells, and the results that `clearError` answers without touching the line. -/

namespace Sys2Proof.Proofs

open Sys2Proof Sys2Proof.Machine Sys2Proof.Laws

/-! ## Line sequences and the bits they drive (30_encoding R145-R148) -/

/-- On a driven line `x` ends, having driven exactly the bits `bits` of the parameters, the line still driven and nothing
above the wire changed. -/
def Sends (x : Op Unit) (bits : Params → List Bool) : Prop :=
  ∀ s : State, s.oe = true → Runs x s fun _ t =>
    t.oe = true ∧ WireOnly s t ∧ t.trace = s.trace ++ (bits s.params).map WireCell.driven

/-- Line sequences in a row drive their bits in a row. -/
theorem Sends.bind {x : Op Unit} {f : Unit → Op Unit} {a b : Params → List Bool} (hx : Sends x a)
    (hf : ∀ u, Sends (f u) b) : Sends (x >>= f) fun p => a p ++ b p := by
  intro s ho
  refine Runs.bind (hx s ho) ?_
  rintro ⟨⟩ t ⟨hot, hwt, htrace⟩
  refine (hf () t hot).mono ?_
  rintro ⟨⟩ u ⟨hou, hwu, hutrace⟩
  refine ⟨hou, hwt.trans hwu, ?_⟩
  rw [hutrace, htrace, hwt.params, List.map_append, List.append_assoc]

/-- What ends in a run of out-cells, and then at most in a reaction of the target, drives those bits. -/
theorem sends_of_outCells {x : Op Unit} {bits : Params → List Bool}
    (h : ∀ s : State, s.oe = true →
      ∃ tg n, x s = .ok ((), ((State.outCells (bits s.params) s).setTarget tg).setDraws n)) : Sends x bits := by
  intro s ho
  obtain ⟨tg, n, hrun⟩ := h s ho
  have hoe : (State.outCells (bits s.params) s).oe = true := (outCells_oe _ s).trans ho
  have hwire : WireOnly s (((State.outCells (bits s.params) s).setTarget tg).setDraws n) :=
    (wireOnly_outCells _ s).trans ((wireOnly_setTarget tg _).trans (wireOnly_setDraws n _))
  refine ⟨(), _, hrun, hoe, hwire, ?_⟩
  rw [setDraws_trace, setTarget_trace, outCells_eq]

theorem sends_lineResetRun : Sends lineResetRun fun p => List.replicate p.lrOnes true :=
  sends_of_outCells fun _ ho =>
    have ⟨_, _, hrun, hend⟩ := lineResetRun_eq ho
    ⟨_, _, hend ▸ hrun⟩

theorem sends_sendJtagToSwd : Sends sendJtagToSwd fun _ => lsbBits 16 (jtagToSwdValue.setWidth 32) :=
  sends_of_outCells fun _ ho => ⟨_, _, sendJtagToSwd_eq ho⟩

theorem idleRun_eq {s : State} (ho : s.oe = true) :
    idleRun s = .ok ((), State.outCells (List.replicate s.params.idleBits false) s) := by
  unfold idleRun
  rw [op_bind_ok (op_get s), sendZeros_ok _ ho]

theorem sends_idleRun : Sends idleRun fun p => List.replicate p.idleBits false :=
  sends_of_outCells fun _ ho => ⟨_, _, idleRun_eq ho⟩

/-! ## The connect sequence (42_error_recovery R224) -/

/-- The bits of the connect sequence, bracketed as the sequence runs. -/
def connectBits (p : Params) : List Bool :=
  List.replicate p.lrOnes true ++ (lsbBits 16 (jtagToSwdValue.setWidth 32) ++
    (List.replicate p.lrOnes true ++ List.replicate p.idleBits false))

theorem map_driven_connectBits (p : Params) : (connectBits p).map WireCell.driven =
    switchCells p jtagToSwdValue ++ List.replicate p.idleBits (WireCell.driven false) := by
  simp only [connectBits, switchCells, List.map_append, List.map_replicate, List.append_assoc]

/-- The connect sequence is the four line sequences on a line that it drives first. -/
theorem swdConnectSequence_sends (s : State) : Runs swdConnectSequence s fun _ t =>
    t.oe = true ∧ WireOnly s t ∧ t.trace = s.trace ++ (connectBits s.params).map WireCell.driven := by
  have hline : Sends (do lineResetRun; sendJtagToSwd; lineResetRun; idleRun) connectBits :=
    sends_lineResetRun.bind fun _ => sends_sendJtagToSwd.bind fun _ => sends_lineResetRun.bind fun _ => sends_idleRun
  unfold swdConnectSequence
  rw [runs_bind]
  refine ⟨(), s.setOe true, op_setDataLineOutput s, (hline (s.setOe true) rfl).mono ?_⟩
  rintro ⟨⟩ t ⟨hoe, hwire, htrace⟩
  exact ⟨hoe, (wireOnly_setOe true s).trans hwire, htrace⟩

/-- Settles O44: the line is driven first, then each of the four line sequences appends its own out-cells. -/
theorem connectSequenceCells : Obligations.ConnectSequenceCells := by
  intro s
  obtain ⟨⟨⟩, t, hrun, hoe, hwire, htrace⟩ := swdConnectSequence_sends s
  refine ⟨t, hrun, hoe, hwire, ?_⟩
  rw [htrace, map_driven_connectBits, List.append_assoc]
  rfl

/-! ## clearError without a transaction (42_error_recovery R221-R223) -/

theorem clearError_ok : clearError .ok = pure .ok := rfl

theorem clearError_parityError : clearError .parityError = pure .soft := rfl

/-- A protocol error is soft exactly when no bit of the ACK was sampled as 1; any other pattern takes the recovery path. -/
theorem clearError_protocolError (raw : BitVec 3) :
    clearError (.protocolError raw) = if raw = 0b000#3 then pure .soft else recoveryPath := rfl

/-- Settles O29: each of the three results is answered by `pure`, so the state is returned as it was. -/
theorem clearErrorWithoutTransaction : Obligations.ClearErrorWithoutTransaction := by
  intro s
  refine ⟨?ok, ?parityError, ?noBitSet⟩
  case ok => rw [clearError_ok, op_pure]
  case parityError => rw [clearError_parityError, op_pure]
  case noBitSet => rw [clearError_protocolError, if_pos rfl, op_pure]

end Sys2Proof.Proofs

/-! PROOF. The chunk split of a byte range (43_memory_access R253): where a chunk of the list starts and how long it is, by
one induction on the split; the page boundaries follow from a chunk's length alone. -/

namespace Sys2Proof.Proofs

open Sys2Proof Sys2Proof.Machine Sys2Proof.Laws

/-! ## The length of one chunk -/

theorem chunkSize_pos (a : Word) {n : Nat} (hn : 0 < n) : 0 < chunkSize a n := by
  have hpage : a.toNat % pageSize < pageSize := Nat.mod_lt _ (by decide)
  exact lt_min hn (Nat.sub_pos_of_lt hpage)

theorem chunkSize_le_page (a : Word) (n : Nat) : a.toNat % pageSize + chunkSize a n ≤ pageSize := by
  have hpage : a.toNat % pageSize < pageSize := Nat.mod_lt _ (by decide)
  have hle : chunkSize a n ≤ pageSize - a.toNat % pageSize := min_le_right _ _
  omega

/-- A chunk that leaves bytes of the range over was cut by its page, so it ends on the boundary. -/
theorem chunkSize_ends_page {a : Word} {n : Nat} (hlt : chunkSize a n < n) :
    (a.toNat + chunkSize a n) % pageSize = 0 := by
  have hcut : chunkSize a n = pageSize - a.toNat % pageSize := by
    unfold chunkSize at hlt ⊢
    omega
  rw [hcut]
  unfold pageSize
  omega

/-- The page offset does not see the wrap of the address: a page divides the address space. -/
theorem toNat_add_mod_page (a : Word) (c : Nat) :
    (a + BitVec.ofNat 32 c).toNat % pageSize = (a.toNat + c) % pageSize := by
  rw [BitVec.toNat_add, BitVec.toNat_ofNat]
  unfold pageSize
  omega

/-! ## The bytes before a chunk -/

/-- How many bytes the first `k` chunks of a list hold. -/
def bytesBefore (cs : List (Word × Nat)) (k : Nat) : Nat := ((cs.take k).map Prod.snd).sum

@[simp] theorem bytesBefore_zero (cs : List (Word × Nat)) : bytesBefore cs 0 = 0 := rfl

@[simp] theorem bytesBefore_cons_succ (p : Word × Nat) (cs : List (Word × Nat)) (k : Nat) :
    bytesBefore (p :: cs) (k + 1) = p.2 + bytesBefore cs k := rfl

theorem bytesBefore_succ {cs : List (Word × Nat)} {k : Nat} {a : Word} {c : Nat} (h : cs[k]? = some (a, c)) :
    bytesBefore cs (k + 1) = bytesBefore cs k + c := by
  simp [bytesBefore, List.take_add_one, h]

/-! ## The chunks of a range -/

@[simp] theorem chunkList_len_zero (fuel : Nat) (addr : Word) : chunkList fuel addr 0 = [] := by
  cases fuel <;> rfl

theorem chunkList_succ_of_pos (fuel : Nat) (addr : Word) {len : Nat} (hn : 0 < len) :
    chunkList (fuel + 1) addr len = (addr, chunkSize addr len) ::
      chunkList fuel (addr + BitVec.ofNat 32 (chunkSize addr len)) (len - chunkSize addr len) :=
  if_neg hn.ne'

/-- A chunk starts after the bytes of those before it, some of the range is left there, and it takes what its page
allows of that. -/
theorem chunkList_getElem? {fuel : Nat} {addr : Word} {len k : Nat} {a : Word} {c : Nat}
    (h : (chunkList fuel addr len)[k]? = some (a, c)) :
    a = addr + BitVec.ofNat 32 (bytesBefore (chunkList fuel addr len) k) ∧
      c = chunkSize a (len - bytesBefore (chunkList fuel addr len) k) ∧
      bytesBefore (chunkList fuel addr len) k < len := by
  induction fuel generalizing addr len k with
  | zero => simp [chunkList] at h
  | succ fuel ih =>
    obtain rfl | hn := Nat.eq_zero_or_pos len
    · simp at h
    rw [chunkList_succ_of_pos fuel addr hn] at h ⊢
    cases k with
    | zero =>
      obtain ⟨rfl, rfl⟩ : addr = a ∧ chunkSize addr len = c := by simpa using h
      simpa using hn
    | succ k =>
      rw [List.getElem?_cons_succ] at h
      obtain ⟨hstart, hsize, hleft⟩ := ih h
      rw [bytesBefore_cons_succ, BitVec.ofNat_add, ← BitVec.add_assoc, ← Nat.sub_sub]
      exact ⟨hstart, hsize, by omega⟩

/-- A chunk with another after it ends on a page boundary: at the next one's start some of the range is still left. -/
theorem chunkList_ends_page {fuel : Nat} {addr : Word} {len k : Nat} {a : Word} {c : Nat}
    (h : (chunkList fuel addr len)[k]? = some (a, c)) (hk : k + 1 < (chunkList fuel addr len).length) :
    (a.toNat + c) % pageSize = 0 := by
  obtain ⟨_, hsize, _⟩ := chunkList_getElem? h
  obtain ⟨_, _, hleft⟩ := chunkList_getElem? (List.getElem?_eq_getElem hk)
  rw [bytesBefore_succ h] at hleft
  have hcut : c < len - bytesBefore (chunkList fuel addr len) k := by omega
  rw [hsize] at hcut ⊢
  exact chunkSize_ends_page hcut

/-- A chunk with another before it starts on a page boundary: it starts where that one ends. -/
theorem chunkList_starts_page {fuel : Nat} {addr : Word} {len k : Nat} {a : Word} {c : Nat}
    (h : (chunkList fuel addr len)[k + 1]? = some (a, c)) : a.toNat % pageSize = 0 := by
  have hk : k + 1 < (chunkList fuel addr len).length := (List.getElem?_eq_some_iff.1 h).1
  have hprev := List.getElem?_eq_getElem (Nat.lt_of_succ_lt hk)
  obtain ⟨hstart, _, _⟩ := chunkList_getElem? h
  obtain ⟨hstartPrev, _, _⟩ := chunkList_getElem? hprev
  rw [bytesBefore_succ hprev, BitVec.ofNat_add, ← BitVec.add_assoc, ← hstartPrev] at hstart
  rw [hstart, toNat_add_mod_page]
  exact chunkList_ends_page hprev hk

/-- Settles O35: start and length of a chunk by the induction on the split, its page bounds by its length and its
neighbours. -/
theorem chunksTileTheRange : Obligations.ChunksTileTheRange := by
  intro addr len
  refine ⟨chunkList_sum len addr len le_rfl, fun k a c h => ?_⟩
  obtain ⟨hstart, hsize, hleft⟩ := chunkList_getElem? h
  have hpos : 0 < c := hsize ▸ chunkSize_pos a (Nat.sub_pos_of_lt hleft)
  have hpage : a.toNat % pageSize + c ≤ pageSize := hsize ▸ chunkSize_le_page a _
  have hfirst : k ≠ 0 → a.toNat % pageSize = 0 := by
    intro hk
    obtain ⟨j, rfl⟩ := Nat.exists_eq_succ_of_ne_zero hk
    exact chunkList_starts_page h
  exact ⟨hstart, hsize, hpos, hpage, hfirst, chunkList_ends_page h⟩

end Sys2Proof.Proofs

/-! PROOF. The core after reset (70_reset R390). -/

namespace Sys2Proof.Proofs

open Sys2Proof Sys2Proof.Machine

/-- Settles O55: `State.reset` gives each of the five fields its value, so every part holds by the record's definition. -/
theorem resetValues : Obligations.ResetValues :=
  ⟨rfl, rfl, rfl, rfl, rfl⟩

end Sys2Proof.Proofs

/-! PROOF. The decoder and the encoder (30_encoding R120-R127, R146, R147; 46_host_adapter R330-R332): a header is put
together from the fields it is taken apart into, a packet field from the bytes it is cut into. -/

namespace Sys2Proof.Proofs

open Sys2Proof Sys2Proof.Machine Sys2Proof.Laws

/-! ## Request headers (30_encoding R120-R127) -/

/-- A header of the form of R121, R123 and R124 is put together from its own three fields. -/
theorem requestHeader_of_formOk {h : Byte} (hf : headerFormOk h = true) :
    requestHeader (headerApndp h) (headerRnw h) (headerAddr h) = h := by
  revert h
  decide

/-- So the three fields determine it. -/
theorem eq_requestHeader {h : Byte} {apndp rnw : Bool} {k : Nat} (hf : headerFormOk h = true)
    (hap : headerApndp h = apndp) (hrw : headerRnw h = rnw) (ha : (headerAddr h).toNat = k) :
    h = requestHeader apndp rnw (BitVec.ofNat 2 k) := by
  rw [← requestHeader_of_formOk hf, hap, hrw, ← ha, BitVec.ofNat_toNat, BitVec.setWidth_eq]

/-- R126 names the one reason for which a header decodes to nothing. -/
theorem decodeHeader_error {bank : ApBank} {h : Byte} {data : Word} {e : DecodeError}
    (he : decodeHeader bank h data = .error e) : e = .illegalRequestCode := by
  unfold decodeHeader at he
  split at he
  case isTrue => split at he <;> cases he; rfl
  case isFalse => cases he; rfl

/-- The two readings of the shared header 0x9F carry the same request (R127). -/
theorem encode_sharedHeader (bank : ApBank) :
    encode (if bank == idrBank then .rdIdr else .rdDrw) = .transaction codeRdDrw 0 := by
  split <;> rfl

/-- The bank in force picks the well-formed reading of header 0x9F (R127; log 6). -/
theorem wellFormed_sharedHeader (bank : ApBank) :
    (if bank == idrBank then Instr.rdIdr else Instr.rdDrw).wellFormed bank = true := by
  split
  case isTrue h => exact h
  case isFalse h => simpa [Instr.wellFormed, bne] using h

/-- Settles O3: each arm of the decoder knows the three fields of the header, and they determine it. -/
theorem headerHasOneMeaning : Obligations.HeaderHasOneMeaning := by
  intro bank h data i hdec
  unfold decodeHeader at hdec
  split at hdec
  case isFalse => cases hdec
  case isTrue hf =>
    split at hdec
    case h_11 => cases hdec
    all_goals
      obtain rfl := Except.ok.inj hdec
      obtain rfl := eq_requestHeader hf ‹_› ‹_› ‹_›
    case h_9 => exact ⟨wellFormed_sharedHeader bank, 0, encode_sharedHeader bank, fun hr => absurd hr (by decide)⟩
    case h_1 | h_3 | h_6 => exact ⟨rfl, 0, rfl, fun hr => absurd hr (by decide)⟩
    case h_2 | h_4 | h_5 | h_7 | h_8 | h_10 => exact ⟨rfl, data, rfl, fun _ => rfl⟩

/-! ## Headers outside the table (30_encoding R126) -/

/-- The ten headers of the table are the ones the engine accepts. -/
theorem isLegalCode_of_notMem {h : Byte}
    (hh : h ∉ ([0xA5, 0x81, 0x8D, 0xA9, 0xB1, 0xBD, 0xA3, 0x8B, 0x9F, 0xBB] : List Byte)) : isLegalCode h = false := by
  revert h
  decide

/-- What the engine does not accept the decoder does not read: a decoded header is one the encoder gives. -/
theorem decodeHeader_illegal {h : Byte} (hl : isLegalCode h = false) (bank : ApBank) (data : Word) :
    decodeHeader bank h data = .error .illegalRequestCode := by
  cases hdec : decodeHeader bank h data with
  | error e => rw [decodeHeader_error hdec]
  | ok i =>
    obtain ⟨-, d, he, -⟩ := headerHasOneMeaning bank h data i hdec
    rw [legal_of_encode he] at hl
    cases hl

theorem executeTransaction_illegal {h : Byte} (hl : isLegalCode h = false) (d : Word) (s : State) :
    executeTransaction h d s = .error .illegalRequestCode := by
  rw [executeTransaction, if_neg (by simp [hl]), op_raise]

/-- Settles O4: the decoder refuses the transaction, the engine refuses the call. -/
theorem illegalHeaderFaults : Obligations.IllegalHeaderFaults := by
  intro h hh s d rest
  have hl := isLegalCode_of_notMem hh
  refine ⟨fun hin => ?transaction, fun hin => ?call⟩
  case transaction =>
    have hdec : s.decodeRequest (.transaction h d) = .error .illegalRequestCode :=
      congrArg Decoded.ofInstr (decodeHeader_illegal hl _ d)
    simp only [step, hin, hdec, rejectRequest]
  case call =>
    have hrun : runOperation (.executeTransaction h d) (s.setInbox rest) = .error .illegalRequestCode :=
      op_bind_error (executeTransaction_illegal hl d _) _
    have hdec : s.decodeRequest (.call (.executeTransaction h d)) = .ok (.operation (.executeTransaction h d)) := rfl
    simp only [step, hin, hdec, runDecoded, Op.outcome, hrun]

/-! ## Packet fields (46_host_adapter R330) -/

/-- A field does not see the bytes before it. -/
theorem packetField_append (front pkt : List Byte) (n : Nat) :
    packetField (front ++ pkt) front.length n = packetField pkt 0 n := by
  have key : ∀ k, packetField (front ++ pkt) (front.length + k) n = packetField pkt k n := by
    induction n with
    | zero => exact fun _ => rfl
    | succ n ih =>
      intro k
      rw [packetField, packetField, Nat.add_assoc, ih (k + 1), List.getD_append_right _ _ _ _ (by omega),
        Nat.add_sub_cancel_left]
  exact key 0

/-- The bytes a word is cut into are put together to the word. -/
theorem packetWord_wordBytes (front : List Byte) (w : Word) (back : List Byte) :
    packetWord (front ++ (wordBytes w ++ back)) front.length = w := by
  have hw := w.isLt
  have hfield : packetField (wordBytes w ++ back) 0 4 = w.toNat := by
    simp [packetField, wordBytes, Nat.shiftRight_eq_div_pow]
    omega
  rw [packetWord, packetField_append, hfield, BitVec.ofNat_toNat, BitVec.setWidth_eq]

theorem packetHalf_halfBytes (front : List Byte) (v : BitVec 16) (back : List Byte) :
    packetHalf (front ++ (halfBytes v ++ back)) front.length = v := by
  have hv := v.isLt
  have hfield : packetField (halfBytes v ++ back) 0 2 = v.toNat := by
    simp [packetField, halfBytes, Nat.shiftRight_eq_div_pow]
    omega
  rw [packetHalf, packetField_append, hfield, BitVec.ofNat_toNat, BitVec.setWidth_eq]

/-- The packet of a host read gives its address and its length back, whatever the host codes are (R332). -/
theorem decode_hostReadMem32 (codes : CmdCodes) (bank : ApBank) (addr : Word) (len : BitVec 16) :
    decode codes bank (encode (.hostReadMem32 addr len)) = .ok (.instr (.hostReadMem32 addr len)) := by
  have haddr := packetWord_wordBytes [groupDebug, subReadMem32] addr (halfBytes len ++ List.replicate 8 0)
  have hlen := packetHalf_halfBytes ([groupDebug, subReadMem32] ++ wordBytes addr) len (List.replicate 8 0)
  have hsub : ∀ pkt : List Byte, pkt.getD 1 0 = subReadMem32 → decodeDebug codes pkt =
      .instr (.hostReadMem32 (packetWord pkt 2) (packetHalf pkt 6)) := fun pkt h => if_pos h
  show Except.ok (decodeDebug codes _) = _
  rw [hsub _ rfl]
  exact congrArg Except.ok (congrArg Decoded.instr (congr (congrArg Instr.hostReadMem32 haddr) hlen))

/-- Settles O2: a header instruction's fields pick its own arm of the decoder, the bank in force picks the reading of header
0x9F, the two sequences are told apart by their values, and the packet's fields are its bytes put together. -/
theorem decodeInvertsEncode : Obligations.DecodeInvertsEncode := by
  intro codes bank i hwf
  cases i with
  | rdIdcode | rdCtrlstat | rdRdbuff | jtagToSwd | swdToJtag => rfl
  | wrAbort | wrCtrlstat | wrSelect | wrCsw | wrTar | wrDrw => rfl
  | rdDrw =>
    have hb : (bank == idrBank) = false := by simpa [Instr.wellFormed, bne] using hwf
    show Decoded.ofInstr (.ok (if bank == idrBank then .rdIdr else .rdDrw)) = _
    rw [hb]
    rfl
  | rdIdr =>
    have hb : (bank == idrBank) = true := hwf
    show Decoded.ofInstr (.ok (if bank == idrBank then .rdIdr else .rdDrw)) = _
    rw [hb]
    rfl
  | hostReadMem32 addr len => exact decode_hostReadMem32 codes bank addr len

/-- Settles O1: each word of the table, decoded with the codes of TC1 in the bank that SELECT names after reset, and the
shared header once more in bank 0xF. -/
theorem tableWordsDecode : Obligations.TableWordsDecode := by
  unfold Obligations.TableWordsDecode
  decide

end Sys2Proof.Proofs

/-! PROOF. The target agent keeps its stores canonical (10_state R51, R75; 70_reset R398): one lemma per function of the
target, from the register transfer up to what it does at a request, a data word, a line reset and a switch sequence. -/

namespace Sys2Proof.Proofs

open Sys2Proof Sys2Proof.Machine Sys2Proof.Laws

variable {t : Target}

/-! ## The debug registers (10_state R75) -/

theorem inv_finishTransfer (h : t.Inv) : t.finishTransfer.Inv := by
  unfold Target.finishTransfer
  split
  · exact h
  · split
    · exact { h with coreRegs := sparseSet_wf h.coreRegs _ _ }
    · exact { h with }

theorem inv_startTransfer (h : t.Inv) (v : Word) : (t.startTransfer v).Inv := by
  have hstart : Target.Inv { t with
      transfer := some ⟨v.extractLsb' 0 8, v.getLsbD 16⟩, regReady := false, regLeft := t.regDelay } := { h with }
  unfold Target.startTransfer
  dsimp only
  split
  · exact inv_finishTransfer hstart
  · exact hstart

theorem inv_countRegRead (h : t.Inv) : t.countRegRead.Inv := by
  unfold Target.countRegRead
  split
  · exact h
  · split
    · exact inv_finishTransfer h
    · exact { h with }

theorem inv_debugRead (h : t.Inv) {fresh a : Word} {r : Word × Target} (hr : t.debugRead fresh a = some r) : r.2.Inv := by
  unfold Target.debugRead at hr
  split at hr
  · cases hr; exact inv_countRegRead h
  · split at hr
    · cases hr; exact h
    · split at hr <;> cases hr
      exact h

theorem inv_debugWrite (h : t.Inv) {a w : Word} {u : Target} (hu : t.debugWrite a w = some u) : u.Inv := by
  unfold Target.debugWrite at hu
  split at hu
  · cases hu
    split
    · exact { h with }
    · exact h
  · split at hu
    · cases hu; exact inv_startTransfer h w
    · split at hu <;> cases hu
      exact { h with }

/-! ## Target-memory accesses (20_memory R92, R93) -/

theorem inv_busRead (h : t.Inv) (n : Nat) : (t.busRead n).2.Inv := by
  unfold Target.busRead
  dsimp only
  split
  · exact { h with }
  · split
    · split
      · exact inv_debugRead h ‹_›
      · exact h
    · exact h
    · exact h
    · exact h

theorem inv_busWrite (h : t.Inv) (n : Nat) (w : Word) : (t.busWrite n w).Inv := by
  unfold Target.busWrite
  split
  · exact { h with }
  · split
    · split
      · exact inv_debugWrite h ‹_›
      · exact { h with mem := writeWord_wf h.mem _ _ }
    · exact { h with mem := writeHalf_wf h.mem _ _ }
    · exact { h with mem := writeLane_wf h.mem _ _ }
    · exact { h with mem := writeWord_wf h.mem _ _ }

/-! ## What a transaction with ACK OK does -/

theorem inv_readCtrlStat (h : t.Inv) : t.readCtrlStat.2.Inv := by
  unfold Target.readCtrlStat
  split
  · exact h
  · dsimp only
    split <;> exact { h with }

theorem inv_writeCtrlStat (h : t.Inv) (w : Word) : (t.writeCtrlStat w).Inv := by
  unfold Target.writeCtrlStat
  dsimp only
  split <;> exact { h with }

theorem inv_apRead (h : t.Inv) (n : Nat) (code : Byte) : (t.apRead n code).2.Inv := by
  unfold Target.apRead
  dsimp only
  split
  · exact { inv_busRead h n with }
  all_goals exact { h with }

theorem inv_noteRead (h : t.Inv) (code : Byte) (ok : Bool) : (t.noteRead code ok).Inv := by
  unfold Target.noteRead
  split
  · exact { h with }
  · exact h

theorem inv_noteOverrun (h : t.Inv) : t.noteOverrun.Inv := by
  rw [noteOverrun_eq]
  exact { h with }

theorem inv_performRead (h : t.Inv) (n : Nat) (code : Byte) : (t.performRead n code).2.Inv := by
  unfold Target.performRead
  split
  · exact inv_noteRead (inv_apRead h n code) code true
  · split
    · exact h
    · split
      · exact inv_noteRead h code true
      · split
        · exact inv_readCtrlStat h
        · exact h

theorem inv_pushCompare (h : t.Inv) (n : Nat) (w : Word) : (t.pushCompare n w).Inv := by
  have hread := inv_busRead h n
  unfold Target.pushCompare
  dsimp only
  split
  · exact hread
  · split
    · exact { hread with }
    · exact hread

theorem inv_drwWrite (h : t.Inv) (n : Nat) (w : Word) : (t.drwWrite n w).Inv := by
  unfold Target.drwWrite
  dsimp only
  split
  · exact { inv_pushCompare h n w with }
  · exact { inv_busWrite h n w with }

theorem inv_drwWrites (h : t.Inv) (n : Nat) (w : Word) (k : Nat) : (t.drwWrites n w k).Inv := by
  induction k generalizing n t with
  | zero => exact inv_drwWrite h n w
  | succ k ih =>
    unfold Target.drwWrites
    dsimp only
    split
    · exact inv_drwWrite h n w
    · refine ih ?_ _
      exact { inv_drwWrite h n w with }

theorem inv_apWrite (h : t.Inv) (n : Nat) (code : Byte) (w : Word) : (t.apWrite n code w).Inv := by
  unfold Target.apWrite
  split
  · exact { h with }
  · exact { h with }
  · exact inv_drwWrites h n w _
  · exact h
  · exact { h with apOther := sparseSet_wf h.apOther _ _ }

theorem inv_performWrite (h : t.Inv) (n : Nat) (code : Byte) (w : Word) : (t.performWrite n code w).Inv := by
  unfold Target.performWrite
  split
  · exact inv_apWrite h n code w
  · split
    · exact { h with }
    · split
      · exact { h with }
      · split
        · exact inv_writeCtrlStat h w
        · exact { h with dpOther := sparseSet_wf h.dpOther _ _ }

/-! ## How the target answers a request -/

theorem inv_answerOk (h : t.Inv) (n : Nat) (code : Byte) : (t.answerOk n code).Inv := by
  unfold Target.answerOk
  split
  · exact { inv_performRead h n code with }
  · exact { h with }

theorem inv_answerNormally (h : t.Inv) (n : Nat) (code : Byte) : (t.answerNormally n code).Inv := by
  have hheard : Target.Inv (if code = codeRdIdcode then { t with expectsIdcode := false } else t) := by
    split
    · exact { h with }
    · exact h
  unfold Target.answerNormally
  split
  · exact { h with }
  · dsimp only
    generalize (if code = codeRdIdcode then { t with expectsIdcode := false } else t : Target) = u at hheard ⊢
    split
    · exact { inv_noteRead hheard code false with }
    · have hbusy : Target.Inv { u with busy := u.busy - 1 } := { hheard with }
      exact { inv_noteOverrun (inv_noteRead hbusy code false) with }
    · exact inv_answerOk hheard n code

theorem inv_change (h : t.Inv) (c : TargetChange) : (t.change c).Inv := by
  cases c with
  | apOther key w => exact { h with apOther := sparseSet_wf h.apOther key w }
  | dpOther bank w => exact { h with dpOther := sparseSet_wf h.dpOther bank w }
  | memByte a b => exact { h with mem := writeByte_wf h.mem a b }
  | coreReg index w => exact { h with coreRegs := sparseSet_wf h.coreRegs _ w }
  | _ => exact { h with }

theorem inv_changes (h : t.Inv) (effect : List TargetChange) : (effect.foldl Target.change t).Inv := by
  induction effect generalizing t with
  | nil => exact h
  | cons c effect ih => exact ih (inv_change h c)

theorem inv_answerRaw (h : t.Inv) (n : Nat) (code : Byte) (bits : BitVec 3) (effect : List TargetChange) :
    (t.answerRaw n code bits effect).Inv := by
  unfold Target.answerRaw
  split
  · exact inv_answerOk h n code
  · exact { inv_noteRead h code false with }
  · exact { inv_noteRead h code false with }
  · exact { inv_changes h effect with }

theorem inv_answerInjected (h : t.Inv) (n : Nat) (code : Byte) (a : Answer) : (t.answerInjected n code a).Inv := by
  have hheard : Target.Inv (if code = codeRdIdcode then { t with expectsIdcode := false } else t) := by
    split
    · exact { h with }
    · exact h
  unfold Target.answerInjected
  dsimp only
  generalize (if code = codeRdIdcode then { t with expectsIdcode := false } else t : Target) = u at hheard ⊢
  cases a with
  | normal => exact inv_answerNormally hheard n code
  | wait => exact { inv_noteRead hheard code false with }
  | fault =>
    have hsticky : Target.Inv { u with ctrlStat := u.ctrlStat ||| stickyErrMask } := { hheard with }
    exact { inv_noteRead hsticky code false with }
  | badParity w =>
    dsimp only
    split
    · exact { inv_performRead hheard n code with }
    · exact inv_answerOk hheard n code
  | raw bits effect => exact inv_answerRaw hheard n code bits effect
  | silent => exact { hheard with }

/-! ## What the target agent reacts to -/

theorem inv_onRequest (h : t.Inv) (n : Nat) (code : Byte) : (t.onRequest n code).Inv := by
  have hidle : Target.Inv { t with accepting := false } := { h with }
  unfold Target.onRequest
  split
  · split
    · exact inv_answerNormally hidle n code
    · refine inv_answerInjected ?_ n code _
      exact { h with }
  · exact { h with }

theorem inv_onData (h : t.Inv) (n : Nat) (code : Byte) (w : Word) : (t.onData n code w).Inv := by
  unfold Target.onData
  split
  · split
    · exact { inv_performWrite h n code w with }
    · exact h
  · split
    · exact { h with }
    · exact h

theorem inv_onLineReset (h : t.Inv) (n : Nat) : (t.onLineReset n).Inv := by
  unfold Target.onLineReset
  split
  · split
    · exact { h with }
    · exact h
  · exact h

theorem inv_onSwitch (h : t.Inv) (p : PortProtocol) : (t.onSwitch p).Inv := by
  unfold Target.onSwitch
  split
  · exact { h with }
  · exact h

end Sys2Proof.Proofs

/-! PROOF. What every operation keeps, from whatever state it is called in and however it ends (10_state R32, R36, R44):
nothing above the wire changes below the Session Manager, the trace and the wire agree, the target's stores are canonical.
The bit cells and the target's reactions are looked at once; every operation is made of them. -/

namespace Sys2Proof.Proofs

open Sys2Proof Sys2Proof.Machine Sys2Proof.Laws

/-! ## The trace and the wire (10_state R32, R44) -/

/-- The last bit driven is looked for from the end of the trace. -/
theorem lastDriven_append (a b : List WireCell) : lastDriven (a ++ b) = (lastDriven b <|> lastDriven a) := by
  induction a with
  | nil => simp [lastDriven]
  | cons c a ih =>
    rw [List.cons_append, lastDriven, lastDriven, ih]
    cases lastDriven b <;> rfl

theorem wf_driven (b : Bool) : (WireCell.driven b).wf := .inl rfl

theorem wf_sampled (b : Bool) : (WireCell.sampled b).wf := .inr rfl

/-- The agreement speaks of the trace, SWCLK and SWDIO_OUT only. -/
theorem wireInv_of_eq {s t : State} (h : s.WireInv) (htrace : t.trace = s.trace) (hclk : t.clk = s.clk)
    (hdout : t.dout = s.dout) : t.WireInv :=
  ⟨htrace ▸ h.cells, htrace ▸ hclk ▸ h.clock, htrace ▸ hdout ▸ h.line⟩

theorem wireInv_outCell {s : State} (h : s.WireInv) (b : Bool) : (s.outCell b).WireInv where
  cells := by
    intro c hc
    rcases List.mem_append.1 hc with hc | hc
    · exact h.cells c hc
    · rw [List.mem_singleton.1 hc]; exact wf_driven b
  clock := fun _ => rfl
  line := by
    intro x hx
    rw [show (s.outCell b).trace = s.trace ++ [WireCell.driven b] from rfl, lastDriven_append] at hx
    exact Option.some.inj hx

theorem wireInv_outCells {s : State} (h : s.WireInv) (bs : List Bool) : (State.outCells bs s).WireInv := by
  induction bs generalizing s with
  | nil => exact h
  | cons b bs ih => exact ih (wireInv_outCell h b)

theorem wireInv_inCell {s : State} (h : s.WireInv) : s.inCell.2.WireInv := by
  obtain ⟨b, lv, dr, he, -⟩ := inCell_eq s
  rw [he]
  refine ⟨?_, fun _ => rfl, ?_⟩
  · intro c hc
    rcases List.mem_append.1 hc with hc | hc
    · exact h.cells c hc
    · rw [List.mem_singleton.1 hc]; exact wf_sampled b
  · intro x hx
    rw [lastDriven_append] at hx
    exact h.line x hx

theorem wireInv_inCells {s : State} (h : s.WireInv) (n : Nat) : (State.inCells n s).2.WireInv := by
  induction n generalizing s with
  | zero => exact h
  | succ n ih => exact ih (wireInv_inCell h)

/-! ## The frame below the Session Manager -/

/-- What an operation below the Session Manager may do: nothing above the wire changes, and the two parts of the invariant
that are about the wire and about the target's stores are kept. -/
structure Below (s t : State) : Prop where
  above  : WireOnly s t
  wire   : s.WireInv → t.WireInv
  target : s.target.Inv → t.target.Inv

theorem Below.refl (s : State) : Below s s := ⟨.refl s, id, id⟩

theorem Below.trans {s t u : State} (h : Below s t) (k : Below t u) : Below s u :=
  ⟨h.above.trans k.above, k.wire ∘ h.wire, k.target ∘ h.target⟩

/-- However `x` ends, and from whatever state it was called in, `R` holds of the states before and after. -/
def Keeps {α : Type} (R : State → State → Prop) (x : Op α) : Prop := ∀ s, Ends x s fun _ t => R s t

section Composition

variable {α β : Type} {R : State → State → Prop}

theorem Keeps.mono {S : State → State → Prop} {x : Op α} (h : Keeps R x) (hrs : ∀ s t, R s t → S s t) : Keeps S x :=
  fun s => (h s).mono fun _ t => hrs s t

theorem keeps_pure (hR : ∀ s, R s s) (a : α) : Keeps R (pure a) := fun s => (ends_pure a s _).2 (hR s)

theorem keeps_get (hR : ∀ s, R s s) : Keeps R (get : Op State) := fun s => (ends_get s _).2 (hR s)

theorem keeps_modify {f : State → State} (hf : ∀ s, R s (f s)) : Keeps R (modify f : Op PUnit) :=
  fun s => (ends_modify f s _).2 (hf s)

theorem keeps_raise (f : Fault) : Keeps R (raise f : Op α) := fun s => ends_raise f s _

theorem keeps_bind (hR : ∀ s t u, R s t → R t u → R s u) {x : Op α} {f : α → Op β} (hx : Keeps R x)
    (hf : ∀ a, Keeps R (f a)) : Keeps R (x >>= f) :=
  fun s => (hx s).bind fun a t h => (hf a t).mono fun _ u k => hR s t u h k

end Composition

/-! ## Operations and multi-step operations that keep the frame -/

section Below

variable {α β : Type}

theorem keepsBelow_pure (a : α) : Keeps Below (pure a) := keeps_pure Below.refl a

theorem keepsBelow_get : Keeps Below get := keeps_get Below.refl

theorem keepsBelow_bind {x : Op α} {f : α → Op β} (hx : Keeps Below x) (hf : ∀ a, Keeps Below (f a)) :
    Keeps Below (x >>= f) :=
  keeps_bind (R := Below) (fun _ _ _ h k => h.trans k) hx hf

/-- A multi-step operation keeps the frame, whether it runs to its end or a code ends it. -/
def StepsKeep (x : Steps α) : Prop := Keeps Below x.run

theorem stepsKeep_pure (a : α) : StepsKeep (pure a) := keepsBelow_pure _

theorem stepsKeep_throw (c : Code) : StepsKeep (throw c : Steps α) := keepsBelow_pure _

theorem stepsKeep_bind {x : Steps α} {f : α → Steps β} (hx : StepsKeep x) (hf : ∀ a, StepsKeep (f a)) :
    StepsKeep (x >>= f) := by
  unfold StepsKeep
  rw [steps_bind_run]
  refine keepsBelow_bind hx fun r => ?_
  cases r with
  | ok a => exact hf a
  | error c => exact keepsBelow_pure _

theorem stepsKeep_lift {x : Op α} (h : Keeps Below x) : StepsKeep (liftM x : Steps α) :=
  keepsBelow_bind h fun _ => keepsBelow_pure _

theorem stepsKeep_check (c : Code) : StepsKeep (Steps.check c) := by
  unfold Steps.check
  split
  · exact stepsKeep_pure _
  · exact stepsKeep_throw _

theorem StepsKeep.code {x : Steps Unit} (h : StepsKeep x) : Keeps Below x.code := by
  rw [steps_code_eq]
  exact keepsBelow_bind h fun _ => keepsBelow_pure _

end Below

/-! ## Bit cells, draws and reactions of the target -/

theorem below_outCells (bs : List Bool) (s : State) : Below s (State.outCells bs s) where
  above := wireOnly_outCells bs s
  wire h := wireInv_outCells h bs
  target h := by rw [outCells_target]; exact h

theorem below_inCells (n : Nat) (s : State) : Below s (State.inCells n s).2 := by
  obtain ⟨bs, lv, dr, -, -, he⟩ := inCells_sampled n s
  refine ⟨?_, fun h => wireInv_inCells h n, fun h => ?_⟩
  · rw [he]; exact wireOnly_sampledState bs lv dr s
  · rw [he]; exact { h with }

theorem below_setOe (b : Bool) (s : State) : Below s (s.setOe b) :=
  ⟨wireOnly_setOe b s, fun h => wireInv_of_eq h rfl rfl rfl, id⟩

theorem below_setDraws (n : Nat) (s : State) : Below s (s.setDraws n) :=
  ⟨wireOnly_setDraws n s, fun h => wireInv_of_eq h rfl rfl rfl, id⟩

theorem below_setCleared (n : Nat) (s : State) : Below s (s.setCleared n) :=
  ⟨wireOnly_setCleared n s, fun h => wireInv_of_eq h rfl rfl rfl, id⟩

theorem below_setTarget {t : Target} {s : State} (ht : s.target.Inv → t.Inv) : Below s (s.setTarget t) :=
  ⟨wireOnly_setTarget t s, fun h => wireInv_of_eq h rfl rfl rfl, ht⟩

theorem keeps_setDataLineOutput : Keeps Below setDataLineOutput := keeps_modify (below_setOe true)

theorem keeps_setDataLineInput : Keeps Below setDataLineInput := keeps_modify (below_setOe false)

theorem keeps_shiftOutBits (v : Word) (n : Nat) : Keeps Below (shiftOutBits v n) := by
  intro s r t hrun
  rw [op_shiftOutBits] at hrun
  split at hrun
  · cases hrun
  · split at hrun <;> cases hrun
    exact below_outCells _ s

theorem keeps_shiftInBits (n : Nat) : Keeps Below (shiftInBits n) := by
  intro s r t hrun
  rw [op_shiftInBits] at hrun
  split at hrun
  · cases hrun
  · split at hrun <;> cases hrun
    exact below_inCells n s

theorem keeps_targetReacts {f : Nat → Target → Target} (hf : ∀ n t, t.Inv → (f n t).Inv) :
    Keeps Below (targetReacts f) :=
  keeps_modify fun s => (below_setTarget (hf s.draws s.target)).trans (below_setDraws _ _)

theorem keeps_drawWord : Keeps Below drawWord := by
  intro s r t hrun
  cases hrun
  exact below_setDraws _ s

theorem keeps_drawResponse : Keeps Below drawResponse := by
  intro s r t hrun
  cases hrun
  exact below_setDraws _ s

theorem keeps_drawBytes (n : Nat) : Keeps Below (drawBytes n) := by
  intro s r t hrun
  cases hrun
  exact below_setDraws _ s

theorem keeps_noteCleared (e : Code) : Keeps Below (noteCleared e) := by
  refine keeps_modify fun s => ?_
  split
  · exact below_setCleared _ s
  · exact .refl s

/-! ## Line sequences -/

theorem keeps_sendRunLoop (v : Word) (fuel n : Nat) : Keeps Below (sendRunLoop v fuel n) := by
  induction fuel generalizing n with
  | zero => exact keepsBelow_pure _
  | succ fuel ih =>
    unfold sendRunLoop
    split
    · exact keepsBelow_pure _
    · exact keepsBelow_bind (keeps_shiftOutBits _ _) fun _ => ih _

theorem keeps_lineResetRun : Keeps Below lineResetRun :=
  keepsBelow_bind keepsBelow_get fun _ => keepsBelow_bind (keeps_sendRunLoop _ _ _) fun _ =>
    keeps_targetReacts fun n _ h => inv_onLineReset h n

theorem keeps_idleRun : Keeps Below idleRun :=
  keepsBelow_bind keepsBelow_get fun _ => keeps_sendRunLoop _ _ _

theorem keeps_sendJtagToSwd : Keeps Below sendJtagToSwd :=
  keepsBelow_bind (keeps_shiftOutBits _ _) fun _ => keeps_targetReacts fun _ _ h => inv_onSwitch h .swd

theorem keeps_sendSwdToJtag : Keeps Below sendSwdToJtag :=
  keepsBelow_bind (keeps_shiftOutBits _ _) fun _ => keeps_targetReacts fun _ _ h => inv_onSwitch h .jtag

theorem keeps_swdConnectSequence : Keeps Below swdConnectSequence :=
  keepsBelow_bind keeps_setDataLineOutput fun _ => keepsBelow_bind keeps_lineResetRun fun _ =>
    keepsBelow_bind keeps_sendJtagToSwd fun _ => keepsBelow_bind keeps_lineResetRun fun _ => keeps_idleRun

theorem keeps_swdDisconnectSequence : Keeps Below swdDisconnectSequence :=
  keepsBelow_bind keeps_setDataLineOutput fun _ => keepsBelow_bind keeps_lineResetRun fun _ =>
    keepsBelow_bind keeps_sendSwdToJtag fun _ => keepsBelow_bind keeps_lineResetRun fun _ => keeps_setDataLineInput

/-! ## Transactions and recovery -/

theorem keeps_noDataPhase (a : Ack) (data : Word) : Keeps Below (noDataPhase a data) :=
  keepsBelow_bind (keeps_shiftInBits _) fun _ => keepsBelow_bind keeps_setDataLineOutput fun _ => keepsBelow_pure _

theorem keeps_discardedPhase (a : Ack) (data : Word) : Keeps Below (discardedPhase a data) :=
  keepsBelow_bind (keeps_shiftInBits _) fun _ => keepsBelow_bind (keeps_shiftInBits _) fun _ => keeps_noDataPhase a data

theorem keeps_readDataPhase : Keeps Below readDataPhase :=
  keepsBelow_bind (keeps_shiftInBits _) fun _ => keepsBelow_bind (keeps_shiftInBits _) fun _ =>
    keepsBelow_bind (keeps_shiftInBits _) fun _ => keepsBelow_bind keeps_setDataLineOutput fun _ => keepsBelow_pure _

theorem keeps_writeDataPhase (code : Byte) (data : Word) : Keeps Below (writeDataPhase code data) :=
  keepsBelow_bind (keeps_shiftInBits _) fun _ => keepsBelow_bind keeps_setDataLineOutput fun _ =>
    keepsBelow_bind (keeps_shiftOutBits _ _) fun _ => keepsBelow_bind (keeps_shiftOutBits _ _) fun _ =>
      keepsBelow_bind (keeps_targetReacts fun n _ h => inv_onData h n code data) fun _ => keepsBelow_pure _

theorem keeps_executeTransaction (code : Byte) (data : Word) : Keeps Below (executeTransaction code data) := by
  unfold executeTransaction
  split
  · refine keepsBelow_bind (keeps_shiftOutBits _ _) fun _ =>
      keepsBelow_bind (keeps_targetReacts fun n _ h => inv_onRequest h n code) fun _ =>
        keepsBelow_bind keeps_setDataLineInput fun _ => keepsBelow_bind (keeps_shiftInBits _) fun _ =>
          keepsBelow_bind (keeps_shiftInBits _) fun raw => ?_
    split
    · split
      · exact keeps_readDataPhase
      · exact keeps_writeDataPhase code data
    · exact keeps_noDataPhase _ data
    · exact keeps_noDataPhase _ data
    · exact keeps_discardedPhase _ data
  · exact keeps_raise _

theorem keeps_retryLoop (code : Byte) (left : Nat) (r : Ack × Word) : Keeps Below (retryLoop code left r) := by
  induction left generalizing r with
  | zero => exact keepsBelow_pure _
  | succ left ih =>
    unfold retryLoop
    split
    · exact keepsBelow_bind (keeps_executeTransaction _ _) fun _ => ih _
    · exact keepsBelow_pure _

theorem keeps_executeTransactionWithRetry (code : Byte) (data : Word) (m : Nat) :
    Keeps Below (executeTransactionWithRetry code data m) :=
  keepsBelow_bind (keeps_executeTransaction _ _) fun _ => keeps_retryLoop _ _ _

theorem keeps_withFullRetry (code : Byte) (data : Word) : Keeps Below (withFullRetry code data) :=
  keepsBelow_bind keepsBelow_get fun _ => keeps_executeTransactionWithRetry _ _ _

theorem keeps_lineReset : Keeps Below lineReset :=
  keepsBelow_bind keeps_swdConnectSequence fun _ => keepsBelow_bind keeps_drawWord fun _ => keeps_executeTransaction _ _

theorem keeps_recoverLink : Keeps Below recoverLink := by
  refine keepsBelow_bind keeps_drawWord fun _ => keepsBelow_bind (keeps_withFullRetry _ _) fun r => ?_
  dsimp only
  split
  · exact keepsBelow_pure _
  · exact keepsBelow_bind keeps_lineReset fun _ => keepsBelow_pure _

theorem keeps_recoveryPath : Keeps Below recoveryPath := by
  refine keepsBelow_bind keeps_recoverLink fun _ => keepsBelow_bind (keeps_withFullRetry _ _) fun r => ?_
  dsimp only
  split
  · exact keepsBelow_bind keepsBelow_get fun _ => keepsBelow_bind (keeps_withFullRetry _ _) fun _ => keepsBelow_pure _
  · exact keepsBelow_pure _

theorem keeps_clearError (a : Ack) : Keeps Below (clearError a) := by
  cases a with
  | ok | parityError => exact keepsBelow_pure _
  | wait | fault => exact keeps_recoveryPath
  | protocolError raw =>
    rw [clearError_protocolError]
    split
    · exact keepsBelow_pure _
    · exact keeps_recoveryPath

theorem keeps_wrapped (code : Byte) (data : Word) : Keeps Below (wrapped code data) := by
  refine keepsBelow_bind (keeps_withFullRetry _ _) fun r => ?_
  dsimp only
  split
  · exact keepsBelow_pure _
  · exact keepsBelow_bind (keeps_clearError _) fun _ => keepsBelow_bind (keeps_noteCleared _) fun _ => keepsBelow_pure _

theorem stepsKeep_wrapWrite (code : Byte) (data : Word) : StepsKeep (wrapWrite code data) :=
  stepsKeep_bind (stepsKeep_lift (keeps_wrapped code data)) fun _ => stepsKeep_check _

theorem stepsKeep_wrapRead (code : Byte) : StepsKeep (wrapRead code) :=
  stepsKeep_bind (stepsKeep_lift keeps_drawWord) fun _ => stepsKeep_bind (stepsKeep_lift (keeps_wrapped _ _)) fun _ =>
    stepsKeep_bind (stepsKeep_check _) fun _ => stepsKeep_pure _

/-! ## Memory access -/

theorem keeps_checkAligned (addr : Word) (len : Nat) : Keeps Below (checkAligned addr len) := by
  unfold checkAligned
  split
  · exact keepsBelow_pure _
  · exact keeps_raise _

theorem keeps_checkPage (addr : Word) (len : Nat) : Keeps Below (checkPage addr len) := by
  unfold checkPage
  split
  · exact keepsBelow_pure _
  · exact keeps_raise _

theorem stepsKeep_writeWordsLoop (ws : List Word) : StepsKeep (writeWordsLoop ws) := by
  induction ws with
  | nil => exact stepsKeep_pure _
  | cons w ws ih => exact stepsKeep_bind (stepsKeep_wrapWrite _ _) fun _ => ih

theorem stepsKeep_writeChunkSteps (addr : Word) (ws : List Word) : StepsKeep (writeChunkSteps addr ws) :=
  stepsKeep_bind (stepsKeep_lift keepsBelow_get) fun _ => stepsKeep_bind (stepsKeep_wrapWrite _ _) fun _ =>
    stepsKeep_bind (stepsKeep_wrapWrite _ _) fun _ => stepsKeep_bind (stepsKeep_writeWordsLoop _) fun _ =>
      stepsKeep_bind (stepsKeep_wrapRead _) fun _ => stepsKeep_pure _

theorem keeps_writeWord32Chunk (addr : Word) (buf : List Byte) : Keeps Below (writeWord32Chunk addr buf) := by
  refine keepsBelow_bind (keeps_checkAligned _ _) fun _ => keepsBelow_bind (keeps_checkPage _ _) fun _ => ?_
  split
  · exact keepsBelow_pure _
  · exact (stepsKeep_writeChunkSteps _ _).code

theorem keeps_storedWord (k : Nat) (w : Word) : Keeps Below (storedWord k w) := by
  refine keepsBelow_bind keepsBelow_get fun _ => ?_
  split
  · exact keepsBelow_pure _
  · exact keeps_drawWord

theorem stepsKeep_readStored (k : Nat) (code : Byte) : StepsKeep (readStored k code) :=
  stepsKeep_bind (stepsKeep_wrapRead _) fun _ => stepsKeep_lift (keeps_storedWord _ _)

theorem keeps_readsStored (k : Nat) (codes : List Byte) : Keeps Below (readsStored k codes) := by
  induction codes with
  | nil => exact keepsBelow_pure _
  | cons c codes ih =>
    refine keepsBelow_bind (stepsKeep_readStored k c) fun r => ?_
    cases r with
    | ok w => exact keepsBelow_bind ih fun _ => keepsBelow_pure _
    | error e => exact keepsBelow_pure _

theorem stepsKeep_startRead (addr : Word) : StepsKeep (startRead addr) :=
  stepsKeep_bind (stepsKeep_lift keepsBelow_get) fun _ => stepsKeep_bind (stepsKeep_wrapWrite _ _) fun _ =>
    stepsKeep_bind (stepsKeep_wrapWrite _ _) fun _ => stepsKeep_bind (stepsKeep_wrapRead _) fun _ => stepsKeep_pure _

theorem keeps_readChunkSteps (addr : Word) (n : Nat) : Keeps Below (readChunkSteps addr n) := by
  refine keepsBelow_bind keepsBelow_get fun _ => keepsBelow_bind (stepsKeep_startRead addr).code fun _ => ?_
  split
  · exact keeps_readsStored _ _
  · exact keepsBelow_pure _

theorem keeps_readWord32Chunk (addr : Word) (len : Nat) : Keeps Below (readWord32Chunk addr len) := by
  refine keepsBelow_bind (keeps_checkAligned _ _) fun _ => keepsBelow_bind (keeps_checkPage _ _) fun _ => ?_
  split
  · exact keepsBelow_pure _
  · exact keepsBelow_bind (keeps_readChunkSteps _ _) fun _ => keepsBelow_bind (keeps_drawBytes _) fun _ =>
      keepsBelow_pure _

theorem keeps_writeChunkRetried (addr : Word) (buf : List Byte) : Keeps Below (writeChunkRetried addr buf) := by
  refine keepsBelow_bind (keeps_writeWord32Chunk _ _) fun _ => ?_
  split
  · exact keepsBelow_pure _
  · exact keeps_writeWord32Chunk _ _

theorem keeps_writeMem32Loop (cs : List (Word × Nat)) (buf : List Byte) : Keeps Below (writeMem32Loop cs buf) := by
  induction cs generalizing buf with
  | nil => exact keepsBelow_pure _
  | cons c cs ih =>
    refine keepsBelow_bind (keeps_writeChunkRetried _ _) fun _ => ?_
    split
    · exact ih _
    · exact keepsBelow_pure _

theorem keeps_writeMem32 (addr : Word) (buf : List Byte) : Keeps Below (writeMem32 addr buf) :=
  keepsBelow_bind (keeps_checkAligned _ _) fun _ => keeps_writeMem32Loop _ _

theorem keeps_readChunkRetried (addr : Word) (len : Nat) : Keeps Below (readChunkRetried addr len) := by
  refine keepsBelow_bind (keeps_readWord32Chunk _ _) fun _ => ?_
  dsimp only
  split
  · exact keepsBelow_pure _
  · exact keeps_readWord32Chunk _ _

theorem keeps_readMem32Loop (cs : List (Word × Nat)) : Keeps Below (readMem32Loop cs) := by
  induction cs with
  | nil => exact keepsBelow_pure _
  | cons c cs ih =>
    refine keepsBelow_bind (keeps_readChunkRetried _ _) fun _ => ?_
    dsimp only
    split
    · exact keepsBelow_bind ih fun _ => keepsBelow_pure _
    · exact keepsBelow_bind (keeps_drawBytes _) fun _ => keepsBelow_pure _

theorem keeps_readMem32 (addr : Word) (len : Nat) : Keeps Below (readMem32 addr len) :=
  keepsBelow_bind (keeps_checkAligned _ _) fun _ => keeps_readMem32Loop _

theorem stepsKeep_byteWrite (a : Word) (b : Byte) : StepsKeep (byteWrite a b) :=
  stepsKeep_bind (stepsKeep_wrapWrite _ _) fun _ => stepsKeep_wrapWrite _ _

theorem keeps_writeBytesLoop (a : Word) (bs : List Byte) : Keeps Below (writeBytesLoop a bs) := by
  induction bs generalizing a with
  | nil => exact keepsBelow_pure _
  | cons b bs ih =>
    have hnext : ∀ e : Code, Keeps Below (if e = .ok then writeBytesLoop (a + 1) bs else pure e) := by
      intro e
      split
      · exact ih _
      · exact keepsBelow_pure _
    refine keepsBelow_bind (stepsKeep_byteWrite a b).code fun e => ?_
    dsimp only
    split
    · exact keepsBelow_bind (keepsBelow_pure _) hnext
    · exact keepsBelow_bind (stepsKeep_byteWrite a b).code hnext

theorem keeps_writeMem8 (addr : Word) (buf : List Byte) : Keeps Below (writeMem8 addr buf) := by
  refine keepsBelow_bind keepsBelow_get fun _ => keepsBelow_bind (keeps_wrapped _ _) fun r => ?_
  dsimp only
  split
  · exact keepsBelow_bind (keeps_writeBytesLoop _ _) fun _ => keepsBelow_bind (keeps_wrapped _ _) fun _ =>
      keepsBelow_pure _
  · exact keepsBelow_bind (keepsBelow_pure _) fun _ => keepsBelow_bind (keeps_wrapped _ _) fun _ => keepsBelow_pure _

theorem stepsKeep_byteRead (k : Nat) (a : Word) : StepsKeep (byteRead k a) :=
  stepsKeep_bind (stepsKeep_wrapWrite _ _) fun _ => stepsKeep_bind (stepsKeep_wrapRead _) fun _ =>
    stepsKeep_bind (stepsKeep_readStored _ _) fun _ => stepsKeep_pure _

theorem keeps_byteReadRetried (k : Nat) (a : Word) : Keeps Below (byteReadRetried k a) := by
  refine keepsBelow_bind (stepsKeep_byteRead k a) fun r => ?_
  cases r with
  | ok b => exact keepsBelow_pure _
  | error e => exact stepsKeep_byteRead k a

theorem keeps_readBytesLoop (k : Nat) (a : Word) (n : Nat) : Keeps Below (readBytesLoop k a n) := by
  induction n generalizing a with
  | zero => exact keepsBelow_pure _
  | succ n ih =>
    refine keepsBelow_bind (keeps_byteReadRetried k a) fun r => ?_
    cases r with
    | ok b => exact keepsBelow_bind (ih _) fun _ => keepsBelow_pure _
    | error e => exact keepsBelow_bind (keeps_drawBytes _) fun _ => keepsBelow_pure _

theorem keeps_readMem8 (addr : Word) (len : Nat) : Keeps Below (readMem8 addr len) := by
  refine keepsBelow_bind keepsBelow_get fun _ => keepsBelow_bind (keeps_wrapped _ _) fun r => ?_
  dsimp only
  split
  · exact keepsBelow_bind (keeps_readBytesLoop _ _ _) fun _ => keepsBelow_bind (keeps_wrapped _ _) fun _ =>
      keepsBelow_pure _
  · exact keepsBelow_bind (keepsBelow_bind (keeps_drawBytes _) fun _ => keepsBelow_pure _) fun _ =>
      keepsBelow_bind (keeps_wrapped _ _) fun _ => keepsBelow_pure _

/-! ## Single words and core registers -/

theorem keeps_writeWord (addr v : Word) : Keeps Below (writeWord addr v) := keeps_writeWord32Chunk _ _

theorem keeps_readWord (addr : Word) : Keeps Below (readWord addr) :=
  keepsBelow_bind (keeps_readWord32Chunk _ _) fun _ => keepsBelow_pure _

theorem keeps_pollReadyLoop (k : Nat) : Keeps Below (pollReadyLoop k) := by
  induction k with
  | zero => exact keepsBelow_pure _
  | succ k ih =>
    unfold pollReadyLoop
    refine keepsBelow_bind (keeps_readWord _) fun r => ?_
    dsimp only
    split
    · split
      · exact keepsBelow_pure _
      · split
        · exact ih
        · exact keepsBelow_bind (keepsBelow_pure _) fun _ => ih
    · exact keepsBelow_pure _

theorem keeps_pollReady : Keeps Below pollReady := keepsBelow_bind keepsBelow_get fun _ => keeps_pollReadyLoop _

theorem keeps_failedWord (e : Code) : Keeps Below (failedWord e) :=
  keepsBelow_bind keeps_drawWord fun _ => keepsBelow_pure _

theorem keeps_readCoreReg (index : Byte) : Keeps Below (readCoreReg index) := by
  refine keepsBelow_bind (keeps_writeWord _ _) fun e => ?_
  split
  · refine keepsBelow_bind keeps_pollReady fun e => ?_
    split
    · refine keepsBelow_bind (keeps_readWord _) fun r => ?_
      dsimp only
      split
      · exact keepsBelow_pure _
      · exact keeps_failedWord _
    · exact keeps_failedWord _
  · exact keeps_failedWord _

theorem keeps_writeCoreReg (index : Byte) (v : Word) : Keeps Below (writeCoreReg index v) := by
  refine keepsBelow_bind (keeps_writeWord _ _) fun e => ?_
  split
  · refine keepsBelow_bind (keeps_writeWord _ _) fun e => ?_
    split
    · exact keeps_pollReady
    · exact keepsBelow_pure _
  · exact keepsBelow_pure _

/-! ## The steps of `open` -/

theorem stepsKeep_powerUpPollLoop (k : Nat) : StepsKeep (powerUpPollLoop k) := by
  induction k with
  | zero => exact stepsKeep_throw _
  | succ k ih =>
    refine stepsKeep_bind (stepsKeep_wrapRead _) fun s => ?_
    split
    · exact stepsKeep_pure _
    · dsimp only
      split
      · exact ih
      · exact stepsKeep_bind (stepsKeep_lift keepsBelow_get) fun _ => stepsKeep_bind (stepsKeep_lift (keepsBelow_pure _))
          fun _ => stepsKeep_bind (stepsKeep_lift (keepsBelow_pure _)) fun _ => ih

theorem stepsKeep_identifyAp : StepsKeep identifyAp := by
  refine stepsKeep_bind (stepsKeep_wrapWrite _ _) fun _ => stepsKeep_bind (stepsKeep_wrapRead _) fun _ =>
    stepsKeep_bind (stepsKeep_wrapRead _) fun _ => stepsKeep_bind (stepsKeep_lift keepsBelow_get) fun _ => ?_
  split
  · exact stepsKeep_throw _
  · exact stepsKeep_pure _

theorem stepsKeep_openSteps : StepsKeep openSteps :=
  stepsKeep_bind (stepsKeep_wrapWrite _ _) fun _ => stepsKeep_bind (stepsKeep_wrapWrite _ _) fun _ =>
    stepsKeep_bind (stepsKeep_wrapWrite _ _) fun _ =>
      stepsKeep_bind (stepsKeep_bind (stepsKeep_lift keepsBelow_get) fun _ => stepsKeep_powerUpPollLoop _) fun _ =>
        stepsKeep_bind (stepsKeep_wrapWrite _ _) fun _ => stepsKeep_bind stepsKeep_identifyAp fun _ =>
          stepsKeep_bind (stepsKeep_wrapWrite _ _) fun _ => stepsKeep_bind (stepsKeep_lift keepsBelow_get) fun _ =>
            stepsKeep_bind (stepsKeep_wrapWrite _ _) fun _ =>
              stepsKeep_bind (stepsKeep_lift (keeps_writeWord _ _)) fun _ => stepsKeep_check _

end Sys2Proof.Proofs

/-! PROOF. What a step keeps and who writes what (10_state R32, R38-R41, R44; 45_session R301, R309, R311; 46_host_adapter
R333, R336): the session operations over the frame of the layers below, the host commands over both, and one lemma for
whatever a request decodes to. -/

namespace Sys2Proof.Proofs

open Sys2Proof Sys2Proof.Machine Sys2Proof.Laws

/-! ## The code a multi-step operation fails with (42_error_recovery R233) -/

/-- What ends a multi-step operation early is a failure: the code is not 0. -/
def FailsNonzero {α : Type} (x : Steps α) : Prop := ∀ s, Ends x.run s fun r _ => r ≠ .error .ok

section FailsNonzero

variable {α β : Type}

theorem failsNonzero_pure (a : α) : FailsNonzero (pure a : Steps α) :=
  fun s => (ends_pure (α := Except Code α) (.ok a) s _).2 (by simp)

theorem failsNonzero_throw {c : Code} (hc : c ≠ .ok) : FailsNonzero (throw c : Steps α) :=
  fun s => (ends_pure (α := Except Code α) (.error c) s _).2 (by simpa using hc)

theorem failsNonzero_check (c : Code) : FailsNonzero (Steps.check c) := by
  unfold Steps.check
  split
  case isTrue => exact failsNonzero_pure ()
  case isFalse hc => exact failsNonzero_throw hc

theorem failsNonzero_lift (x : Op α) : FailsNonzero (liftM x : Steps α) := by
  intro s r t hrun
  rw [steps_lift_run] at hrun
  obtain ⟨a, u, -, hpure⟩ := op_bind_eq_ok.1 hrun
  cases hpure
  simp

theorem failsNonzero_bind {x : Steps α} {f : α → Steps β} (hx : FailsNonzero x) (hf : ∀ a, FailsNonzero (f a)) :
    FailsNonzero (x >>= f) := by
  intro s
  rw [steps_bind_run]
  refine (hx s).bind fun r t hr => ?_
  cases r with
  | ok a => exact hf a t
  | error c => exact (ends_pure _ t _).2 (by simpa using hr)

end FailsNonzero

theorem failsNonzero_wrapWrite (code : Byte) (data : Word) : FailsNonzero (wrapWrite code data) :=
  failsNonzero_bind (failsNonzero_lift _) fun _ => failsNonzero_check _

theorem failsNonzero_wrapRead (code : Byte) : FailsNonzero (wrapRead code) :=
  failsNonzero_bind (failsNonzero_lift _) fun _ => failsNonzero_bind (failsNonzero_lift _) fun _ =>
    failsNonzero_bind (failsNonzero_check _) fun _ => failsNonzero_pure _

theorem failsNonzero_powerUpPollLoop (k : Nat) : FailsNonzero (powerUpPollLoop k) := by
  induction k with
  | zero => exact failsNonzero_throw (by decide)
  | succ k ih =>
    refine failsNonzero_bind (failsNonzero_wrapRead _) fun s => ?_
    split
    · exact failsNonzero_pure ()
    · dsimp only
      split
      · exact ih
      · exact failsNonzero_bind (failsNonzero_lift _) fun _ => failsNonzero_bind (failsNonzero_lift _) fun _ =>
          failsNonzero_bind (failsNonzero_lift _) fun _ => ih

theorem failsNonzero_identifyAp : FailsNonzero identifyAp := by
  refine failsNonzero_bind (failsNonzero_wrapWrite _ _) fun _ => failsNonzero_bind (failsNonzero_wrapRead _) fun _ =>
    failsNonzero_bind (failsNonzero_wrapRead _) fun _ => failsNonzero_bind (failsNonzero_lift _) fun _ => ?_
  split
  · exact failsNonzero_throw (by decide)
  · exact failsNonzero_pure ()

theorem failsNonzero_openSteps : FailsNonzero openSteps :=
  failsNonzero_bind (failsNonzero_wrapWrite _ _) fun _ => failsNonzero_bind (failsNonzero_wrapWrite _ _) fun _ =>
    failsNonzero_bind (failsNonzero_wrapWrite _ _) fun _ =>
      failsNonzero_bind (failsNonzero_bind (failsNonzero_lift _) fun _ => failsNonzero_powerUpPollLoop _) fun _ =>
        failsNonzero_bind (failsNonzero_wrapWrite _ _) fun _ => failsNonzero_bind failsNonzero_identifyAp fun _ =>
          failsNonzero_bind (failsNonzero_wrapWrite _ _) fun _ => failsNonzero_bind (failsNonzero_lift _) fun _ =>
            failsNonzero_bind (failsNonzero_wrapWrite _ _) fun _ =>
              failsNonzero_bind (failsNonzero_lift _) fun _ => failsNonzero_check _

/-! ## The session cells over the frame -/

/-- The frame does not look at the session: it holds as well of the states with another one. -/
theorem Below.setSession {s t : State} (h : Below s t) (x : Session) : Below (s.setSession x) (t.setSession x) where
  above := { h.above with session := rfl }
  wire k := wireInv_of_eq (h.wire (wireInv_of_eq k rfl rfl rfl)) rfl rfl rfl
  target := h.target

theorem Below.setCoreId {s t : State} (h : Below s t) (w : Word) : Below (s.setCoreId w) (t.setCoreId w) where
  above := { h.above with coreId := rfl }
  wire k := wireInv_of_eq (h.wire (wireInv_of_eq k rfl rfl rfl)) rfl rfl rfl
  target := h.target

/-- A sequence whose first part is known to end goes on from there. -/
theorem runs_bind_of_ok {α β : Type} {x : Op α} {f : α → Op β} {s t : State} {a : α} {Q : β → State → Prop}
    (h : x s = .ok (a, t)) (hf : Runs (f a) t Q) : Runs (x >>= f) s Q :=
  (runs_bind x f s Q).2 ⟨a, t, h, hf⟩

/-- What is known of an operation that ends on a driven line, and what it keeps however it ends. -/
theorem Works.below {α : Type} {x : Op α} {P : α → Prop} (h : Works x P) (hk : Keeps Below x) {s : State}
    (ho : s.oe = true) : Runs x s fun a t => P a ∧ Below s t ∧ t.oe = true := by
  obtain ⟨a, t, hrun, hp, -, hot⟩ := h s ho
  exact ⟨a, t, hrun, hp, hk s a t hrun, hot⟩

/-! ## open (45_session R301, R309) -/

/-- `s` with the session that the code of `open` says, and this core identifier. -/
def openedAs (c : Code) (id : Word) (s : State) : State :=
  (s.setSession (if c = .ok then .opened else .closed)).setCoreId id

/-- A failed `open` leaves the session Closed, whatever it found (R309). -/
theorem openFailed_runs {c : Code} (hc : c ≠ .ok) {id : Word} {s t : State}
    (h : Below ((s.setSession .closed).setCoreId id) (t.setSession .closed)) (ho : t.oe = true) :
    Runs (openFailed c) t fun r u => u.oe = true ∧ ∃ id, Below (openedAs r id s) u := by
  refine ⟨c, _, rfl, ho, Config.drawWord t.draws, ?_⟩
  rw [openedAs, if_neg hc]
  exact (h.setCoreId _).trans (below_setDraws (t.draws + 1) _)

/-- `open` ends from any state, with the line driven and the session that its code says, all else above the wire as it was
but `coreId`. -/
theorem openSession_runs (s : State) :
    Runs openSession s fun c t => t.oe = true ∧ ∃ id, Below (openedAs c id s) t := by
  unfold openSession
  refine runs_bind_of_ok (op_modify _ s) ?_
  obtain ⟨⟨r, id⟩, t, hrun, -, -, hot⟩ := lineReset_runs (s.setSession .connecting)
  have hbelow := keeps_lineReset _ _ _ hrun
  have hreset : ∀ x, Below (s.setSession x) (t.setSession x) := fun x => hbelow.setSession x
  refine runs_bind_of_ok hrun ?_
  dsimp only
  split
  case isFalse => exact openFailed_runs (id := s.coreId) (by decide) (hreset .closed) hot
  case isTrue =>
    refine runs_bind_of_ok (op_modify _ t) ?_
    obtain ⟨r, u, hsteps, -, -, hou⟩ := stepsWork_openSteps (t.setCoreId id) hot
    have hcode := failsNonzero_openSteps _ _ _ hsteps
    have hall : ∀ x, Below ((s.setSession x).setCoreId id) (u.setSession x) := fun x =>
      ((hreset x).setCoreId id).trans ((stepsKeep_openSteps _ _ _ hsteps).setSession x)
    refine runs_bind_of_ok hsteps ?_
    cases r with
    | ok _ => exact ⟨.ok, u.setSession .opened, rfl, hou, id, hall .opened⟩
    | error c => exact openFailed_runs (fun hc => hcode (by rw [hc])) (hall .closed) hou

/-- Settles O46: the two parts of `open` end whatever the target does, and what they keep gives the frame. -/
theorem openAlwaysEnds : Obligations.OpenAlwaysEnds := by
  intro s
  obtain ⟨c, t, hrun, hoe, id, hbelow⟩ := openSession_runs s
  exact ⟨c, id, t, hrun, hoe, hbelow.above⟩

/-! ## close (45_session R311, R312) -/

theorem closeSession_ends (s : State) :
    Ends closeSession s fun _ t => Below ((s.setSession .closed).setCoreId 0) t := by
  have hbody : Keeps Below (do
      let _ ← writeWord addrDhcsr dhcsrDebugRelease
      let _ ← wrapped codeWrCtrlstat ctrlPwrdn
      swdDisconnectSequence) :=
    keepsBelow_bind (keeps_writeWord _ _) fun _ => keepsBelow_bind (keeps_wrapped _ _) fun _ => keeps_swdDisconnectSequence
  intro r t hrun
  unfold closeSession at hrun
  obtain ⟨_, _, hid, hrun⟩ := op_bind_eq_ok.1 hrun
  cases hid
  obtain ⟨e, u, hword, hrun⟩ := op_bind_eq_ok.1 hrun
  obtain ⟨p, v, hdown, hrun⟩ := op_bind_eq_ok.1 hrun
  obtain ⟨_, w, hseq, hrun⟩ := op_bind_eq_ok.1 hrun
  cases hrun
  have hall := hbody (s.setCoreId 0) () w (op_bind_eq_ok.2 ⟨e, u, hword, op_bind_eq_ok.2 ⟨p, v, hdown, hseq⟩⟩)
  exact hall.setSession .closed

end Sys2Proof.Proofs

/-! PROOF. The frame of one step (10_state R38-R41, R44; 46_host_adapter R333, R336): what a memory-range command may change,
what every other request may change, and from them the invariant of a run and who writes what. -/

namespace Sys2Proof.Proofs

open Sys2Proof Sys2Proof.Machine Sys2Proof.Laws

/-! ## Three frames, from the widest to the narrowest -/

/-- What every step does at most: it appends to the trace, and keeps the parameters and the two parts of the invariant that
are about the wire and the target. -/
structure Sound (s t : State) : Prop where
  params : t.params = s.params
  trace  : s.trace <+: t.trace
  wire   : s.WireInv → t.WireInv
  target : s.target.Inv → t.target.Inv

/-- What a memory-range command does at most: the mode stays, and the session may move, but not to Connecting. -/
structure Ranged (s t : State) : Prop extends Sound s t where
  mode    : t.mode = s.mode
  session : t.session = s.session ∨ t.session ≠ .connecting

/-- What a command does at most that is about neither a memory range nor the session: of the cells that the host sees, none
changes. -/
structure Quiet (s t : State) : Prop extends Sound s t where
  mode       : t.mode = s.mode
  lastStatus : t.lastStatus = s.lastStatus
  session    : t.session = s.session
  coreId     : t.coreId = s.coreId

/-- What a transaction, a line sequence or a call does at most: nothing passes to or from the host either. -/
structure Silent (s t : State) : Prop extends Quiet s t where
  sent     : t.sent = s.sent
  hostData : t.hostData = s.hostData

section

variable {s t u : State}

theorem Sound.trans (h : Sound s t) (k : Sound t u) : Sound s u :=
  ⟨k.params.trans h.params, h.trace.trans k.trace, k.wire ∘ h.wire, k.target ∘ h.target⟩

theorem Ranged.trans (h : Ranged s t) (k : Ranged t u) : Ranged s u where
  toSound := h.toSound.trans k.toSound
  mode := k.mode.trans h.mode
  session := k.session.elim (fun e => e ▸ h.session) .inr

theorem Quiet.trans (h : Quiet s t) (k : Quiet t u) : Quiet s u where
  toSound := h.toSound.trans k.toSound
  mode := k.mode.trans h.mode
  lastStatus := k.lastStatus.trans h.lastStatus
  session := k.session.trans h.session
  coreId := k.coreId.trans h.coreId

theorem Silent.trans (h : Silent s t) (k : Silent t u) : Silent s u where
  toQuiet := h.toQuiet.trans k.toQuiet
  sent := k.sent.trans h.sent
  hostData := k.hostData.trans h.hostData

theorem Below.silent (h : Below s t) : Silent s t where
  params := h.above.params
  trace := h.above.trace
  wire := h.wire
  target := h.target
  mode := h.above.mode
  lastStatus := h.above.lastStatus
  session := h.above.session
  coreId := h.above.coreId
  sent := h.above.sent
  hostData := h.above.hostData

theorem Quiet.ranged (h : Quiet s t) : Ranged s t := { h with session := .inl h.session }

end

/-! ## The updates above the wire -/

/-- An update that leaves the wire, the trace, the target and the parameters alone. -/
theorem sound_of_eq {s t : State} (hparams : t.params = s.params) (htrace : t.trace = s.trace) (hclk : t.clk = s.clk)
    (hdout : t.dout = s.dout) (htarget : t.target = s.target) : Sound s t where
  params := hparams
  trace := htrace ▸ List.prefix_rfl
  wire h := wireInv_of_eq h htrace hclk hdout
  target h := htarget ▸ h

theorem silent_refl (s : State) : Silent s s := (Below.refl s).silent

theorem silent_setData (w : Word) (s : State) : Silent s (s.setData w) :=
  { sound_of_eq (s := s) (t := s.setData w) rfl rfl rfl rfl rfl with
    mode := rfl, lastStatus := rfl, session := rfl, coreId := rfl, sent := rfl, hostData := rfl }

theorem silent_setResult (r : OpResult) (s : State) : Silent s (s.setResult r) :=
  { sound_of_eq (s := s) (t := s.setResult r) rfl rfl rfl rfl rfl with
    mode := rfl, lastStatus := rfl, session := rfl, coreId := rfl, sent := rfl, hostData := rfl }

theorem silent_setInbox (q : List Request) (s : State) : Silent s (s.setInbox q) :=
  { sound_of_eq (s := s) (t := s.setInbox q) rfl rfl rfl rfl rfl with
    mode := rfl, lastStatus := rfl, session := rfl, coreId := rfl, sent := rfl, hostData := rfl }

theorem quiet_transmit (buf : List Byte) (s : State) : Quiet s (s.transmit buf) :=
  { sound_of_eq (s := s) (t := s.transmit buf) rfl rfl rfl rfl rfl with
    mode := rfl, lastStatus := rfl, session := rfl, coreId := rfl }

theorem ranged_setLastStatus (x : LastStatus) (s : State) : Ranged s (s.setLastStatus x) :=
  { sound_of_eq (s := s) (t := s.setLastStatus x) rfl rfl rfl rfl rfl with mode := rfl, session := .inl rfl }

/-! ## Operations over these frames -/

section

variable {α β : Type} {x : Op α}

theorem Keeps.silent (h : Keeps Below x) : Keeps Silent x := h.mono fun _ _ => Below.silent

theorem Keeps.quiet (h : Keeps Below x) : Keeps Quiet x := h.mono fun _ _ k => k.silent.toQuiet

theorem Keeps.ranged (h : Keeps Quiet x) : Keeps Ranged x := h.mono fun _ _ => Quiet.ranged

theorem keepsQuiet_bind {f : α → Op β} (hx : Keeps Quiet x) (hf : ∀ a, Keeps Quiet (f a)) : Keeps Quiet (x >>= f) :=
  keeps_bind (R := Quiet) (fun _ _ _ h k => h.trans k) hx hf

theorem keepsQuiet_pure (a : α) : Keeps Quiet (pure a) := (keepsBelow_pure a).quiet

theorem keepsRanged_bind {f : α → Op β} (hx : Keeps Ranged x) (hf : ∀ a, Keeps Ranged (f a)) :
    Keeps Ranged (x >>= f) :=
  keeps_bind (R := Ranged) (fun _ _ _ h k => h.trans k) hx hf

theorem keepsRanged_pure (a : α) : Keeps Ranged (pure a) := (keepsQuiet_pure a).ranged

theorem keepsRanged_get : Keeps Ranged (get : Op State) := keepsBelow_get.quiet.ranged

end

theorem keepsQuiet_transmit (buf : List Byte) : Keeps Quiet (transmit buf) := keeps_modify (quiet_transmit buf)

theorem keepsQuiet_respondStatus (ok : Bool) : Keeps Quiet (respondStatus ok) :=
  keepsQuiet_bind keepsBelow_get.quiet fun _ => keepsQuiet_transmit _

theorem keepsQuiet_respondForeign : Keeps Quiet respondForeign :=
  keepsQuiet_bind keeps_drawResponse.quiet fun _ => keepsQuiet_transmit _

theorem keeps_readRegsLoop (is : List Byte) : Keeps Below (readRegsLoop is) := by
  induction is with
  | nil => exact keepsBelow_pure _
  | cons i is ih => exact keepsBelow_bind (keeps_readCoreReg i) fun _ => keepsBelow_bind ih fun _ => keepsBelow_pure _

/-! ## The memory-range commands (46_host_adapter R334-R336) -/

/-- `open` leaves the session Open or Closed (45_session R301, R309). -/
theorem openedAs_session_ne (c : Code) (id : Word) (s : State) : (openedAs c id s).session ≠ .connecting := by
  show (if c = .ok then Session.opened else Session.closed) ≠ .connecting
  split <;> simp

theorem keepsRanged_openSession : Keeps Ranged openSession := by
  intro s
  refine (openSession_runs s).ends.mono ?_
  rintro c t ⟨-, id, h⟩
  exact
    { params := h.above.params, trace := h.above.trace, target := h.target, mode := h.above.mode
      wire := fun k => h.wire (wireInv_of_eq k rfl rfl rfl)
      session := .inr (h.above.session ▸ openedAs_session_ne c id s) }

theorem keepsRanged_receive (n : Nat) : Keeps Ranged (receive n) := by
  intro s r t hrun
  cases hrun
  exact
    { sound_of_eq (s := s) (t := ({ s with hostData := s.hostData.tail } : State).setDraws _) rfl rfl rfl rfl rfl with
      mode := rfl, session := .inl rfl }

theorem keepsRanged_layerOp (kind : RangeKind) (a : Word) (n : Nat) : Keeps Ranged (layerOp kind a n) := by
  cases kind with
  | r32 => exact (keeps_readMem32 a n).quiet.ranged
  | r8 => exact (keeps_readMem8 a n).quiet.ranged
  | w32 =>
    exact keepsRanged_bind (keepsRanged_receive n) fun _ => keepsRanged_bind (keeps_writeMem32 _ _).quiet.ranged fun _ =>
      keepsRanged_pure _
  | w8 =>
    exact keepsRanged_bind (keepsRanged_receive n) fun _ => keepsRanged_bind (keeps_writeMem8 _ _).quiet.ranged fun _ =>
      keepsRanged_pure _

theorem keepsRanged_subChunk (kind : RangeKind) (a : Word) (n : Nat) : Keeps Ranged (subChunk kind a n) := by
  have hreopen : ∀ e : Code, Keeps Ranged (if e = .ok then pure true else do let _ ← openSession; pure false : Op Bool) := by
    intro e
    split
    · exact keepsRanged_pure _
    · exact keepsRanged_bind keepsRanged_openSession fun _ => keepsRanged_pure _
  refine keepsRanged_bind (keepsRanged_layerOp kind a n) fun r =>
    keepsRanged_bind (keeps_modify (ranged_setLastStatus _)) fun _ => ?_
  dsimp only
  split
  · exact hreopen _
  · exact keepsRanged_bind (keepsQuiet_transmit _).ranged fun _ => hreopen _

theorem keepsRanged_memRangeLoop (kind : RangeKind) (fuel : Nat) (a : Word) (remaining : Nat) (allOk : Bool) :
    Keeps Ranged (memRangeLoop kind fuel a remaining allOk) := by
  induction fuel generalizing a remaining allOk with
  | zero => exact keepsRanged_pure _
  | succ fuel ih =>
    unfold memRangeLoop
    split
    · exact keepsRanged_pure _
    · exact keepsRanged_bind keepsRanged_get fun _ => keepsRanged_bind (keepsRanged_subChunk _ _ _) fun _ => ih _ _ _

theorem keepsRanged_memRange (kind : RangeKind) (addr : Word) (len : Nat) : Keeps Ranged (memRange kind addr len) := by
  refine keepsRanged_bind (keepsRanged_memRangeLoop _ _ _ _ _) fun _ => keepsRanged_bind keepsRanged_get fun _ => ?_
  split
  · exact (keepsQuiet_respondStatus _).ranged
  · exact keepsRanged_pure _

/-! ## From an operation to a step -/

/-- A step that an operation answers is that operation's end with its result recorded (log 7). -/
theorem outcome_next {x : Op OpResult} {s t : State} (h : x.outcome s = .next t) :
    ∃ r u, x s = .ok (r, u) ∧ t = u.setResult r := by
  unfold Op.outcome at h
  split at h
  · rename_i r u hrun
    cases h
    exact ⟨r, u, hrun, rfl⟩
  · cases h

theorem silent_of_outcome {x : Op OpResult} (hx : Keeps Silent x) {s t : State} (h : x.outcome s = .next t) :
    Silent s t := by
  obtain ⟨r, u, hrun, rfl⟩ := outcome_next h
  exact (hx s r u hrun).trans (silent_setResult r u)

theorem quiet_of_outcome {x : Op Int} (hx : Keeps Quiet x) {s t : State}
    (h : (do let r ← x; pure (OpResult.host r) : Op OpResult).outcome s = .next t) : Quiet s t := by
  obtain ⟨r, u, hrun, rfl⟩ := outcome_next h
  exact (keepsQuiet_bind hx (fun _ => keepsQuiet_pure _) s r u hrun).trans (silent_setResult r u).toQuiet

theorem ranged_of_outcome {x : Op OpResult} (hx : Keeps Ranged x) {s t : State} (h : x.outcome s = .next t) :
    Ranged s t := by
  obtain ⟨r, u, hrun, rfl⟩ := outcome_next h
  exact (hx s r u hrun).trans (silent_setResult r u).toQuiet.ranged

theorem keepsSilent_transact (code : Byte) (data : Word) : Keeps Silent (transact code data) :=
  keeps_bind (R := Silent) (fun _ _ _ h k => h.trans k) (keeps_executeTransaction code data).silent fun r =>
    keeps_bind (R := Silent) (fun _ _ _ h k => h.trans k) (keeps_modify (silent_setData r.2)) fun _ =>
      (keepsBelow_pure _).silent

/-- Every row of the table but the host packet is a transaction or a line sequence. -/
theorem exec_silent {i : Instr} (hi : ∀ addr len, i ≠ .hostReadMem32 addr len) {s t : State} (h : exec i s = .next t) :
    Silent s t := by
  have hline : ∀ {x : Op Unit}, Keeps Below x →
      (do x; pure OpResult.done : Op OpResult).outcome s = .next t → Silent s t := fun hx =>
    silent_of_outcome (keepsBelow_bind hx fun _ => keepsBelow_pure _).silent
  cases i with
  | jtagToSwd => exact hline keeps_sendJtagToSwd h
  | swdToJtag => exact hline keeps_sendSwdToJtag h
  | hostReadMem32 addr len => exact absurd rfl (hi addr len)
  | _ => exact silent_of_outcome (keepsSilent_transact _ _) h

end Sys2Proof.Proofs

/-! PROOF. The statements about every step (10_state R38-R41, R44; 45_session R301, R309; 46_host_adapter R333, R336): one
frame for each thing a request can decode to, and what the invariant and the list of writers take from it. -/

namespace Sys2Proof.Proofs

open Sys2Proof Sys2Proof.Machine Sys2Proof.Laws

/-! ## What a request can decode to, and what it may change -/

/-- The host read and the three other commands over a memory range. -/
def Decoded.IsRange (d : Decoded) : Prop :=
  ∃ a n, d ∈ [Decoded.instr (.hostReadMem32 a n), .command (.writeMem32 a n), .command (.readMem8 a n),
    .command (.writeMem8 a n)]

/-- The commands and calls that open or close the session. -/
def Decoded.IsSession (d : Decoded) : Prop :=
  d ∈ [Decoded.command .enterSwd, .command .exitDebug, .operation .openSession, .operation .closeSession]

/-- What a step that runs `d` changes at most. -/
structure Allowed (d : Decoded) (s t : State) : Prop extends Sound s t where
  session    : t.session = s.session ∨ t.session ≠ .connecting
  mode       : d ≠ .command .enterSwd → t.mode = s.mode
  lastStatus : ¬ Decoded.IsRange d → t.lastStatus = s.lastStatus
  identity   : ¬ Decoded.IsRange d → ¬ Decoded.IsSession d → t.session = s.session ∧ t.coreId = s.coreId
  transport  : (∀ c, d ≠ .command c) → ¬ Decoded.IsRange d → t.sent = s.sent ∧ t.hostData = s.hostData

/-- What a session operation changes at most: the session, but not to Connecting, and `coreId`. -/
structure Moved (s t : State) : Prop extends Sound s t where
  mode       : t.mode = s.mode
  lastStatus : t.lastStatus = s.lastStatus
  sent       : t.sent = s.sent
  hostData   : t.hostData = s.hostData
  session    : t.session ≠ .connecting

section

variable {d : Decoded} {s t u : State}

theorem Silent.allowed (h : Silent s t) (d : Decoded) : Allowed d s t :=
  { h with
    session := .inl h.session
    mode := fun _ => h.mode
    lastStatus := fun _ => h.lastStatus
    identity := fun _ _ => ⟨h.session, h.coreId⟩
    transport := fun _ _ => ⟨h.sent, h.hostData⟩ }

theorem Quiet.allowed (h : Quiet s t) (c : Command) : Allowed (.command c) s t :=
  { h with
    session := .inl h.session
    mode := fun _ => h.mode
    lastStatus := fun _ => h.lastStatus
    identity := fun _ _ => ⟨h.session, h.coreId⟩
    transport := fun hc => absurd rfl (hc c) }

theorem Ranged.allowed (h : Ranged s t) (hd : Decoded.IsRange d) : Allowed d s t :=
  { h with
    mode := fun _ => h.mode
    lastStatus := fun hn => absurd hd hn
    identity := fun hn => absurd hd hn
    transport := fun _ hn => absurd hd hn }

theorem Moved.allowed (h : Moved s t) (hd : Decoded.IsSession d) : Allowed d s t :=
  { h with
    session := .inr h.session
    mode := fun _ => h.mode
    lastStatus := fun _ => h.lastStatus
    identity := fun _ hn => absurd hd hn
    transport := fun _ _ => ⟨h.sent, h.hostData⟩ }

end

/-! ## The session operations -/

/-- A frame over `s` with another session and core identifier, as the Session Manager leaves it. -/
theorem moved_of_below {s t : State} {x : Session} {id : Word} (hx : x ≠ .connecting)
    (h : Below ((s.setSession x).setCoreId id) t) : Moved s t where
  params := h.above.params
  trace := h.above.trace
  wire k := h.wire (wireInv_of_eq k rfl rfl rfl)
  target := h.target
  mode := h.above.mode
  lastStatus := h.above.lastStatus
  sent := h.above.sent
  hostData := h.above.hostData
  session := h.above.session ▸ hx

theorem moved_openSession (s : State) : Ends openSession s fun _ t => Moved s t := by
  refine (openSession_runs s).ends.mono ?_
  rintro c t ⟨-, id, h⟩
  exact moved_of_below (openedAs_session_ne c id s) h

theorem moved_closeSession (s : State) : Ends closeSession s fun _ t => Moved s t :=
  (closeSession_ends s).mono fun _ _ h => moved_of_below (by decide) h

theorem Moved.silent {s t u : State} (h : Moved s t) (k : Silent t u) : Moved s u where
  toSound := h.toSound.trans k.toSound
  mode := k.mode.trans h.mode
  lastStatus := k.lastStatus.trans h.lastStatus
  sent := k.sent.trans h.sent
  hostData := k.hostData.trans h.hostData
  session := k.session ▸ h.session

/-- A session operation and then what a command still answers. -/
theorem Moved.quiet {s t u : State} (h : Moved s t) (k : Quiet t u) : Sound s u ∧ u.mode = s.mode ∧
    u.lastStatus = s.lastStatus ∧ u.session ≠ .connecting :=
  ⟨h.toSound.trans k.toSound, k.mode.trans h.mode, k.lastStatus.trans h.lastStatus, k.session ▸ h.session⟩

/-! ## Instructions, calls and commands -/

theorem exec_allowed (i : Instr) {s t : State} (h : exec i s = .next t) : Allowed (.instr i) s t := by
  cases i with
  | hostReadMem32 addr len =>
    exact (ranged_of_outcome (keepsRanged_bind (keepsRanged_memRange _ _ _) fun _ => keepsRanged_pure _) h).allowed
      ⟨addr, len, by simp⟩
  | _ => exact (exec_silent (by simp) h).allowed _

theorem runOperation_allowed (op : Operation) {s t : State} (h : (runOperation op).outcome s = .next t) :
    Allowed (.operation op) s t := by
  have hcall : ∀ {α : Type} {x : Op α} {f : α → OpResult}, Keeps Below x →
      (do let r ← x; pure (f r) : Op OpResult).outcome s = .next t → Allowed (.operation op) s t := fun hx ht =>
    (silent_of_outcome (keepsBelow_bind hx fun _ => keepsBelow_pure _).silent ht).allowed _
  cases op with
  | openSession =>
    obtain ⟨r, u, hrun, rfl⟩ := outcome_next h
    obtain ⟨c, v, hopen, hpure⟩ := op_bind_eq_ok.1 hrun
    cases hpure
    exact ((moved_openSession s c u hopen).silent (silent_setResult _ u)).allowed (by simp [Decoded.IsSession])
  | closeSession =>
    obtain ⟨r, u, hrun, rfl⟩ := outcome_next h
    obtain ⟨c, v, hclose, hpure⟩ := op_bind_eq_ok.1 hrun
    cases hpure
    exact ((moved_closeSession s c u hclose).silent (silent_setResult _ u)).allowed (by simp [Decoded.IsSession])
  | setDataLineOutput => exact hcall keeps_setDataLineOutput h
  | setDataLineInput => exact hcall keeps_setDataLineInput h
  | shiftOutBits v n => exact hcall (keeps_shiftOutBits v n) h
  | shiftInBits n => exact hcall (keeps_shiftInBits n) h
  | executeTransaction code data => exact hcall (keeps_executeTransaction code data) h
  | executeTransactionWithRetry code data m => exact hcall (keeps_executeTransactionWithRetry code data m) h
  | lineReset => exact hcall keeps_lineReset h
  | clearError ack => exact hcall (keeps_clearError ack) h
  | wrapped code data => exact hcall (keeps_wrapped code data) h
  | writeWord32Chunk addr buf => exact hcall (keeps_writeWord32Chunk addr buf) h
  | readWord32Chunk addr len => exact hcall (keeps_readWord32Chunk addr len) h
  | writeMem32 addr buf => exact hcall (keeps_writeMem32 addr buf) h
  | readMem32 addr len => exact hcall (keeps_readMem32 addr len) h
  | writeMem8 addr buf => exact hcall (keeps_writeMem8 addr buf) h
  | readMem8 addr len => exact hcall (keeps_readMem8 addr len) h
  | writeWord addr v => exact hcall (keeps_writeWord addr v) h
  | readWord addr => exact hcall (keeps_readWord addr) h
  | readCoreReg index => exact hcall (keeps_readCoreReg index) h
  | writeCoreReg index v => exact hcall (keeps_writeCoreReg index v) h
  | swdConnectSequence => exact hcall keeps_swdConnectSequence h
  | swdDisconnectSequence => exact hcall keeps_swdDisconnectSequence h

/-- Every command ends by answering a host result; what it does before decides what it may change. -/
theorem runCommand_allowed (c : Command) {s t : State}
    (h : (do let r ← runCommand c; pure (OpResult.host r) : Op OpResult).outcome s = .next t) :
    Allowed (.command c) s t := by
  have hquiet : Keeps Quiet (runCommand c) → Allowed (.command c) s t := fun hx => (quiet_of_outcome hx h).allowed c
  have hrange : Decoded.IsRange (.command c) → Keeps Ranged (runCommand c) → Allowed (.command c) s t := fun hd hx =>
    (ranged_of_outcome (keepsRanged_bind hx fun _ => keepsRanged_pure _) h).allowed hd
  have hforeign : Keeps Quiet (do respondForeign; pure 0 : Op Int) :=
    keepsQuiet_bind keepsQuiet_respondForeign fun _ => keepsQuiet_pure _
  have hanswer : ∀ buf : State → List Byte, Keeps Quiet (do let s ← get; transmit (buf s); pure 0 : Op Int) := fun _ =>
    keepsQuiet_bind keepsBelow_get.quiet fun _ => keepsQuiet_bind (keepsQuiet_transmit _) fun _ => keepsQuiet_pure _
  have hmem : ∀ kind addr n, Keeps Ranged (do memRange kind addr n; pure 0 : Op Int) := fun _ _ _ =>
    keepsRanged_bind (keepsRanged_memRange _ _ _) fun _ => keepsRanged_pure _
  cases c with
  | getVersion | dfu | getTargetVoltage => exact hquiet hforeign
  | getMode | readCoreId => exact hquiet (hanswer _)
  | writeMem32 addr len | readMem8 addr len | writeMem8 addr len =>
    exact hrange ⟨addr, len, by simp⟩ (hmem _ _ _)
  | readReg index =>
    exact hquiet (keepsQuiet_bind (keeps_readCoreReg index).quiet fun _ =>
      keepsQuiet_bind (keepsQuiet_transmit _) fun _ => keepsQuiet_pure _)
  | writeReg index value =>
    exact hquiet (keepsQuiet_bind (keeps_writeCoreReg index value).quiet fun _ =>
      keepsQuiet_bind (keepsQuiet_respondStatus _) fun _ => keepsQuiet_pure _)
  | readAllRegs =>
    exact hquiet (keepsQuiet_bind keepsBelow_get.quiet fun _ => keepsQuiet_bind (keeps_readRegsLoop _).quiet fun _ =>
      keepsQuiet_bind (keepsQuiet_transmit _) fun _ => keepsQuiet_pure _)
  | getLastRwStatus =>
    exact hquiet (keepsQuiet_bind keepsBelow_get.quiet fun _ => keepsQuiet_bind (keepsQuiet_respondStatus _) fun _ =>
      keepsQuiet_pure _)
  | unsupported => exact hquiet (keepsQuiet_bind (keepsQuiet_respondStatus _) fun _ => keepsQuiet_pure _)
  | enterSwd =>
    obtain ⟨r, u, hrun, rfl⟩ := outcome_next h
    obtain ⟨k, v, hcmd, hpure⟩ := op_bind_eq_ok.1 hrun
    cases hpure
    obtain ⟨_, _, hmode, hcmd⟩ := op_bind_eq_ok.1 hcmd
    cases hmode
    obtain ⟨e, w, hopen, hcmd⟩ := op_bind_eq_ok.1 hcmd
    have hend := keepsQuiet_bind (keepsQuiet_respondStatus (e == .ok)) (fun _ => keepsQuiet_pure (0 : Int)) w k u hcmd
    obtain ⟨hsound, -, hlatch, hsession⟩ := (moved_openSession _ e w hopen).quiet hend
    exact
      { params := hsound.params, trace := hsound.trace, target := hsound.target
        wire := fun hw => wireInv_of_eq (hsound.wire (wireInv_of_eq hw rfl rfl rfl)) rfl rfl rfl
        session := .inr hsession
        mode := fun hn => absurd rfl hn
        lastStatus := fun _ => hlatch
        identity := fun _ hn => absurd (by simp [Decoded.IsSession]) hn
        transport := fun hn => absurd rfl (hn _) }
  | exitDebug =>
    obtain ⟨r, u, hrun, rfl⟩ := outcome_next h
    obtain ⟨k, v, hcmd, hpure⟩ := op_bind_eq_ok.1 hrun
    cases hpure
    obtain ⟨e, w, hclose, hcmd⟩ := op_bind_eq_ok.1 hcmd
    have hend := keepsQuiet_bind (keepsQuiet_respondStatus true) (fun _ => keepsQuiet_pure (0 : Int)) w k u hcmd
    obtain ⟨hsound, hmode, hlatch, hsession⟩ := (moved_closeSession s e w hclose).quiet hend
    exact
      { params := hsound.params, trace := hsound.trace, target := hsound.target
        wire := fun hw => wireInv_of_eq (hsound.wire hw) rfl rfl rfl
        session := .inr hsession
        mode := fun _ => hmode
        lastStatus := fun _ => hlatch
        identity := fun _ hn => absurd (by simp [Decoded.IsSession]) hn
        transport := fun hn => absurd rfl (hn _) }

theorem runDecoded_allowed (d : Decoded) {s t : State} (h : runDecoded d s = .next t) : Allowed d s t := by
  cases d with
  | instr i => exact exec_allowed i h
  | command c => exact runCommand_allowed c h
  | operation op => exact runOperation_allowed op h

/-! ## One step -/

/-- A step with a request decodes it and runs it on the state with the request taken out (log 1). -/
theorem step_cons_next {s t : State} {r : Request} {rest : List Request} (hin : s.inbox = r :: rest)
    (h : step s = .next t) : ∃ d, s.decodeRequest r = .ok d ∧ runDecoded d (s.setInbox rest) = .next t := by
  simp only [step, hin] at h
  split at h
  case h_1 d hd => exact ⟨d, hd, h⟩
  case h_2 e _ => cases e <;> cases h

/-- The request taken out is no part of what a frame speaks of. -/
theorem step_allowed {s t : State} {r : Request} {rest : List Request} {d : Decoded} (hin : s.inbox = r :: rest)
    (hd : s.decodeRequest r = .ok d) (h : step s = .next t) : Allowed d s t := by
  obtain ⟨d', hd', hrun⟩ := step_cons_next hin h
  cases hd.symm.trans hd'
  have hframe := runDecoded_allowed d hrun
  exact { hframe with wire := fun hw => hframe.wire (wireInv_of_eq hw rfl rfl rfl) }

/-- What every step does at most: nothing at all when the inbox is empty, else what its request may. -/
theorem step_sound {s t : State} (h : step s = .next t) :
    Sound s t ∧ (t.session = s.session ∨ t.session ≠ .connecting) := by
  cases hin : s.inbox with
  | nil =>
    simp only [step, hin] at h
    cases h
    exact ⟨(silent_refl s).toSound, .inl rfl⟩
  | cons r rest =>
    obtain ⟨d, hd, -⟩ := step_cons_next hin h
    have hframe := step_allowed hin hd h
    exact ⟨hframe.toSound, hframe.session⟩

/-- Settles O58: the wire and the target parts are kept by every operation, and what opens or closes a session leaves it Open
or Closed. -/
theorem stepKeepsTheInvariant : Obligations.StepKeepsTheInvariant := by
  intro s t hinv h
  obtain ⟨hsound, hsession⟩ := step_sound h
  exact ⟨hsound.wire hinv.wire, hsound.target hinv.target, hsession.elim (fun e => e ▸ hinv.session) id⟩

/-- Settles O59. -/
theorem stepOnlyAppendsToTheTrace : Obligations.StepOnlyAppendsToTheTrace := fun _ _ h =>
  have ⟨hsound, _⟩ := step_sound h
  ⟨hsound.trace, hsound.params⟩

/-- Settles O57: no cell has been clocked at reset, the stores of TC1 are canonical and the session is Closed. -/
theorem resetMeetsTheInvariant : Obligations.ResetMeetsTheInvariant where
  wire := ⟨by simp [State.reset], fun h => absurd rfl h, by simp [State.reset, lastDriven]⟩
  target := ⟨reset_memory_wf, by decide, by decide, by decide⟩
  session := by decide

/-! ## Who writes what (10_state R38-R41) -/

/-- A request that is no packet decodes to no host command and to no host read. -/
theorem decodeRequest_not_packet {s : State} {r : Request} {d : Decoded} (hr : ∀ pkt, r ≠ .packet pkt)
    (hd : s.decodeRequest r = .ok d) : (∀ c, d ≠ .command c) ∧ ¬ Decoded.IsRange d := by
  have hinstr : ∀ i : Instr, (∀ addr len, i ≠ .hostReadMem32 addr len) →
      (∀ c, Decoded.instr i ≠ .command c) ∧ ¬ Decoded.IsRange (.instr i) := by
    refine fun i hi => ⟨by simp, ?_⟩
    rintro ⟨a, n, hmem⟩
    simp at hmem
    exact hi a n hmem
  cases r with
  | packet pkt => exact absurd rfl (hr pkt)
  | call op =>
    cases hd
    exact ⟨by simp, by rintro ⟨a, n, hmem⟩; simp at hmem⟩
  | transaction h data =>
    cases hdec : decodeHeader (apBankSel s.target.select) h data with
    | error e => simp [State.decodeRequest, decode, hdec, Decoded.ofInstr] at hd
    | ok i =>
      simp [State.decodeRequest, decode, hdec, Decoded.ofInstr] at hd
      subst hd
      refine hinstr i ?_
      rintro addr len rfl
      obtain ⟨-, _, he, -⟩ := headerHasOneMeaning _ _ _ _ hdec
      cases he
  | sequence v =>
    have hseq : d = .instr .jtagToSwd ∨ d = .instr .swdToJtag := by
      simp only [State.decodeRequest, decode, decodeSequence] at hd
      split at hd
      · cases hd; exact .inl rfl
      · split at hd <;> cases hd
        exact .inr rfl
    rcases hseq with rfl | rfl
    · exact hinstr _ (by simp)
    · exact hinstr _ (by simp)

/-- A call that is not `open` or `close`, and every other request that is no packet, leaves the session to itself. -/
theorem decodeRequest_not_session {s : State} {r : Request} {d : Decoded} (hr : ∀ pkt, r ≠ .packet pkt)
    (ho : r ≠ .call .openSession) (hc : r ≠ .call .closeSession) (hd : s.decodeRequest r = .ok d) :
    ¬ Decoded.IsSession d := by
  obtain ⟨hcmd, -⟩ := decodeRequest_not_packet hr hd
  intro hmem
  simp only [Decoded.IsSession, List.mem_cons, List.not_mem_nil, or_false] at hmem
  have hop : ∀ op, d = .operation op → r = .call op := by
    rintro op rfl
    cases r with
    | packet pkt => exact absurd rfl (hr pkt)
    | call op' => cases hd; rfl
    | transaction h data =>
      cases hdec : decodeHeader (apBankSel s.target.select) h data <;>
        simp [State.decodeRequest, decode, hdec, Decoded.ofInstr] at hd
    | sequence v =>
      cases hdec : decodeSequence v <;> simp [State.decodeRequest, decode, hdec, Decoded.ofInstr] at hd
  rcases hmem with h | h | h | h
  · exact hcmd _ h
  · exact hcmd _ h
  · exact ho (hop _ h)
  · exact hc (hop _ h)

/-- Settles O60: both lists are read off what the decoded request may change. -/
theorem onlyHostCommandsWriteTheLatch : Obligations.OnlyHostCommandsWriteTheLatch := by
  intro s t r rest hin hstep
  refine ⟨fun hr => ?_, fun d hd => ?_⟩
  · obtain ⟨d, hd, -⟩ := step_cons_next hin hstep
    have hframe := step_allowed hin hd hstep
    obtain ⟨hcmd, hrange⟩ := decodeRequest_not_packet hr hd
    obtain ⟨hsent, hdata⟩ := hframe.transport hcmd hrange
    exact ⟨hframe.lastStatus hrange, hframe.mode (hcmd _), hsent, hdata, fun ho hc =>
      hframe.identity hrange (decodeRequest_not_session hr ho hc hd)⟩
  · have hframe := step_allowed hin hd hstep
    refine ⟨hframe.mode, fun hn => ?_⟩
    have hrange : ¬ Decoded.IsRange d := fun ⟨a, n, hmem⟩ => hn a n hmem
    exact ⟨hframe.lastStatus hrange, hframe.identity hrange⟩

end Sys2Proof.Proofs

/-! PROOF. Transactions with an arbitrary target (41_transaction R180-R183; 30_encoding R130-R135): the levels it shows say
everything an exchange leaves behind, and whatever they are the exchange ends. -/

namespace Sys2Proof.Proofs

open Sys2Proof Sys2Proof.Machine Sys2Proof.Laws

/-! ## An instruction and its exchange -/

/-- An instruction with a header ends as its exchange does, with the data cell and the Ack recorded (log 7). -/
theorem exec_of_exchange {i : Instr} {h : Byte} {d w : Word} {s t : State} {a : Ack} (he : encode i = .transaction h d)
    (hrun : executeTransaction h (if isRead h then s.data else d) s = .ok ((a, w), t)) :
    exec i s = .next ((t.setData w).setResult (.ack a)) := by
  rw [exec_transact he, outcome_transact hrun]

/-- `s` after an exchange without a data phase of the core's: the cells of the header and of the bits `bs` shown, with the
levels `rest` and the draw counter `n` left. -/
def afterShown (h : Byte) (bs rest : List Bool) (n : Nat) (s : State) : State := { s with
  clk := true
  dout := true
  oe := true
  trace := s.trace ++ (lsbBits 8 (h.setWidth 32)).map WireCell.driven ++ bs.map WireCell.sampled
  target := { s.target with drive := [] }
  levels := rest
  draws := n }

/-- An exchange that neither reads nor writes a word: the data cell stays and the Ack is the one shown. -/
theorem executeTransaction_shown {h : Byte} (hl : isLegalCode h = true) (d : Word) {s : State} (ho : s.oe = true)
    (ha : s.target.attached = false) {lv rest : List Bool} (hlv : s.levels = lv ++ rest)
    {p : Phase} (hp : phaseOf h (ackOf lv) = p) (hr : p ≠ .read) (hw : p ≠ .write) (hn : lv.length = p.samples) :
    ∃ n, executeTransaction h d s = .ok ((ackOf lv, d), afterShown h lv rest n s) := by
  have hge := samples_ge p
  obtain ⟨n, hrun⟩ := executeTransaction_scripted hl d ho ha lv rest hlv (by omega) (by rw [hp, hn])
  rw [hp, answer_of_ne_read hr] at hrun
  refine ⟨n, hrun.trans ?_⟩
  cases p with
  | read => exact absurd rfl hr
  | write => exact absurd rfl hw
  | none | discarded => rfl

/-! ## WAIT and FAULT, and any other ACK -/

theorem ackOf_waitOrFault (fault x y : Bool) :
    ackOf [x, false, !fault, fault, y] = if fault then .fault else .wait := by
  show classifyAck ((assemble [false, !fault, fault]).setWidth 3) = _
  cases fault <;> decide

/-- Settles O9: the five bits shown end the exchange, and the data cell keeps what it was called with. -/
theorem waitAndFaultEndAtOnce : Obligations.WaitAndFaultEndAtOnce := by
  intro i h d s fault x y rest he ho ha hlv
  have hp : phaseOf h (ackOf [x, false, !fault, fault, y]) = .none := by
    rw [ackOf_waitOrFault]
    cases fault <;> rfl
  obtain ⟨n, hrun⟩ := executeTransaction_shown (legal_of_encode he) (if isRead h then s.data else d) ho ha hlv hp
    (by simp) (by simp) rfl
  rw [ackOf_waitOrFault] at hrun
  refine ⟨n, ?_⟩
  rw [exec_of_exchange he hrun, ho]
  rfl

/-- The three bits after the turnaround are the pattern of a protocol error when they are none of the three of R130. -/
theorem ackOf_protocolError {a b c : Bool} (habc : (a, b, c) ∉ [(true, false, false), (false, true, false), (false, false, true)])
    (x : Bool) (z : List Bool) :
    ackOf ([x, a, b, c] ++ z) = .protocolError (BitVec.ofBool c ++ BitVec.ofBool b ++ BitVec.ofBool a) := by
  show classifyAck ((assemble [a, b, c]).setWidth 3) = _
  rw [assemble_setWidth3]
  revert a b c
  decide

/-- Settles O10: the 34 bits after the ACK are sampled as the ACK was, and dropped. -/
theorem protocolErrorDiscardsAPhase : Obligations.ProtocolErrorDiscardsAPhase := by
  intro i h d s x a b c z rest he ho ha habc hz hlv
  have hack := ackOf_protocolError habc x z
  have hp : phaseOf h (ackOf ([x, a, b, c] ++ z)) = .discarded := by rw [hack]; rfl
  obtain ⟨n, hrun⟩ := executeTransaction_shown (legal_of_encode he) (if isRead h then s.data else d) ho ha hlv hp
    (by simp) (by simp) (by simp [hz, Phase.samples])
  rw [hack] at hrun
  refine ⟨n, ?_⟩
  rw [exec_of_exchange he hrun, ho]
  rfl

/-! ## An OK write -/

/-- A target that is not attached takes nothing from a write but the SELECT value in force (log 6). -/
theorem onData_notAttached {t : Target} (ha : t.attached = false) (n : Nat) (code : Byte) (w : Word) :
    t.onData n code w = { t with select := if code = codeWrSelect then w else t.select } := by
  rw [Target.onData, if_neg (by simp [ha])]
  split <;> rfl

/-- Settles O8: after the five bits of an OK the core drives the word and its parity bit, which is the last level. -/
theorem okWriteToAnyTarget : Obligations.OkWriteToAnyTarget := by
  intro i h d s x y rest he hw ho ha hlv
  have hp : phaseOf h (ackOf [x, true, false, false, y]) = .write := by simp [ackOf_okBits, phaseOf, hw]
  obtain ⟨n, hrun⟩ := executeTransaction_scripted (legal_of_encode he) d ho ha _ rest hlv (by simp) (by rw [hp]; rfl)
  rw [hp, answer_of_ne_read (by simp), ackOf_okBits] at hrun
  refine ⟨n + targetDraws, ?_⟩
  rw [exec_of_exchange he (by rw [hw]; exact hrun)]
  have hdata := onData_notAttached (t := { s.target with drive := [] }) ha n h d
  simp only [Phase.final, dataSent, outCells_eq, State.setTarget, State.setDraws, State.setOe, State.setData,
    State.setResult, hdata]
  simp [okWriteCells, ho, show codeWrSelect = 0xB1 from rfl]

/-! ## Any target (41_transaction R182, R183) -/

/-- The Ack an exchange ends with tells how many cells it took. -/
theorem phaseCells_answer (code : Byte) (d : Word) (bs : List Bool) :
    phaseCells (phaseOf code (ackOf bs)) =
      if ((phaseOf code (ackOf bs)).answer d bs).1 = .wait ∨ ((phaseOf code (ackOf bs)).answer d bs).1 = .fault
        then 13 else 46 := by
  cases hack : ackOf bs with
  | ok =>
    cases hr : isRead code
    · simp [phaseOf, hr, Phase.answer, hack, phaseCells]
    · have hne : ∀ c : Prop, [Decidable c] → (if c then Ack.ok else .parityError) ≠ .wait ∧
          (if c then Ack.ok else .parityError) ≠ .fault := fun c _ => by split <;> simp
      simp [phaseOf, hr, Phase.answer, phaseCells, (hne _).1, (hne _).2]
  | wait | fault => simp [phaseOf, Phase.answer, hack, phaseCells]
  | parityError | protocolError => simp [phaseOf, Phase.answer, hack, phaseCells]

/-- Only an OK read, whose Ack is OK or PARITY_ERROR, ends with another word than it was called with (R181). -/
theorem answer_data (code : Byte) (d : Word) (bs : List Bool)
    (h : isRead code = true → ((phaseOf code (ackOf bs)).answer d bs).1 ≠ .ok ∧
      ((phaseOf code (ackOf bs)).answer d bs).1 ≠ .parityError) :
    ((phaseOf code (ackOf bs)).answer d bs).2 = d := by
  by_cases hp : phaseOf code (ackOf bs) = .read
  · have hr : isRead code = true := by
      by_contra hn
      cases hack : ackOf bs <;> simp [phaseOf, hack, hn] at hp
    obtain ⟨hok, hparity⟩ := h hr
    rw [hp] at hok hparity
    simp only [Phase.answer] at hok hparity
    split at hok
    · exact absurd rfl hok
    · exact absurd (if_neg ‹_›) hparity
  · rw [answer_of_ne_read hp]

/-- Settles O11: what is sampled decides the phase, and the phase the cells, the Ack and the data cell. -/
theorem transactionsComplete : Obligations.TransactionsComplete := by
  intro i h d s he ho
  obtain ⟨bs, lv, dr, -, hlen, hrun⟩ := executeTransaction_eq (if isRead h then s.data else d) (legal_of_encode he) ho
  have hwire : WireOnly s ((phaseOf h (ackOf bs)).final h (if isRead h then s.data else d)
      (sampledState bs lv dr (requested h s))) :=
    (wireOnly_requested h s).trans ((wireOnly_sampledState _ _ _ _).trans (wireOnly_final _ _ _ _))
  have hphase := phaseCells_answer h (if isRead h then s.data else d) bs
  have hdata := answer_data h (if isRead h then s.data else d) bs
  have hcells := final_trace_length h (if isRead h then s.data else d) (sampledState bs lv dr (requested h s))
    (phaseOf h (ackOf bs))
  generalize (phaseOf h (ackOf bs)).answer (if isRead h then s.data else d) bs = r at hrun hphase hdata
  obtain ⟨a, w⟩ := r
  refine ⟨_, a, w, exec_of_exchange he hrun, final_oe _ _ _ _, endsWith_of_wireOnly hwire _ _, ?cells, ?write, ?read⟩
  case cells =>
    rw [setResult_trace, setData_trace, ← hphase]
    simp only [sampledState, List.length_append, List.length_map, requested_trace_length] at hcells ⊢
    omega
  case write => exact fun hw => (hdata fun hr => absurd hr (by simp [hw])).trans (if_neg (by simp [hw]))
  case read => exact fun hr hok hparity => (hdata fun _ => ⟨hok, hparity⟩).trans (if_pos hr)

/-! ## The switch sequences (30_encoding R146, R147) -/

theorem onSwitch_eq (p : PortProtocol) (t : Target) :
    t.onSwitch p = { t with protocol := if t.attached then p else t.protocol } := by
  unfold Target.onSwitch
  split <;> rfl

/-- Sixteen bits driven on a driven line, after which the target's port speaks `p`, as one step. -/
theorem outcome_switch {x : Op Unit} {bits : List Bool} {p : PortProtocol} {s : State} (hb : bits ≠ [])
    (hlast : bits.getLastD s.dout = true)
    (hx : x s = .ok ((), ((State.outCells bits s).setTarget (s.target.onSwitch p)).setDraws (s.draws + targetDraws))) :
    (do x; pure OpResult.done : Op OpResult).outcome s = .next { s with
      clk := true
      dout := true
      trace := s.trace ++ bits.map WireCell.driven
      target := { s.target with protocol := if s.target.attached then p else s.target.protocol }
      result := .done
      draws := s.draws + targetDraws } := by
  unfold Op.outcome
  rw [op_bind_ok hx, op_pure]
  simp only [outCells_eq, if_neg hb, hlast, onSwitch_eq]
  rfl

/-- Settles O45: each sequence is the sixteen bits of its value, least significant bit first, and the reaction of R71. -/
theorem switchSequenceEffect : Obligations.SwitchSequenceEffect := by
  intro s ho
  have hjtag : lsbBits 16 (jtagToSwdValue.setWidth 32) = [false, true, true, true, true, false, false, true,
      true, true, true, false, false, true, true, true] := by decide
  have hswd : lsbBits 16 (swdToJtagValue.setWidth 32) = [false, false, true, true, true, true, false, false,
      true, true, true, false, false, true, true, true] := by decide
  refine ⟨⟨s.draws + targetDraws, ?toSwd⟩, ⟨s.draws + targetDraws, ?toJtag⟩⟩
  case toSwd => exact outcome_switch (by simp) rfl (hjtag ▸ sendJtagToSwd_eq ho)
  case toJtag => exact outcome_switch (by simp) rfl (hswd ▸ sendSwdToJtag_eq ho)

/-! ## A released line (40_phy R168, 70_reset R392) -/

theorem outcome_of_error {x : Op OpResult} {s : State} {f : Fault} (h : x s = .error f) : x.outcome s = .fault f := by
  rw [Op.outcome, h]

theorem exec_transaction_released {i : Instr} {h : Byte} {d : Word} {s : State} (he : encode i = .transaction h d)
    (ho : s.oe = false) : exec i s = .fault .phyMisuse := by
  rw [exec_transact he]
  exact outcome_of_error (op_bind_error (executeTransaction_released _ (legal_of_encode he) ho) _)

theorem shiftOutBits_released {v : Word} {n : Nat} {s : State} (hn : n ≤ 32) (ho : s.oe = false) :
    shiftOutBits v n s = .error .phyMisuse := by
  rw [op_shiftOutBits, if_neg (by omega), if_pos ho]

/-- A check that holds changes nothing. -/
theorem checkAligned_ok {addr : Word} {len : Nat} (h : wordAligned addr len = true) (s : State) :
    checkAligned addr len s = .ok ((), s) := by
  rw [checkAligned, if_pos h, op_pure]

theorem checkPage_ok {addr : Word} {len : Nat} (h : withinPage addr len = true) (s : State) :
    checkPage addr len s = .ok ((), s) := by
  rw [checkPage, if_pos h, op_pure]

/-- A chunk of something, past its checks, is read by the transactions of its words (43_memory_access R252). -/
theorem readWord32Chunk_eq {addr : Word} {len : Nat} (ha : wordAligned addr len = true) (hp : withinPage addr len = true)
    (hn : len ≠ 0) (s : State) : readWord32Chunk addr len s = (do
      let (e, ws) ← readChunkSteps addr (len / 4)
      let rest ← drawBytes (len - 4 * ws.length)
      pure (e, wordsBytes ws ++ rest) : Op (Code × List Byte)) s := by
  unfold readWord32Chunk
  rw [op_bind_ok (checkAligned_ok ha s), op_bind_ok (checkPage_ok hp s), if_neg hn]

theorem writeWord32Chunk_eq {addr : Word} {buf : List Byte} (ha : wordAligned addr buf.length = true)
    (hp : withinPage addr buf.length = true) (hn : buf.length ≠ 0) (s : State) :
    writeWord32Chunk addr buf s = (writeChunkSteps addr (bufWords buf)).code s := by
  unfold writeWord32Chunk
  rw [op_bind_ok (checkAligned_ok ha s), op_bind_ok (checkPage_ok hp s), if_neg hn]

/-- The first chunk of an aligned range of something, and what the split says of it (43_memory_access R253). -/
theorem chunks_cons {addr : Word} {len : Nat} (ha : wordAligned addr len = true) (hn : 0 < len) :
    ∃ rest, chunks addr len = (addr, chunkSize addr len) :: rest ∧ wordAligned addr (chunkSize addr len) = true ∧
      withinPage addr (chunkSize addr len) = true ∧ chunkSize addr len ≠ 0 := by
  obtain ⟨fuel, rfl⟩ : ∃ fuel, len = fuel + 1 := ⟨len - 1, by omega⟩
  have hsplit := chunkList_succ_of_pos fuel addr hn
  obtain ⟨h1, h2, h3⟩ := chunkList_spec (fuel + 1) addr (fuel + 1) ha (addr, chunkSize addr (fuel + 1))
    (by rw [hsplit]; exact List.mem_cons_self)
  exact ⟨_, hsplit, h1, h2, h3.ne'⟩

theorem readMem32_released {addr : Word} {len : Nat} {s : State} (ho : s.oe = false) (ha : wordAligned addr len = true)
    (hn : 0 < len) : readMem32 addr len s = .error .phyMisuse := by
  obtain ⟨rest, hchunks, hca, hcp, hcn⟩ := chunks_cons ha hn
  have hread : readWord32Chunk addr (chunkSize addr len) s = .error .phyMisuse := by
    rw [readWord32Chunk_eq hca hcp hcn]
    exact op_bind_error (readChunkSteps_released _ _ ho) _
  unfold readMem32
  rw [op_bind_ok (checkAligned_ok ha s), hchunks]
  exact op_bind_error (op_bind_error hread _) _

/-- The first sub-chunk of a memory range of something (46_host_adapter R334). -/
theorem memRangeLoop_of_pos (kind : RangeKind) (fuel : Nat) (a : Word) {remaining : Nat} (hr : remaining ≠ 0) (allOk : Bool)
    (s : State) : memRangeLoop kind (fuel + 1) a remaining allOk s = (do
      let good ← subChunk kind a (min remaining s.params.xferBuf)
      memRangeLoop kind fuel (a + BitVec.ofNat 32 (min remaining s.params.xferBuf))
        (remaining - min remaining s.params.xferBuf) (allOk && good) : Op Bool) s := by
  rw [memRangeLoop, if_neg hr, op_bind_ok (op_get s)]

/-- A host read faults as its first sub-chunk does. -/
theorem exec_hostRead_of_error {addr : Word} {len : BitVec 16} {s : State} {f : Fault} (hn : len ≠ 0)
    (h : readMem32 addr (min len.toNat s.params.xferBuf) s = .error f) : exec (.hostReadMem32 addr len) s = .fault f := by
  have hpos : len.toNat ≠ 0 := fun h0 => hn (BitVec.eq_of_toNat_eq h0)
  have hsub : subChunk .r32 addr (min len.toNat s.params.xferBuf) s = .error f := op_bind_error h _
  have hloop : memRangeLoop .r32 len.toNat addr len.toNat true s = .error f := by
    obtain ⟨fuel, hfuel⟩ : ∃ fuel, len.toNat = fuel + 1 := ⟨len.toNat - 1, by omega⟩
    conv_lhs => rw [hfuel]
    rw [memRangeLoop_of_pos _ _ _ (by omega), ← hfuel]
    exact op_bind_error hsub _
  exact outcome_of_error (op_bind_error (op_bind_error hloop _) _)

theorem closeSession_released {s : State} (ho : s.oe = false) : closeSession s = .error .phyMisuse := by
  have hword : writeWord addrDhcsr dhcsrDebugRelease (s.setCoreId 0) = .error .phyMisuse := by
    rw [writeWord, writeWord32Chunk_eq (by decide) (by decide) (by decide), steps_code_eq]
    exact op_bind_error (writeChunkSteps_released (s := s.setCoreId 0) _ _ ho) _
  unfold closeSession
  rw [op_bind_ok (op_modify _ s)]
  exact op_bind_error hword _

/-- Settles O12: each row, and `close`, gets to a shift out before it drives the line. -/
theorem releasedLineFaults : Obligations.ReleasedLineFaults := by
  intro s ho
  refine ⟨fun i h d he => exec_transaction_released he ho, ?toSwd, ?toJtag, ?hostRead, closeSession_released ho⟩
  case toSwd => exact outcome_of_error (op_bind_error (op_bind_error (shiftOutBits_released (by omega) ho) _) _)
  case toJtag => exact outcome_of_error (op_bind_error (op_bind_error (shiftOutBits_released (by omega) ho) _) _)
  case hostRead =>
    intro addr len ha hn hx4 hx
    have hpos : len.toNat ≠ 0 := fun h0 => hn (BitVec.eq_of_toNat_eq h0)
    refine exec_hostRead_of_error hn (readMem32_released ho ?_ (by omega))
    simp only [wordAligned, Bool.and_eq_true, beq_iff_eq] at ha ⊢
    omega

end Sys2Proof.Proofs

/-! PROOF. The Debug Port requests against the reference target (10_state R53-R56, R62-R72; 41_transaction R184-R189): what an
OK read and an OK write leave at the target, and the bits of CTRL/STAT. -/

namespace Sys2Proof.Proofs

open Sys2Proof Sys2Proof.Machine Sys2Proof.Laws

/-! ## OK answers -/

/-- A write instruction whose header the reference target answers OK. -/
theorem exec_okWrite {i : Instr} {h : Byte} {d : Word} {s : State} (he : encode i = .transaction h d)
    (hw : isRead h = false) (ho : s.oe = true) (ha : AnswersOk s.target h) :
    ∃ t n, exec i s = .next t ∧ t.oe = true ∧ EndsWith s t d (.ack .ok) ∧ t.target = wrote n h d s.target := by
  obtain ⟨_, t, hrun, rfl, ⟨n, htarget⟩, hoe, hwire⟩ := ok_write d (legal_of_encode he) ho hw ha
  have hcall : executeTransaction h (if isRead h then s.data else d) s = .ok ((.ok, d), t) := by rw [hw]; exact hrun
  exact ⟨_, n, exec_of_exchange he hcall, hoe, endsWith_of_wireOnly hwire _ _, htarget⟩

/-- A listening target answers every request that sticky flags and a busy AP do not hold back (R67). -/
theorem listening_answersOk {t : Target} (h : t.Listening) {code : Byte} (hb : blockable code = false) :
    AnswersOk t code where
  attached := h.attached
  hears := by simp [Target.deaf, h.protocol, h.inSync]
  answers := h.answers
  ack := naturalAck_of_not_blockable hb t

/-- A request that is no IDCODE read leaves the wait for one alone (R71). -/
theorem heard_of_ne {code : Byte} (hne : code ≠ codeRdIdcode) (t : Target) : heard code t = { t with accepting := false } := by
  rw [heard, if_neg hne]

theorem wrote_of_ne {code : Byte} (hne : code ≠ codeRdIdcode) (n : Nat) (w : Word) (t : Target) :
    wrote n code w t =
      { Target.performWrite n code w { t with drive := [], accepting := true } with accepting := false } := by
  rw [wrote, heard_of_ne hne]

theorem wasRead_of_ne {code : Byte} (hne : code ≠ codeRdIdcode) (n : Nat) (t : Target) :
    wasRead n code t = { (({ t with accepting := false } : Target).performRead n code).2 with drive := [] } := by
  rw [wasRead, heard_of_ne hne]

/-! ## ABORT (10_state R53, R68) -/

theorem wrote_abort (n : Nat) (w : Word) (t : Target) : wrote n codeWrAbort w t =
    { t.settled with ctrlStat := clearSticky t.ctrlStat w, busy := if w.getLsbD 0 then 0 else t.busy } := by
  rw [wrote_of_ne (by decide), Target.performWrite, if_neg (by decide), if_pos rfl]
  rfl

/-- The flag each of the four clear bits clears. -/
theorem getLsbD_abortClears (w : Word) {k : Nat} (hk : k < 32) : (abortClears w).getLsbD k =
    if k = 4 then w.getLsbD 1 else if k = 5 then w.getLsbD 2 else if k = 7 then w.getLsbD 3
      else if k = 1 then w.getLsbD 4 else false := by
  unfold abortClears
  generalize w.getLsbD 1 = b1, w.getLsbD 2 = b2, w.getLsbD 3 = b3, w.getLsbD 4 = b4
  revert k b1 b2 b3 b4
  decide

theorem getLsbD_clearSticky (c w : Word) {k : Nat} (hk : k < 32) :
    (clearSticky c w).getLsbD k = (c.getLsbD k && !(abortClears w).getLsbD k) := by
  simp [clearSticky, hk]

/-- Settles O15: ABORT is answered OK by a listening target, and each clear bit masks its flag. -/
theorem writeAbortEffect : Obligations.WriteAbortEffect := by
  intro d s ho hl
  obtain ⟨t, n, hexec, hoe, hends, htarget⟩ :=
    exec_okWrite (i := .wrAbort d) rfl (by decide) ho (listening_answersOk hl (by decide))
  rw [wrote_abort] at htarget
  have hc : t.target.ctrlStat = clearSticky s.target.ctrlStat d := by rw [htarget]
  refine ⟨t, hexec, hoe, hends, by rw [htarget], ?other, ?cmp, ?err, ?wdata, ?orun⟩
  case other =>
    intro k hk
    by_cases h32 : k < 32
    · obtain ⟨h1, h4, h5, h7⟩ : k ≠ 1 ∧ k ≠ 4 ∧ k ≠ 5 ∧ k ≠ 7 := by simpa using hk
      rw [hc, getLsbD_clearSticky _ _ h32, getLsbD_abortClears _ h32]
      simp [h1, h4, h5, h7]
    · rw [BitVec.getLsbD_of_ge _ _ (by omega), BitVec.getLsbD_of_ge _ _ (by omega)]
  all_goals rw [hc, getLsbD_clearSticky _ _ (by omega), getLsbD_abortClears _ (by omega)]; rfl

/-! ## CTRL/STAT (10_state R54, R63, R72) -/

theorem getLsbD_settlePower (c : Word) {k : Nat} (hk : k < 32) : (settlePower c).getLsbD k =
    if k = 31 then c.getLsbD 30 else if k = 29 then c.getLsbD 28 else c.getLsbD k := by
  have hmask : ∀ k < 32, pwrAckMask.getLsbD k = (decide (k = 31) || decide (k = 29)) := by decide
  simp only [settlePower, BitVec.getLsbD_or, BitVec.getLsbD_and, BitVec.getLsbD_not, BitVec.getLsbD_shiftLeft, hmask k hk, hk]
  by_cases h31 : k = 31
  · simp [h31]
  · by_cases h29 : k = 29
    · simp [h29]
    · simp [h31, h29]

/-- Every CTRL/STAT read gives the register as it is before the read is counted (R63, R72). -/
theorem readCtrlStat_fst (t : Target) : t.readCtrlStat.1 = t.ctrlStat := by
  unfold Target.readCtrlStat
  split <;> rfl

theorem readCtrlStat_idle {t : Target} (h : t.pwrLeft = none) : t.readCtrlStat.2 = t := by
  simp only [Target.readCtrlStat, h]

theorem readCtrlStat_counts {t : Target} {k : Nat} (h : t.pwrLeft = some k) (hk : 1 < k) :
    t.readCtrlStat.2 = { t with pwrLeft := some (k - 1) } := by
  simp only [Target.readCtrlStat, h, if_neg (show ¬ k ≤ 1 by omega)]

theorem readCtrlStat_settles {t : Target} {k : Nat} (h : t.pwrLeft = some k) (hk : k ≤ 1) :
    t.readCtrlStat.2 = { t with ctrlStat := settlePower t.ctrlStat, pwrLeft := none } := by
  simp only [Target.readCtrlStat, h, if_pos hk]

theorem performRead_ctrlStat {t : Target} (hb : dpBankSel t.select = 0) (n : Nat) :
    t.performRead n codeRdCtrlstat = t.readCtrlStat := by
  rw [Target.performRead, if_neg (by decide), if_neg (by decide), if_neg (by decide),
    if_pos (by simp [ctrlStatSelected, hb])]

theorem wasRead_ctrlStat {t : Target} (hb : dpBankSel t.select = 0) (n : Nat) : wasRead n codeRdCtrlstat t =
    { (({ t with accepting := false } : Target).readCtrlStat).2 with drive := [] } := by
  rw [wasRead_of_ne (by decide), performRead_ctrlStat (by exact hb)]

/-- Settles O16: the read is answered OK by a listening target, and what it counts is the running delay. -/
theorem readCtrlStatEffect : Obligations.ReadCtrlStatEffect := by
  intro s ho hl hb
  obtain ⟨t, hexec, hoe, hends, htarget⟩ :=
    exec_okRead (i := .rdCtrlstat) rfl (by decide) ho (listening_answersOk hl (by decide))
  rw [heard_of_ne (by decide), performRead_ctrlStat (by exact hb), readCtrlStat_fst] at hends
  rw [wasRead_ctrlStat hb] at htarget
  refine ⟨t, hexec, hoe, hends, fun hnone => ?_, fun k hk hsome => ?_, fun k hk hsome => ?_⟩
  · rw [htarget, readCtrlStat_idle (by exact hnone)]
    rfl
  · rw [htarget, readCtrlStat_counts (by exact hsome) hk]
    rfl
  · have hcounted : t.target =
        { s.target.settled with ctrlStat := settlePower s.target.ctrlStat, pwrLeft := none } := by
      rw [htarget, readCtrlStat_settles (by exact hsome) hk]
      rfl
    have hc : t.target.ctrlStat = settlePower s.target.ctrlStat := by rw [hcounted]
    refine ⟨by rw [hcounted], ?_, ?_, fun j h31 h29 => ?_⟩
    · rw [hc, getLsbD_settlePower _ (by omega)]; rfl
    · rw [hc, getLsbD_settlePower _ (by omega)]; rfl
    · by_cases h32 : j < 32
      · rw [hc, getLsbD_settlePower _ h32, if_neg h31, if_neg h29]
      · rw [BitVec.getLsbD_of_ge _ _ (by omega), BitVec.getLsbD_of_ge _ _ (by omega)]

theorem getLsbD_writeCtrlStat (old new : Word) {k : Nat} (hk : k < 32) : (writeCtrlStat old new).getLsbD k =
    if ctrlStatWritable.getLsbD k then new.getLsbD k else old.getLsbD k := by
  simp only [writeCtrlStat, BitVec.getLsbD_or, BitVec.getLsbD_and, BitVec.getLsbD_not, hk]
  cases ctrlStatWritable.getLsbD k <;> simp

theorem getLsbD_settleReset (c : Word) {k : Nat} (hk : k < 32) :
    (settleReset c).getLsbD k = if k = 27 then c.getLsbD 26 else c.getLsbD k := by
  have hmask : ∀ k < 32, (0x08000000 : Word).getLsbD k = decide (k = 27) := by decide
  simp only [settleReset, BitVec.getLsbD_or, BitVec.getLsbD_and, BitVec.getLsbD_not, BitVec.getLsbD_shiftLeft, hmask k hk, hk]
  by_cases h27 : k = 27
  · simp [h27]
  · simp [h27]

/-- CTRL/STAT after a write, bit by bit: CDBGRSTACK follows CDBGRSTREQ at a target that acts on it, the writable fields take
the value, the rest stays (log 13, log 32). -/
theorem getLsbD_statusWritten (t : Target) (w : Word) {k : Nat} (hk : k < 32) : (t.statusWritten w).getLsbD k =
    if k = 27 ∧ t.statusLive = true then w.getLsbD 26
      else if ctrlStatWritable.getLsbD k then w.getLsbD k else t.ctrlStat.getLsbD k := by
  have h26 : ctrlStatWritable.getLsbD 26 = true := by decide
  unfold Target.statusWritten
  dsimp only
  split
  case isTrue hlive =>
    rw [getLsbD_settleReset _ hk, getLsbD_writeCtrlStat _ _ hk, getLsbD_writeCtrlStat _ _ (by omega), if_pos h26]
    simp [hlive]
  case isFalse hlive =>
    rw [getLsbD_writeCtrlStat _ _ hk, if_neg (c := k = 27 ∧ _) fun h => hlive h.2]

/-- CTRL/STAT and the power-up delay after a CTRL/STAT write (R72; log 29). -/
theorem writeCtrlStat_eq (t : Target) (w : Word) : t.writeCtrlStat w = { t with
    ctrlStat := if t.pwrDelay = some 0 then settlePower (t.statusWritten w) else t.statusWritten w
    pwrLeft := if t.pwrDelay = some 0 then none else t.pwrDelay } := by
  unfold Target.writeCtrlStat
  dsimp only
  split <;> rename_i hd <;> simp [hd]

theorem wrote_ctrlStat {t : Target} (hb : dpBankSel t.select = 0) (n : Nat) (w : Word) :
    wrote n codeWrCtrlstat w t = { t.settled with
      ctrlStat := if t.pwrDelay = some 0 then settlePower (t.statusWritten w) else t.statusWritten w
      pwrLeft := if t.pwrDelay = some 0 then none else t.pwrDelay } := by
  rw [wrote_of_ne (by decide), Target.performWrite, if_neg (by decide), if_neg (by decide), if_neg (by decide),
    if_pos (by simp [ctrlStatSelected, hb]), writeCtrlStat_eq]
  rfl

/-- Settles O17: the power-up acknowledges apart, every bit is the written one or the old one, as the mask says. -/
theorem writeCtrlStatEffect : Obligations.WriteCtrlStatEffect := by
  intro d s ho hl hb
  obtain ⟨t, n, hexec, hoe, hends, htarget⟩ :=
    exec_okWrite (i := .wrCtrlstat d) rfl (by decide) ho (listening_answersOk hl (by decide))
  rw [wrote_ctrlStat hb] at htarget
  have hc : t.target.ctrlStat = if s.target.pwrDelay = some 0 then settlePower (s.target.statusWritten d)
      else s.target.statusWritten d := by rw [htarget]
  have hother : ∀ {k}, k < 32 → k ≠ 31 → k ≠ 29 →
      t.target.ctrlStat.getLsbD k = (s.target.statusWritten d).getLsbD k := by
    intro k hk h31 h29
    rw [hc]
    split
    · rw [getLsbD_settlePower _ hk, if_neg h31, if_neg h29]
    · rfl
  refine ⟨t, hexec, hoe, hends, by rw [htarget], fun k hk => ?written, fun k hk => ?kept, ?reset, fun h0 => ?atOnce,
    fun h0 => ?later⟩
  case written =>
    have hw : ∀ k ∈ [0, 2, 3, 8, 9, 10, 11, 12, 13, 14, 15, 16, 17, 18, 19, 20, 21, 22, 23, 26, 28, 30],
        k < 32 ∧ k ≠ 31 ∧ k ≠ 29 ∧ k ≠ 27 ∧ ctrlStatWritable.getLsbD k = true := by decide
    obtain ⟨h32, h31, h29, h27, hm⟩ := hw k hk
    rw [hother h32 h31 h29, getLsbD_statusWritten _ _ h32, if_neg fun h => h27 h.1, if_pos hm]
  case kept =>
    have hw : ∀ k ∈ [1, 4, 5, 6, 7, 24, 25],
        k < 32 ∧ k ≠ 31 ∧ k ≠ 29 ∧ k ≠ 27 ∧ ¬ ctrlStatWritable.getLsbD k = true := by decide
    obtain ⟨h32, h31, h29, h27, hm⟩ := hw k hk
    rw [hother h32 h31 h29, getLsbD_statusWritten _ _ h32, if_neg fun h => h27 h.1, if_neg hm]
  case reset =>
    rw [hother (by omega) (by omega) (by omega), getLsbD_statusWritten _ _ (by omega),
      if_neg (show ¬ ctrlStatWritable.getLsbD 27 = true by decide)]
    simp
  case atOnce =>
    have hreq : ∀ k ∈ [28, 30], (s.target.statusWritten d).getLsbD k = d.getLsbD k := by
      intro k hk
      have hw : ∀ k ∈ [28, 30], k < 32 ∧ k ≠ 27 ∧ ctrlStatWritable.getLsbD k = true := by decide
      obtain ⟨h32, h27, hm⟩ := hw k hk
      rw [getLsbD_statusWritten _ _ h32, if_neg fun h => h27 h.1, if_pos hm]
    rw [hc, if_pos h0, getLsbD_settlePower _ (by omega), getLsbD_settlePower _ (by omega)]
    exact ⟨hreq 30 (by simp), hreq 28 (by simp)⟩
  case later =>
    have hack : ∀ k ∈ [29, 31], (s.target.statusWritten d).getLsbD k = s.target.ctrlStat.getLsbD k := by
      intro k hk
      have hw : ∀ k ∈ [29, 31], k < 32 ∧ k ≠ 27 ∧ ¬ ctrlStatWritable.getLsbD k = true := by decide
      obtain ⟨h32, h27, hm⟩ := hw k hk
      rw [getLsbD_statusWritten _ _ h32, if_neg fun h => h27 h.1, if_neg hm]
    rw [hc, if_neg h0]
    exact ⟨hack 31 (by simp), hack 29 (by simp)⟩

/-! ## SELECT and RDBUFF (10_state R55, R56, R62, R63) -/

theorem wrote_select (n : Nat) (w : Word) (t : Target) :
    wrote n codeWrSelect w t = { t.settled with select := w, stale := true } := by
  rw [wrote_of_ne (by decide), Target.performWrite, if_neg (by decide), if_neg (by decide), if_pos rfl]
  rfl

/-- Settles O18. -/
theorem writeSelectEffect : Obligations.WriteSelectEffect := by
  intro d s ho hl
  obtain ⟨t, n, hexec, hoe, hends, htarget⟩ :=
    exec_okWrite (i := .wrSelect d) rfl (by decide) ho (listening_answersOk hl (by decide))
  exact ⟨t, hexec, hoe, hends, htarget.trans (wrote_select n d _)⟩

/-- Settles O19: the read gives RDBUFF and starts no AP access. -/
theorem readRdbuffEffect : Obligations.ReadRdbuffEffect := by
  intro s ho hr
  obtain ⟨t, hexec, hoe, hends, htarget⟩ := exec_okRead (i := .rdRdbuff) rfl (by decide) ho (ready_answersOk hr _)
  obtain ⟨hleft, hword⟩ := wasRead_rdbuff hr s.draws
  rw [hword] at hends
  exact ⟨t, hexec, hoe, hends, htarget.trans hleft⟩

end Sys2Proof.Proofs

/-! PROOF. The Access Port requests against the reference target (10_state R57-R69; 20_memory R90-R93; 41_transaction
R190-R194; 70_reset R398): byte lanes, TAR after an access, and what each answer leaves at the target. -/

namespace Sys2Proof.Proofs

open Sys2Proof Sys2Proof.Machine Sys2Proof.Laws

/-! ## Byte lanes (20_memory R90) -/

theorem laneByte_eq_extract (a w : Word) : laneByte a w = w.extractLsb' (8 * (a.toNat % 4)) 8 := by
  apply BitVec.eq_of_getLsbD_eq
  intro k hk
  simp [laneByte, laneShift, hk, Nat.mul_comm]

theorem getLsbD_laneWord (a : Word) (b : Byte) {k : Nat} (hk : k < 32) : (laneWord a b).getLsbD k =
    (decide (8 * (a.toNat % 4) ≤ k) && b.getLsbD (k - 8 * (a.toNat % 4))) := by
  rw [laneWord, laneShift, Nat.mul_comm, BitVec.getLsbD_shiftLeft, BitVec.getLsbD_setWidth]
  by_cases h : 8 * (a.toNat % 4) ≤ k
  · simp [h, hk, show k - 8 * (a.toNat % 4) < 32 by omega, show ¬ k < 8 * (a.toNat % 4) by omega]
  · simp [h, show k < 8 * (a.toNat % 4) by omega]

/-- Settles O34: a lane is eight bits of the word at eight times the byte's number. -/
theorem byteLanes : Obligations.ByteLanes := fun a b w =>
  ⟨fun _ hk => getLsbD_laneWord a b hk, laneByte_eq_extract a w, laneByte_laneWord a b⟩

/-- Byte `j` of a word of memory is the byte at its address plus `j` (20_memory R93). -/
theorem readWord_byte (m : List Host.Cell) (a : Word) {j : Nat} (hj : j < 4) :
    (Memory.readWord m a).extractLsb' (8 * j) 8 = Memory.readByte m (alignWord a + BitVec.ofNat 32 j) := by
  have hbytes := wordBytes_bytesWord (Memory.readByte m (alignWord a)) (Memory.readByte m (alignWord a + 1))
    (Memory.readByte m (alignWord a + 2)) (Memory.readByte m (alignWord a + 3))
  simp only [wordBytes, List.cons.injEq, and_true] at hbytes
  obtain ⟨h0, h1, h2, h3⟩ := hbytes
  obtain rfl | rfl | rfl | rfl : j = 0 ∨ j = 1 ∨ j = 2 ∨ j = 3 := by omega
  · rw [BitVec.add_zero]; exact h0
  · exact h1
  · exact h2
  · exact h3

/-! ## TAR after an access (10_state R64) -/

/-- The page of one address and the offset of another (R64: only TAR[9:0] advances). -/
theorem toNat_page_or_offset (a b : Word) :
    ((a &&& (0xFFFFFC00 : Word)) ||| (b &&& (0x000003FF : Word))).toNat = a.toNat / 1024 * 1024 + b.toNat % 1024 := by
  have hpage : (a &&& (0xFFFFFC00 : Word)).toNat = 2 ^ 10 * (a.toNat / 1024) := by
    have hmask : a &&& (0xFFFFFC00 : Word) = (a >>> 10) <<< 10 := by
      apply BitVec.eq_of_getLsbD_eq
      intro k hk
      have hbit : ∀ k < 32, (0xFFFFFC00 : Word).getLsbD k = decide (10 ≤ k) := by decide
      rw [BitVec.getLsbD_and, hbit k hk, BitVec.getLsbD_shiftLeft, BitVec.getLsbD_ushiftRight]
      by_cases h : k < 10
      · simp [h]
      · simp [h, hk, show 10 + (k - 10) = k by omega]
        omega
    have ha := a.isLt
    rw [hmask, BitVec.toNat_shiftLeft, BitVec.toNat_ushiftRight, Nat.shiftRight_eq_div_pow, Nat.shiftLeft_eq]
    omega
  have hoffset : (b &&& (0x000003FF : Word)).toNat = b.toNat % 1024 := by
    rw [BitVec.toNat_and, show (0x000003FF : Word).toNat = 2 ^ 10 - 1 by decide, Nat.and_two_pow_sub_one_eq_mod]
  have hlt : b.toNat % 1024 < 2 ^ 10 := Nat.mod_lt _ (by omega)
  rw [BitVec.toNat_or, hpage, hoffset, ← Nat.two_pow_add_eq_or_of_lt hlt]
  omega

theorem nextTar_noInc {csw : Word} (h : cswAddrInc csw = 0b00#2) (tar fresh : Word) : nextTar csw tar fresh = tar := by
  rw [nextTar, if_pos h]

theorem nextTar_incWord {csw : Word} (hs : cswSize csw = 0b010#3) (hi : cswAddrInc csw = 0b01#2) (tar fresh : Word) :
    nextTar csw tar fresh = tarNext tar := nextTar_word ⟨hs, hi⟩ tar fresh

theorem nextTar_incByte {csw : Word} (hs : cswSize csw = 0b000#3) (hi : cswAddrInc csw = 0b01#2) (tar fresh : Word) :
    (nextTar csw tar fresh).toNat = tar.toNat / 1024 * 1024 + (tar.toNat % 1024 + 1) % 1024 := by
  have hsize : sizeBytes (cswSize csw) = some 1 := by rw [hs]; decide
  have hnext : nextTar csw tar fresh = (tar &&& 0xFFFFFC00) ||| ((tar + 1) &&& 0x000003FF) := by
    unfold nextTar
    rw [hi, hsize]
    simp
  have htar := tar.isLt
  rw [hnext, toNat_page_or_offset, BitVec.toNat_add, show (1 : Word).toNat = 1 from rfl]
  omega

/-! ## CSW and TAR (10_state R57, R58) -/

theorem getLsbD_writeCsw (old new : Word) {k : Nat} (hk : k < 32) : (writeCsw old new).getLsbD k =
    if cswReadOnly.getLsbD k then old.getLsbD k else new.getLsbD k := by
  simp only [writeCsw, BitVec.getLsbD_or, BitVec.getLsbD_and, BitVec.getLsbD_not, hk]
  cases cswReadOnly.getLsbD k <;> simp

/-- Settles O20: the bits outside the mask are the written ones. -/
theorem writeCswEffect : Obligations.WriteCswEffect := by
  intro d s ho hb
  obtain ⟨t, n, hexec, hoe, hends, htarget⟩ :=
    exec_okWrite (i := .wrCsw d) rfl (by decide) ho (ready_answersOk hb.ready _)
  rw [wrote_csw hb] at htarget
  have hcsw : t.target.csw = writeCsw s.target.csw d := by rw [htarget]; rfl
  have hmask : ∀ k < 32, cswReadOnly.getLsbD k = decide (k ∈ [6, 7, 23]) := by decide
  refine ⟨t, hexec, hoe, hends, by rw [htarget]; rfl, fun k hk hk' => ?_, fun k hk' => ?_⟩
  · rw [hcsw, getLsbD_writeCsw _ _ hk, hmask k hk, if_neg (by simpa using hk')]
  · have hk : k < 32 := by
      have hsmall : ∀ k ∈ [6, 7, 23], k < 32 := by decide
      exact hsmall k hk'
    rw [hcsw, getLsbD_writeCsw _ _ hk, hmask k hk, if_pos (by simpa using hk')]

/-- Settles O21. -/
theorem writeTarEffect : Obligations.WriteTarEffect := by
  intro d s ho hb
  obtain ⟨t, n, hexec, hoe, hends, htarget⟩ :=
    exec_okWrite (i := .wrTar d) rfl (by decide) ho (ready_answersOk hb.ready _)
  exact ⟨t, hexec, hoe, hends, htarget.trans (wrote_tar hb n d)⟩

/-! ## DRW writes (10_state R54, R64, R65) -/

/-- The target while the data word of a write arrives. -/
def receiving (t : Target) : Target := { t with drive := [], accepting := true }

/-- A DRW write in bank 0 of AP 0 is the target's run of transfers. -/
theorem wrote_drw_eq {t : Target} (h : t.Bank0) (n : Nat) (w : Word) : wrote n codeWrDrw w t =
    { (receiving t).drwWrites n w (if t.statusLive then trnCnt t.ctrlStat else 0) with accepting := false } := by
  rw [wrote_of_ne (by decide), Target.performWrite, if_pos (by decide), Target.apWrite]
  simp only [apReg_drw h.ap h.bank]
  rfl

/-- In normal transfer mode a DRW write is one bus write, after which TAR moves. -/
theorem wrote_drw_normal {t : Target} (h : t.Bank0) (hn : t.normalTransfer = true) (n : Nat) (w : Word) :
    wrote n codeWrDrw w t = { (receiving t).busWrite n w with
      tar := nextTar ((receiving t).busWrite n w).csw ((receiving t).busWrite n w).tar (Config.drawWord (n + 2))
      accepting := false } := by
  rw [wrote_drw_eq h]
  have hrun := drwWrites_normal (t := receiving t) (by exact hn) n w
  rw [show (receiving t).statusLive = t.statusLive from rfl,
    show (receiving t).ctrlStat = t.ctrlStat from rfl] at hrun
  rw [hrun]

theorem busWrite_byte {t : Target} (hs : cswSize t.csw = 0b000#3) (hb : t.busError t.tar = false) (n : Nat) (w : Word) :
    t.busWrite n w = { t with mem := Memory.writeLane t.mem t.tar w } := by
  have hsize : sizeBytes (cswSize t.csw) = some 1 := by rw [hs]; decide
  rw [Target.busWrite, if_neg (by simp [hb])]
  simp only [hsize]

theorem wrote_drw_byte {t : Target} (h : t.Bank0) (hn : t.normalTransfer = true) (hs : cswSize t.csw = 0b000#3)
    (hb : t.busError t.tar = false) (n : Nat) (w : Word) : wrote n codeWrDrw w t = Target.settled { t with
      mem := Memory.writeLane t.mem t.tar w, tar := nextTar t.csw t.tar (Config.drawWord (n + 2)) } := by
  rw [wrote_drw_normal h hn, busWrite_byte (by exact hs) (by exact hb)]
  rfl

/-- A pushed transfer of a word (log 32): nothing is written and STICKYCMP says how the lanes compare. -/
theorem wrote_drw_pushed {t : Target} (h : t.Bank0) (hl : t.statusLive = true) (hk : trnCnt t.ctrlStat = 0)
    (hs : cswSize t.csw = 0b010#3) (hp : t.Plain t.tar)
    (hm : trnMode t.ctrlStat = 0b01#2 ∨ trnMode t.ctrlStat = 0b10#2) (n : Nat) (w : Word) :
    wrote n codeWrDrw w t = Target.settled { t with
      ctrlStat := if ((Memory.readWord t.mem t.tar ^^^ w) &&& laneMask t.ctrlStat == 0) == (trnMode t.ctrlStat == 0b10#2)
        then t.ctrlStat ||| stickyCmpMask else t.ctrlStat
      tar := nextTar t.csw t.tar (Config.drawWord (n + 2)) } := by
  have hmode : pushedMode t.ctrlStat = true := by
    obtain hm | hm := hm <;> simp [pushedMode, hm]
  rw [wrote_drw_eq h]
  have hrun := drwWrites_pushed (t := receiving t) hl hmode hk hs ⟨hp.bus, hp.dhcsr, hp.dcrsr, hp.dcrdr⟩ n w
  rw [show (receiving t).statusLive = t.statusLive from rfl,
    show (receiving t).ctrlStat = t.ctrlStat from rfl] at hrun
  rw [hrun]
  rfl

theorem getLsbD_laneMask (c : Word) {k : Nat} (hk : k < 32) : (laneMask c).getLsbD k = c.getLsbD (8 + k / 8) := by
  have hlane : (laneMask c).getLsbD k = if k / 8 = 0 then c.getLsbD 8 else if k / 8 = 1 then c.getLsbD 9
      else if k / 8 = 2 then c.getLsbD 10 else c.getLsbD 11 := by
    unfold laneMask
    generalize c.getLsbD 8 = b0, c.getLsbD 9 = b1, c.getLsbD 10 = b2, c.getLsbD 11 = b3
    revert k b0 b1 b2 b3
    decide
  obtain h | h | h | h : k / 8 = 0 ∨ k / 8 = 1 ∨ k / 8 = 2 ∨ k / 8 = 3 := by omega
  all_goals rw [hlane, h]; rfl

/-- Two words agree in the byte lanes MASKLANE names (10_state R54). -/
theorem lanes_agree_iff (a b c : Word) : (a ^^^ b) &&& laneMask c = 0 ↔
    ∀ j < 4, c.getLsbD (8 + j) = true → a.extractLsb' (8 * j) 8 = b.extractLsb' (8 * j) 8 := by
  constructor
  · intro h j hj hc
    apply BitVec.eq_of_getLsbD_eq
    intro i hi
    have hbit := congrArg (fun w : Word => w.getLsbD (8 * j + i)) h
    have hlane : (8 * j + i) / 8 = j := by omega
    simp only [BitVec.getLsbD_and, getLsbD_laneMask c (show 8 * j + i < 32 by omega), hlane, hc] at hbit
    simpa [hi] using hbit
  · intro h
    apply BitVec.eq_of_getLsbD_eq
    intro k hk
    rw [BitVec.getLsbD_and, getLsbD_laneMask c hk]
    cases hc : c.getLsbD (8 + k / 8) with
    | false => simp
    | true =>
      have hbit := congrArg (fun w : Byte => w.getLsbD (k % 8)) (h (k / 8) (by omega) hc)
      have hidx : 8 * (k / 8) + k % 8 = k := by omega
      simp only [BitVec.getLsbD_extractLsb', hidx, Nat.mod_lt k (show 0 < 8 by omega), decide_true, Bool.true_and] at hbit
      simp [hbit]

theorem stickyCmp_clear {c : Word} (h : stickySet c = false) : c.getLsbD 4 = false := by
  have hz : c &&& stickyMask = 0 := by simpa [stickySet] using h
  have hbit := congrArg (fun w : Word => w.getLsbD 4) hz
  rwa [BitVec.getLsbD_and, show stickyMask.getLsbD 4 = true by decide, Bool.and_true] at hbit

/-- What TAR holds after a word access, for both values of AddrInc the spec gives (R64). -/
theorem nextTar_wordSize {csw : Word} (hs : cswSize csw = 0b010#3) (tar fresh : Word) :
    (cswAddrInc csw = 0b00#2 → nextTar csw tar fresh = tar) ∧
    (cswAddrInc csw = 0b01#2 → nextTar csw tar fresh = tarNext tar) :=
  ⟨fun hi => nextTar_noInc hi tar fresh, fun hi => nextTar_incWord hs hi tar fresh⟩

/-- What TAR holds after a byte access, likewise. -/
theorem nextTar_byteSize {csw : Word} (hs : cswSize csw = 0b000#3) (tar fresh : Word) :
    (cswAddrInc csw = 0b00#2 → nextTar csw tar fresh = tar) ∧
    (cswAddrInc csw = 0b01#2 →
      (nextTar csw tar fresh).toNat = tar.toNat / 1024 * 1024 + (tar.toNat % 1024 + 1) % 1024) :=
  ⟨fun hi => nextTar_noInc hi tar fresh, fun hi => nextTar_incByte hs hi tar fresh⟩

/-- Settles O22: one bus write, of a word or of a byte, or a compare in the lanes of MASKLANE; TAR moves by the same rule
in each. -/
theorem writeDrwEffect : Obligations.WriteDrwEffect := by
  intro d s ho hb hwf
  obtain ⟨t, n, hexec, hoe, hends, htarget⟩ :=
    exec_okWrite (i := .wrDrw d) rfl (by decide) ho (ready_answersOk hb.ready _)
  refine ⟨fun hn hs hp => ?word, fun hlive hcnt hs hp hm => ?pushed, fun hn hs hbus => ?byte⟩
  case word =>
    rw [wrote_drw_word hb hn hs hp] at htarget
    have hmem : t.target.mem = Memory.writeWord s.target.mem s.target.tar d := by rw [htarget]; rfl
    have htar : t.target.tar = nextTar s.target.csw s.target.tar (Config.drawWord (n + 2)) := by rw [htarget]; rfl
    refine ⟨t, hexec, hoe, hends, by rw [htarget]; rfl, fun j hj => ?_, fun b hne => ?_, ?_⟩
    · rw [hmem]; exact readByte_writeWord hwf _ _ j hj
    · rw [hmem]; exact readByte_writeWord_ne hwf _ _ _ hne
    · rw [htar]; exact nextTar_wordSize hs _ _
  case pushed =>
    rw [wrote_drw_pushed hb hlive hcnt hs hp hm] at htarget
    have htar : t.target.tar = nextTar s.target.csw s.target.tar (Config.drawWord (n + 2)) := by rw [htarget]; rfl
    have hctrl : t.target.ctrlStat =
        if ((Memory.readWord s.target.mem s.target.tar ^^^ d) &&& laneMask s.target.ctrlStat == 0) ==
          (trnMode s.target.ctrlStat == 0b10#2) then s.target.ctrlStat ||| stickyCmpMask else s.target.ctrlStat := by
      rw [htarget]; rfl
    have hlanes : ((Memory.readWord s.target.mem s.target.tar ^^^ d) &&& laneMask s.target.ctrlStat = 0) ↔
        ∀ j < 4, s.target.ctrlStat.getLsbD (8 + j) = true →
          Memory.readByte s.target.mem (alignWord s.target.tar + BitVec.ofNat 32 j) = d.extractLsb' (8 * j) 8 := by
      rw [lanes_agree_iff]
      exact forall₂_congr fun j hj => by rw [readWord_byte _ _ hj]
    refine ⟨t, hexec, hoe, hends, by rw [htarget]; rfl, fun k hk => ?_, ?_, ?_⟩
    · rw [hctrl]
      split
      · have hcmp : stickyCmpMask.getLsbD k = false := by
          by_cases h32 : k < 32
          · have hmask : ∀ k < 32, k ≠ 4 → stickyCmpMask.getLsbD k = false := by decide
            exact hmask k h32 hk
          · exact BitVec.getLsbD_of_ge _ _ (by omega)
        rw [BitVec.getLsbD_or, hcmp, Bool.or_false]
      · rfl
    · have hold := stickyCmp_clear hb.ready.clear
      have hnew : (s.target.ctrlStat ||| stickyCmpMask).getLsbD 4 = true := by
        rw [BitVec.getLsbD_or, show stickyCmpMask.getLsbD 4 = true by decide, Bool.or_true]
      rw [hctrl, ← hlanes]
      split <;> rename_i h <;> rw [beq_iff_eq, Bool.eq_iff_iff, beq_iff_eq, beq_iff_eq] at h
      · exact ⟨fun _ => h.symm, fun _ => hnew⟩
      · exact ⟨fun hset => absurd hset (by rw [hold]; decide), fun hiff => absurd hiff.symm h⟩
    · rw [htar]; exact nextTar_wordSize hs _ _
  case byte =>
    rw [wrote_drw_byte hb hn hs hbus] at htarget
    have hmem : t.target.mem = Memory.writeLane s.target.mem s.target.tar d := by rw [htarget]; rfl
    have htar : t.target.tar = nextTar s.target.csw s.target.tar (Config.drawWord (n + 2)) := by rw [htarget]; rfl
    refine ⟨t, hexec, hoe, hends, by rw [htarget]; rfl, ?_, fun b hne => ?_, ?_⟩
    · rw [hmem, readByte_writeLane hwf, if_pos rfl, laneByte_eq_extract]
    · rw [hmem, readByte_writeLane hwf, if_neg hne]
    · rw [htar]; exact nextTar_byteSize hs _ _

end Sys2Proof.Proofs

/-! PROOF. AP reads, and AP requests that reach no register (10_state R54, R60-R62, R66-R69; 41_transaction R192, R194;
70_reset R398, R403): what the read pipeline holds, the two answers that perform nothing, a refused bus access, the wrong
bank. -/

namespace Sys2Proof.Proofs

open Sys2Proof Sys2Proof.Machine Sys2Proof.Laws

/-! ## DRW reads (10_state R62, R64, R66) -/

/-- The target once it has taken a request header. -/
def hearing (t : Target) : Target := { t with accepting := false }

/-- What a DRW read leaves at the target, `u` being what the bus gave (R62). -/
def afterDrwRead (n : Nat) (u : Word × Target) : Target := { u.2 with
  ctrlStat := u.2.afterRead, rdbuf := u.1, stale := false, tar := nextTar u.2.csw u.2.tar (Config.drawWord (n + 2)),
  drive := [] }

/-- The word an AP read returns: what RDBUFF holds, a free value when that is stale (R62). -/
def pipelined (n : Nat) (t : Target) : Word := if t.stale then Config.drawWord (n + 1) else t.rdbuf

theorem pipelined_fresh {t : Target} (h : t.stale = false) (n : Nat) : pipelined n t = t.rdbuf := by simp [pipelined, h]

theorem performRead_drw {t : Target} (h : t.Bank0) (n : Nat) : ((heard codeRdDrw t).performRead n codeRdDrw).1 = pipelined n t ∧
    wasRead n codeRdDrw t = afterDrwRead n ((hearing t).busRead n) := by
  have hread : (hearing t).performRead n codeRdDrw = (pipelined n t, { ((hearing t).busRead n).2 with
      ctrlStat := ((hearing t).busRead n).2.afterRead, rdbuf := ((hearing t).busRead n).1, stale := false,
      tar := nextTar ((hearing t).busRead n).2.csw ((hearing t).busRead n).2.tar (Config.drawWord (n + 2)) }) := by
    rw [Target.performRead, if_pos (by decide), Target.apRead]
    simp only [show apReg (hearing t).select codeRdDrw = .drw from apReg_rdDrw h.ap h.bank]
    rw [noteRead_ok (by decide) (by decide)]
    rfl
  rw [heard_of_ne (by decide), wasRead_of_ne (by decide)]
  exact ⟨congrArg Prod.fst hread, congrArg (fun r : Word × Target => { r.2 with drive := [] }) hread⟩

theorem busRead_byte {t : Target} (hs : cswSize t.csw = 0b000#3) (hb : t.busError t.tar = false) (n : Nat) :
    t.busRead n = (Memory.readLane t.mem t.tar (Config.drawWord n), t) := by
  have hsize : sizeBytes (cswSize t.csw) = some 1 := by rw [hs]; decide
  rw [Target.busRead, if_neg (by simp [hb])]
  simp only [hsize]

theorem busRead_error {t : Target} (hb : t.busError t.tar = true) (n : Nat) :
    t.busRead n = (Config.drawWord n, { t with ctrlStat := t.ctrlStat ||| stickyErrMask }) := by
  rw [Target.busRead, if_pos hb]

/-- A DRW read as an instruction, over what the bus gives. -/
theorem exec_rdDrw {s : State} (ho : s.oe = true) (hb : s.target.Bank0) :
    ∃ t, exec .rdDrw s = .next t ∧ t.oe = true ∧ EndsWith s t (pipelined s.draws s.target) (.ack .ok) ∧
      t.target = afterDrwRead s.draws ((hearing s.target).busRead s.draws) := by
  obtain ⟨t, hexec, hoe, hends, htarget⟩ :=
    exec_okRead (i := .rdDrw) rfl (by decide) ho (ready_answersOk hb.ready _)
  obtain ⟨hword, hleft⟩ := performRead_drw hb s.draws
  rw [hword] at hends
  exact ⟨t, hexec, hoe, hends, htarget.trans hleft⟩

/-- Settles O23: RDBUFF takes what the bus gives, whose lanes are bytes of memory; TAR moves as after a write. -/
theorem readDrwEffect : Obligations.ReadDrwEffect := by
  intro s ho hb
  obtain ⟨t, hexec, hoe, hends, htarget⟩ := exec_rdDrw ho hb
  refine ⟨fun hs hp => ?word, fun hs hbus => ?byte⟩
  case word =>
    have hleft := (performRead_drw hb s.draws).2
    rw [(wasRead_drw_word hb hs hp s.draws).1] at hleft
    rw [← hleft] at htarget
    refine ⟨t, _, hexec, hoe, hends, fun hst => pipelined_fresh hst _, by rw [htarget]; rfl, fun j hj => ?_, ?_⟩
    · rw [htarget]; exact readWord_byte _ _ hj
    · rw [htarget]; exact nextTar_wordSize hs _ _
  case byte =>
    rw [busRead_byte (by exact hs) (by exact hbus)] at htarget
    refine ⟨t, _, hexec, hoe, hends, fun hst => pipelined_fresh hst _, by rw [htarget]; rfl, ?_, ?_⟩
    · rw [htarget, ← laneByte_eq_extract]; exact laneByte_readLane _ _ _
    · rw [htarget]; exact nextTar_byteSize hs _ _

/-! ## Bank 0xF of AP 0 (10_state R50, R60) -/

theorem apReg_idrBank {sel : Word} (ha : apSel sel = 0) (hb : apBankSel sel = 0xF) (code : Byte) :
    apReg sel code = if headerAddr code = 3 then .idr else .other := by
  unfold apReg apRegAddr
  rw [if_pos ha, hb]
  generalize headerAddr code = a
  revert a
  decide

theorem performRead_idr {t : Target} (ha : apSel t.select = 0) (hb : apBankSel t.select = 0xF) (n : Nat) :
    t.performRead n codeRdIdr = (pipelined n t, { t with ctrlStat := t.afterRead, rdbuf := t.idr, stale := false }) := by
  rw [Target.performRead, if_pos (by decide), Target.apRead]
  simp only [show apReg t.select codeRdIdr = .idr from by rw [apReg_idrBank ha hb, if_pos (by decide)]]
  rw [noteRead_ok (by decide) (by decide)]
  rfl

/-- Settles O24. -/
theorem readIdrEffect : Obligations.ReadIdrEffect := by
  intro s ho hr ha hb
  obtain ⟨t, hexec, hoe, hends, htarget⟩ := exec_okRead (i := .rdIdr) rfl (by decide) ho (ready_answersOk hr _)
  rw [heard_of_ne (by decide), performRead_idr (by exact ha) (by exact hb)] at hends
  rw [wasRead_of_ne (by decide), performRead_idr (by exact ha) (by exact hb)] at htarget
  exact ⟨t, _, hexec, hoe, hends, fun hst => pipelined_fresh hst _, htarget⟩

theorem wrote_ap {code : Byte} (hap : headerApndp code = true) (n : Nat) (w : Word) (t : Target) :
    wrote n code w t = { (receiving t).apWrite n code w with accepting := false } := by
  have hne : code ≠ codeRdIdcode := by
    rintro rfl
    exact absurd hap (by decide)
  rw [wrote_of_ne hne, Target.performWrite, if_pos hap]
  rfl

/-- In bank 0xF a write reaches the read-only IDR or a register beyond the four (R50, 70_reset R398). -/
theorem apWrite_idrBank {t : Target} (ha : apSel t.select = 0) (hb : apBankSel t.select = 0xF) (n : Nat) (code : Byte)
    (w : Word) : t.apWrite n code w = { t with apOther := (t.apWrite n code w).apOther } := by
  rw [Target.apWrite, apReg_idrBank ha hb]
  by_cases h : headerAddr code = 3
  · rw [if_pos h]
  · rw [if_neg h]

/-- Settles O28: each of the three writes misses the registers of bank 0. -/
theorem wrongBankMissesTheRegisters : Obligations.WrongBankMissesTheRegisters := by
  intro i d s hi ho hr ha hb
  obtain ⟨h, henc, hw, hap⟩ : ∃ h, encode i = .transaction h d ∧ isRead h = false ∧ headerApndp h = true := by
    simp only [List.mem_cons, List.not_mem_nil, or_false] at hi
    obtain rfl | rfl | rfl := hi
    exacts [⟨_, rfl, by decide, by decide⟩, ⟨_, rfl, by decide, by decide⟩, ⟨_, rfl, by decide, by decide⟩]
  obtain ⟨t, n, hexec, hoe, hends, htarget⟩ := exec_okWrite henc hw ho (ready_answersOk hr _)
  refine ⟨t, hexec, hoe, hends, ?_⟩
  rw [htarget, wrote_ap hap, apWrite_idrBank (by exact ha) (by exact hb)]
  rfl

/-! ## FAULT and WAIT (10_state R67, R69) -/

theorem deaf_listening {t : Target} (h : t.Listening) (code : Byte) : (hearing t).deaf code = false := by
  simp [Target.deaf, hearing, h.protocol, h.inSync]

theorem onRequest_listening {t : Target} (h : t.Listening) {code : Byte} (hb : blockable code = true) (n : Nat) :
    t.onRequest n code = match (hearing t).naturalAck code with
      | .fault => ((hearing t).noteRead code false).answerFault
      | .wait => (({ hearing t with busy := t.busy - 1 } : Target).noteRead code false).noteOverrun.answerWait
      | _ => (hearing t).answerOk n code := by
  have hne : code ≠ codeRdIdcode := by
    rintro rfl
    exact absurd hb (by decide)
  have hnormal : t.onRequest n code = (hearing t).answerNormally n code := by
    rw [Target.onRequest, if_pos h.attached]
    split
    case h_1 => rfl
    case h_2 a rest hsome => rw [h.answers] at hsome; cases hsome
  rw [hnormal, Target.answerNormally, if_neg (by simp [deaf_listening h]), if_neg hne]
  rfl

theorem onRequest_fault {t : Target} (h : t.Listening) {code : Byte} (hb : blockable code = true)
    (hs : stickySet t.ctrlStat = true) (n : Nat) : t.onRequest n code =
      { hearing t with ctrlStat := t.afterFailed code, drive := ackLevels 0b100 } := by
  have hack : (hearing t).naturalAck code = .fault := by
    rw [Target.naturalAck, if_pos hb, if_pos (by exact hs)]
  rw [onRequest_listening h hb, hack]
  simp only
  rw [noteRead_failed]
  rfl

theorem onRequest_wait {t : Target} (h : t.Listening) {code : Byte} (hb : blockable code = true)
    (hs : stickySet t.ctrlStat = false) (hbusy : t.busy ≠ 0) (n : Nat) : t.onRequest n code =
      { hearing t with
        busy := t.busy - 1
        ctrlStat := if t.statusLive && orunDetect (t.afterFailed code) then t.afterFailed code ||| 0x00000002
          else t.afterFailed code
        drive := ackLevels 0b010 } := by
  have hack : (hearing t).naturalAck code = .wait := by
    rw [Target.naturalAck, if_pos hb, if_neg (by exact ne_true_of_eq_false hs), if_pos (by exact hbusy)]
  rw [onRequest_listening h hb, hack]
  simp only
  rw [noteRead_failed, noteOverrun_eq]
  rfl

/-- A transaction answered with an ACK and nothing after it, as an instruction. -/
theorem exec_blocked {i : Instr} {h : Byte} {d : Word} {s : State} {raw : BitVec 3} (he : encode i = .transaction h d)
    (ho : s.oe = true) (hraw : classifyAck raw = .wait ∨ classifyAck raw = .fault)
    (hd : (Target.onRequest s.draws h s.target).drive = ackLevels raw) :
    ∃ t, exec i s = .next t ∧ t.oe = true ∧ EndsWith s t (if isRead h then s.data else d) (.ack (classifyAck raw)) ∧
      t.target = { Target.onRequest s.draws h s.target with drive := [] } ∧ t.trace.length = s.trace.length + 13 := by
  obtain ⟨r, u, hrun, rfl, htarget, hoe, hwire⟩ :=
    transaction_blocked (if isRead h then s.data else d) (legal_of_encode he) ho hraw hd
  have hexec := exec_of_exchange he hrun
  have hends := endsWith_of_wireOnly hwire (if isRead h then s.data else d) (.ack (classifyAck raw))
  obtain ⟨t, a, w, hexec', -, hends', hcells, -⟩ := transactionsComplete i h d s he ho
  obtain rfl := Host.Outcome.next.inj (hexec.symm.trans hexec')
  have ha : a = classifyAck raw := OpResult.ack.inj (hends'.result.symm.trans hends.result)
  rw [ha, if_pos hraw] at hcells
  exact ⟨_, hexec, hoe, hends, htarget, hcells⟩

/-- Settles O25: FAULT is the natural answer while a sticky flag is set, whatever the AP is busy with. -/
theorem stickyFlagBlocksTheAp : Obligations.StickyFlagBlocksTheAp := by
  intro i h d s he hb ho hl hs
  have hanswer := onRequest_fault hl hb hs s.draws
  obtain ⟨t, hexec, hoe, hends, htarget, hcells⟩ :=
    exec_blocked (raw := 0b100) he ho (.inr (by decide)) (by rw [hanswer])
  exact ⟨t, hexec, hoe, hends, by rw [htarget, hanswer]; rfl, hcells⟩

theorem orunDetect_afterFailed (t : Target) (code : Byte) : orunDetect (t.afterFailed code) = t.ctrlStat.getLsbD 0 := by
  unfold Target.afterFailed orunDetect
  split
  · rw [BitVec.getLsbD_and, show (0xFFFFFFBF : Word).getLsbD 0 = true by decide, Bool.and_true]
  · rfl

/-- Settles O26: with no sticky flag, WAIT is the natural answer while the AP is busy. -/
theorem busyApAnswersWait : Obligations.BusyApAnswersWait := by
  intro i h d s he hb ho hl hs hbusy
  have hanswer := onRequest_wait hl hb hs hbusy s.draws
  obtain ⟨t, hexec, hoe, hends, htarget, hcells⟩ :=
    exec_blocked (raw := 0b010) he ho (.inl (by decide)) (by rw [hanswer])
  refine ⟨t, hexec, hoe, hends, ?_, hcells⟩
  rw [htarget, hanswer, orunDetect_afterFailed]
  rfl

/-! ## A refused bus access (10_state R67, log 16) -/

theorem stickySet_or_stickyErr (c : Word) : stickySet (c ||| stickyErrMask) = true := by
  have hbit : ((c ||| stickyErrMask) &&& stickyMask).getLsbD 5 = true := by
    rw [BitVec.getLsbD_and, BitVec.getLsbD_or, show stickyErrMask.getLsbD 5 = true by decide,
      show stickyMask.getLsbD 5 = true by decide, Bool.or_true, Bool.and_true]
  have hne : (c ||| stickyErrMask) &&& stickyMask ≠ 0 := by
    intro h
    rw [h] at hbit
    exact absurd hbit (by decide)
  simpa [stickySet] using hne

/-- One transfer to a refused address, in any mode: STICKYERR is set and TAR moves. -/
theorem drwWrite_error {t : Target} (hb : t.busError t.tar = true) (n : Nat) (w : Word) : t.drwWrite n w = { t with
    ctrlStat := t.ctrlStat ||| stickyErrMask, tar := nextTar t.csw t.tar (Config.drawWord (n + 2)) } := by
  have hwrite : t.busWrite n w = { t with ctrlStat := t.ctrlStat ||| stickyErrMask } := by
    rw [Target.busWrite, if_pos hb]
  have hcompare : t.pushCompare n w = { t with ctrlStat := t.ctrlStat ||| stickyErrMask } := by
    rw [Target.pushCompare, busRead_error hb]
    simp only [hb, if_true]
  rw [Target.drwWrite, hwrite, hcompare, ite_self]

/-- The sticky flag ends a counted run at its first transfer (log 32). -/
theorem drwWrites_error {t : Target} (hb : t.busError t.tar = true) (n : Nat) (w : Word) (k : Nat) :
    t.drwWrites n w k = t.drwWrite n w := by
  cases k with
  | zero => rfl
  | succ k =>
    rw [Target.drwWrites]
    exact if_pos (by rw [drwWrite_error hb]; exact stickySet_or_stickyErr _)

theorem afterRead_or_stickyErr (t : Target) :
    ({ t with ctrlStat := t.ctrlStat ||| stickyErrMask } : Target).afterRead = t.afterRead ||| 0x00000020#32 := by
  unfold Target.afterRead
  show (if t.statusLive then (t.ctrlStat ||| 0x00000020#32) ||| 0x00000040#32 else t.ctrlStat ||| 0x00000020#32) = _
  split
  · rw [BitVec.or_assoc, BitVec.or_comm 0x00000020#32, ← BitVec.or_assoc]
    rfl
  · rfl

/-- Settles O27: the refused transfer sets the flag, and the flag ends the run. -/
theorem busErrorSetsStickyErr : Obligations.BusErrorSetsStickyErr := by
  intro d s ho hb hbus
  constructor
  · obtain ⟨t, n, hexec, hoe, hends, htarget⟩ :=
      exec_okWrite (i := .wrDrw d) rfl (by decide) ho (ready_answersOk hb.ready _)
    rw [wrote_drw_eq hb, drwWrites_error (by exact hbus), drwWrite_error (by exact hbus)] at htarget
    exact ⟨t, hexec, hoe, hends, by rw [htarget]; rfl⟩
  · obtain ⟨t, hexec, hoe, hends, htarget⟩ := exec_rdDrw ho hb
    rw [busRead_error (by exact hbus)] at htarget
    refine ⟨t, _, hexec, hoe, hends, fun hst => pipelined_fresh hst _, ?_⟩
    rw [htarget, afterDrwRead, afterRead_or_stickyErr]
    rfl

end Sys2Proof.Proofs

/-! PROOF. The recovery path (42_error_recovery R220-R234): that it ends and with which codes, the CSW write it ends with, what
it leaves at the reference target, and the success it reports for a transaction that took no effect. The last cells of an
8-bit operation are those of the same CSW write (43_memory_access R256, R257). -/

namespace Sys2Proof.Proofs

open Sys2Proof Sys2Proof.Machine Sys2Proof.Laws

/-! ## What is recovered (R220-R223) -/

theorem clearError_eq_recoveryPath {a : Ack} (hok : a ≠ .ok) (hp : a ≠ .parityError) (hz : a ≠ .protocolError 0b000#3) :
    clearError a = recoveryPath := by
  cases a with
  | ok => exact absurd rfl hok
  | parityError => exact absurd rfl hp
  | protocolError raw =>
    have hraw : raw ≠ 0b000#3 := by
      rintro rfl
      exact hz rfl
    rw [clearError_protocolError, if_neg hraw]
  | wait => rfl
  | fault => rfl

/-- Settles O30. -/
theorem clearErrorCompletes : Obligations.ClearErrorCompletes := by
  intro a s ho hok hp hz
  rw [clearError_eq_recoveryPath hok hp hz]
  obtain ⟨c, t, hrun, hc, hwire, hoe⟩ := works_recoveryPath s ho
  exact ⟨c, t, hrun, hc, hoe, hwire⟩

/-- With code 0 there was either nothing to recover or a recovery path that ended with 0. -/
theorem clearError_zero {a : Ack} {s t : State} (ha : a ≠ .ok) (h : clearError a s = .ok (.ok, t)) :
    recoveryPath s = .ok (.ok, t) := by
  have hsoft : ∀ {x : Op Code}, x = pure .soft → x s ≠ .ok (.ok, t) := by
    rintro x rfl hx
    cases hx
  by_cases hp : a = .parityError
  · exact absurd h (hsoft (by rw [hp, clearError_parityError]))
  · by_cases hz : a = .protocolError 0b000#3
    · exact absurd h (hsoft (by rw [hz, clearError_protocolError, if_pos rfl]))
    · rwa [clearError_eq_recoveryPath ha hp hz] at h

/-! ## The cells of a write that was answered OK, at the end of the trace -/

/-- What was clocked since `s` ends with a write of `data` answered OK. -/
def EndsWithWrite (code : Byte) (data : Word) (s t : State) : Prop :=
  ∃ before x y, t.trace = s.trace ++ before ++ okWriteCells code data x y

theorem EndsWithWrite.after {code : Byte} {data : Word} {s t u : State} (h : s.trace <+: t.trace)
    (k : EndsWithWrite code data t u) : EndsWithWrite code data s u := by
  obtain ⟨pre, hpre⟩ := h
  obtain ⟨before, x, y, hu⟩ := k
  exact ⟨pre ++ before, x, y, by rw [hu, ← hpre, List.append_assoc s.trace]⟩

/-- An operation that ends with such a write whenever its result is `good` keeps doing so behind one that only appends to the
trace. -/
theorem ends_after {α β : Type} {code : Byte} {data : Word} {x : Op α} {f : α → Op β} {good : β → Prop} {s : State}
    (hx : Keeps Below x)
    (hf : ∀ a t, x s = .ok (a, t) → WireOnly s t → Ends (f a) t fun b u => good b → EndsWithWrite code data t u) :
    Ends (x >>= f) s fun b u => good b → EndsWithWrite code data s u := by
  intro b u hrun hgood
  obtain ⟨a, t, hat, hbu⟩ := op_bind_eq_ok.1 hrun
  have hwire := (hx s a t hat).above
  exact (hf a t hat hwire b u hbu hgood).after hwire.trace

/-- The five samples of a write answered OK: only the turnarounds are free. -/
theorem bits_of_ackOf_ok {bs : List Bool} (hl : bs.length = 5) (ha : ackOf bs = .ok) :
    ∃ x y, bs = [x, true, false, false, y] := by
  obtain ⟨x, a, b, c, y, rfl⟩ : ∃ x a b c y, bs = [x, a, b, c, y] := by
    match bs, hl with
    | [x, a, b, c, y], _ => exact ⟨x, a, b, c, y, rfl⟩
  have hack : ∀ a b c : Bool, ackOf [x, a, b, c, y] = .ok → a = true ∧ b = false ∧ c = false := by
    cases x <;> cases y <;> decide
  obtain ⟨rfl, rfl, rfl⟩ := hack a b c ha
  exact ⟨x, y, rfl⟩

theorem dataSent_trace (code : Byte) (data : Word) (s : State) (bs lv : List Bool) (dr : Nat) :
    (dataSent code data ((sampledState bs lv dr (requested code s)).setOe true)).trace =
      s.trace ++ (lsbBits 8 (code.setWidth 32)).map WireCell.driven ++ bs.map WireCell.sampled ++
        (lsbBits 32 data ++ [parity32 data]).map WireCell.driven := by
  simp [dataSent, sampledState, requested, outCells_eq]

theorem phaseOf_ne_read {code : Byte} (hw : isRead code = false) (a : Ack) : phaseOf code a ≠ .read := by
  cases a <;> simp [phaseOf, hw]

/-- A write ends with its data cell unchanged; answered OK, with the cells of an OK write. -/
theorem executeTransaction_write_ends {code : Byte} (hw : isRead code = false) (data : Word) (s : State) :
    Ends (executeTransaction code data) s fun r t => r.2 = data ∧ (r.1 = .ok → EndsWithWrite code data s t) := by
  intro r t hrun
  cases hc : isLegalCode code with
  | false => rw [executeTransaction, if_neg (by simp [hc])] at hrun; cases hrun
  | true =>
    cases ho : s.oe with
    | false => rw [executeTransaction_released data hc ho] at hrun; cases hrun
    | true =>
      obtain ⟨bs, lv, dr, -, hlen, hrun'⟩ := executeTransaction_eq data hc ho
      rw [hrun', answer_of_ne_read (phaseOf_ne_read hw _)] at hrun
      cases hrun
      refine ⟨rfl, fun hack => ?_⟩
      have hphase : phaseOf code (ackOf bs) = .write := by
        rw [show ackOf bs = .ok from hack, phaseOf, if_neg (by simp [hw])]
      rw [hphase] at hlen ⊢
      obtain ⟨x, y, rfl⟩ := bits_of_ackOf_ok hlen hack
      exact ⟨[], x, y, by rw [Phase.final, dataSent_trace, okWriteCells]; simp⟩

theorem retryLoop_write_ends {code : Byte} (hw : isRead code = false) (data : Word) (left : Nat) (s : State) :
    Ends (retryLoop code left (.wait, data)) s fun r t => r.1 = .ok → EndsWithWrite code data s t := by
  induction left generalizing s with
  | zero => exact (ends_pure _ _ _).2 fun h => by cases h
  | succ left ih =>
    intro r u hrun hok
    obtain ⟨⟨a, d⟩, t, hat, hru⟩ := op_bind_eq_ok.1 (show (executeTransaction code data >>= retryLoop code left) s =
      .ok (r, u) from hrun)
    obtain ⟨hd, hwrite⟩ := executeTransaction_write_ends hw data s _ _ hat
    cases show d = data from hd
    by_cases ha : a = .wait
    · subst ha
      exact (ih t r u hru hok).after (keeps_executeTransaction code data s _ _ hat).above.trace
    · rw [retryLoop_of_ne_wait code left ha] at hru
      cases hru
      exact hwrite hok

theorem withFullRetry_write_ends {code : Byte} (hw : isRead code = false) (data : Word) (s : State) :
    Ends (withFullRetry code data) s fun r t => r.1 = .ok → EndsWithWrite code data s t := by
  rw [withFullRetry, ends_bind, ends_get, executeTransactionWithRetry_eq]
  exact retryLoop_write_ends hw data _ s

/-! ## The CSW write at the end of a recovery (R230) -/

theorem recoveryPath_ends (s : State) :
    Ends recoveryPath s fun c t => c = .ok → EndsWithWrite codeWrCsw s.params.cswWord s t := by
  refine ends_after keeps_recoverLink fun _ t _ hst => ends_after (keeps_withFullRetry _ _) fun r u _ htu => ?_
  obtain ⟨a, d⟩ := r
  dsimp only
  split
  · rw [ends_bind, ends_get, ends_bind, htu.params, hst.params]
    refine (withFullRetry_write_ends (by decide) s.params.cswWord u).mono fun r v hwrite => ?_
    rw [ends_pure]
    intro hok
    exact hwrite (by by_contra hne; rw [if_neg hne] at hok; cases hok)
  · exact (ends_pure _ _ _).2 fun h => by cases h

/-- Settles O31. -/
theorem clearedErrorEndsWithCswWrite : Obligations.ClearedErrorEndsWithCswWrite := by
  intro a s t ha h
  exact recoveryPath_ends s _ t (clearError_zero ha h) rfl

/-- A wrapped write of `CSW_WORD` to CSW that returns 0 ends with the write itself or with a recovery that made it. -/
theorem wrapped_cswWord_ends {s : State} {w : Word} (hw : w = s.params.cswWord) :
    Ends (wrapped codeWrCsw w) s fun r t => r.1 = .ok → EndsWithWrite codeWrCsw s.params.cswWord s t := by
  subst hw
  intro r u hrun hok
  obtain ⟨⟨a, d⟩, t, hat, hru⟩ := op_bind_eq_ok.1 hrun
  dsimp only at hru
  by_cases ha : a = .ok
  · rw [if_pos ha] at hru
    cases hru
    exact withFullRetry_write_ends (by decide) _ s _ _ hat ha
  · rw [if_neg ha] at hru
    obtain ⟨e, v, hev, hru⟩ := op_bind_eq_ok.1 hru
    obtain ⟨_, v', hnote, hru⟩ := op_bind_eq_ok.1 hru
    cases hru
    have hst := (keeps_withFullRetry codeWrCsw s.params.cswWord s _ _ hat).above
    cases show e = .ok from hok
    have hcsw := recoveryPath_ends t _ v (clearError_zero ha hev) rfl
    rw [hst.params] at hcsw
    have hsame : u.trace = v.trace := by
      cases hnote
      rfl
    obtain ⟨before, x, y, htrace⟩ := hcsw.after hst.trace
    exact ⟨before, x, y, hsame.trans htrace⟩

/-- The restore of CSW that ends both 8-bit operations; the rest of the result goes into `g`. -/
theorem restore_ends {α : Type} {s u : State} (hsu : WireOnly s u) (e : Code) (g : Code → α) (code : α → Code)
    (hg : ∀ c, code (g c) = c) :
    Ends (do
        let (r, _) ← wrapped codeWrCsw s.params.cswWord
        pure (g (if e = .ok then r else e)) : Op α) u fun c v => code c = .ok →
      EndsWithWrite codeWrCsw s.params.cswWord u v := by
  have hcsw := wrapped_cswWord_ends (congrArg Params.cswWord hsu.params.symm)
  rw [hsu.params] at hcsw
  rw [ends_bind]
  refine hcsw.mono fun r v hwrite => (ends_pure _ _ _).2 fun hok => ?_
  rw [hg] at hok
  split at hok
  · exact hwrite hok
  · next hne => exact absurd hok hne

theorem writeMem8_ends (addr : Word) (buf : List Byte) (s : State) : Ends (writeMem8 addr buf) s fun c t =>
    c = .ok → EndsWithWrite codeWrCsw s.params.cswWord s t := by
  rw [writeMem8, ends_bind, ends_get]
  refine ends_after (keeps_wrapped _ _) fun r u _ hsu => ?_
  dsimp only
  split
  · exact ends_after (keeps_writeBytesLoop addr buf) fun e v _ huv => restore_ends (hsu.trans huv) e id id fun _ => rfl
  · exact ends_after (keepsBelow_pure _) fun e v _ huv => restore_ends (hsu.trans huv) e id id fun _ => rfl

theorem readMem8_ends (addr : Word) (len : Nat) (s : State) : Ends (readMem8 addr len) s fun c t =>
    c.1 = .ok → EndsWithWrite codeWrCsw s.params.cswWord s t := by
  rw [readMem8, ends_bind, ends_get]
  refine ends_after (keeps_wrapped _ _) fun r u _ hsu => ?_
  dsimp only
  split
  · exact ends_after (keeps_readBytesLoop s.cleared addr len) fun e v _ huv =>
      restore_ends (hsu.trans huv) e.1 (fun c => (c, e.2)) Prod.fst fun _ => rfl
  · exact ends_after (keepsBelow_bind (keeps_drawBytes len) fun _ => keepsBelow_pure _) fun e v _ huv =>
      restore_ends (hsu.trans huv) e.1 (fun c => (c, e.2)) Prod.fst fun _ => rfl

/-- Settles O40: the restore is the last transaction of both operations. -/
theorem byteOperationsRestoreCsw : Obligations.ByteOperationsRestoreCsw := fun addr buf len s t =>
  ⟨fun hrun => writeMem8_ends addr buf s _ t hrun rfl, fun _ hrun => readMem8_ends addr len s _ t hrun rfl⟩

end Sys2Proof.Proofs

/-! PROOF. The recovery path against the reference target (42_error_recovery R226-R230, R233; 10_state R67, R68). -/

namespace Sys2Proof.Proofs

open Sys2Proof Sys2Proof.Machine Sys2Proof.Laws

/-! ## Transactions with the retry budget that are answered at once -/

theorem withFullRetry_of_ne_wait {code : Byte} {data w : Word} {a : Ack} {s t : State} (ha : a ≠ .wait)
    (h : executeTransaction code data s = .ok ((a, w), t)) : withFullRetry code data s = .ok ((a, w), t) := by
  show executeTransactionWithRetry code data s.params.nRetry s = _
  rw [executeTransactionWithRetry_eq, retryLoop_wait_succ h, retryLoop_of_ne_wait code _ ha]
  rfl

theorem retried_write {code : Byte} (data : Word) {s : State} (hc : isLegalCode code = true) (ho : s.oe = true)
    (hw : isRead code = false) (h : AnswersOk s.target code) :
    Runs (withFullRetry code data) s fun r t => r = (.ok, data) ∧ (∃ n, t.target = wrote n code data s.target) ∧
      t.oe = true ∧ WireOnly s t := by
  obtain ⟨r, t, hrun, rfl, htarget, hoe, hwire⟩ := ok_write data hc ho hw h
  exact ⟨_, t, withFullRetry_of_ok hrun, rfl, htarget, hoe, hwire⟩

theorem retried_read {code : Byte} (data : Word) {s : State} (hc : isLegalCode code = true) (ho : s.oe = true)
    (hr : isRead code = true) (h : AnswersOk s.target code) :
    Runs (withFullRetry code data) s fun r t => r.1 = .ok ∧ t.target = wasRead s.draws code s.target ∧
      t.oe = true ∧ WireOnly s t := by
  obtain ⟨r, t, hrun, rfl, htarget, hoe, hwire⟩ := ok_read data hc ho hr h
  exact ⟨_, t, withFullRetry_of_ok hrun, rfl, htarget, hoe, hwire⟩

/-! ## The three steps (R226-R229) -/

/-- A CTRL/STAT read in any DP bank leaves the target alone when no power-up delay runs. -/
theorem wasRead_ctrlStat_idle {t : Target} (h : t.pwrLeft = none) (n : Nat) : wasRead n codeRdCtrlstat t = t.settled := by
  rw [wasRead_of_ne (by decide), Target.performRead, if_neg (by decide), if_neg (by decide), if_neg (by decide)]
  split
  · rw [readCtrlStat_idle (by exact h)]; rfl
  · rfl

/-- The reference target, able to recover: it listens, its AP is idle, no power-up delay runs, SELECT names bank 0. -/
structure Recoverable (t : Target) : Prop where
  listening : t.Listening
  idle      : t.busy = 0
  powered   : t.pwrLeft = none
  ap        : apSel t.select = 0
  bank      : apBankSel t.select = 0

theorem Recoverable.settled {t : Target} (h : Recoverable t) : Recoverable t.settled :=
  ⟨⟨h.listening.attached, h.listening.protocol, h.listening.inSync, h.listening.answers⟩, h.idle, h.powered, h.ap, h.bank⟩

theorem recoverLink_reference {s : State} (ho : s.oe = true) (h : Recoverable s.target) :
    Runs recoverLink s fun _ t => t.target = s.target.settled ∧ t.oe = true ∧ WireOnly s t := by
  refine runs_bind_of_ok (t := s.setDraws (s.draws + 1)) rfl (Runs.bind (retried_read _ legal_rdCtrlstat ho (by decide)
    (listening_answersOk h.listening (by decide))) ?_)
  rintro ⟨a, d⟩ t ⟨hok, htarget, hoe, hwire⟩
  cases show a = .ok from hok
  dsimp only
  rw [if_pos rfl, runs_pure]
  exact ⟨htarget.trans (wasRead_ctrlStat_idle (by exact h.powered) _), hoe, (wireOnly_setDraws _ s).trans hwire⟩

/-- Clearing all four sticky flags (R140, R229). -/
theorem clearSticky_all (c : Word) : clearSticky c abortClearAll = c &&& 0xFFFFFF4D#32 := by
  rw [clearSticky, show ~~~ abortClears abortClearAll = 0xFFFFFF4D#32 by decide]

theorem stickySet_cleared (c : Word) : stickySet (c &&& 0xFFFFFF4D#32) = false := by
  rw [stickySet, BitVec.and_assoc, show (0xFFFFFF4D#32 &&& stickyMask) = 0 by decide]
  simp

/-- The target after the recovery path. -/
def recovered (cswWord : Word) (t : Target) : Target :=
  { t.settled with ctrlStat := t.ctrlStat &&& 0xFFFFFF4D#32, csw := writeCsw t.csw cswWord }

theorem wrote_abortClearAll (n : Nat) (t : Target) : wrote n codeWrAbort abortClearAll t =
    { t.settled with ctrlStat := t.ctrlStat &&& 0xFFFFFF4D#32 } := by
  rw [wrote_abort, clearSticky_all, if_neg (by decide)]
  rfl

theorem Recoverable.cleared {t : Target} (h : Recoverable t) :
    Target.Bank0 { t.settled with ctrlStat := t.ctrlStat &&& 0xFFFFFF4D#32 } :=
  ⟨⟨h.listening.attached, h.listening.protocol, h.listening.inSync, h.listening.answers, stickySet_cleared _, h.idle⟩,
    h.ap, h.bank⟩

theorem recoveryPath_reference {s : State} (ho : s.oe = true) (h : Recoverable s.target) :
    Runs recoveryPath s fun c t => c = .ok ∧ t.target = recovered s.params.cswWord s.target ∧ t.oe = true ∧
      WireOnly s t := by
  refine Runs.bind (recoverLink_reference ho h) ?_
  rintro _ t ⟨htarget, hoe, hst⟩
  have ht : Recoverable t.target := htarget ▸ h.settled
  refine Runs.bind (retried_write _ legal_wrAbort hoe (by decide) (listening_answersOk ht.listening (by decide))) ?_
  rintro _ u ⟨rfl, ⟨n, hu⟩, hoe, htu⟩
  rw [wrote_abortClearAll] at hu
  have hb : u.target.Bank0 := hu ▸ ht.cleared
  dsimp only
  rw [if_pos rfl, runs_bind, runs_get]
  refine Runs.bind (retried_write _ legal_wrCsw hoe (by decide) (ready_answersOk hb.ready _)) ?_
  rintro _ v ⟨rfl, ⟨m, hv⟩, hoe, huv⟩
  rw [wrote_csw hb, hu, htarget, htu.params, hst.params] at hv
  exact ⟨.ok, v, rfl, rfl, hv, hoe, (hst.trans htu).trans huv⟩

/-- Settles O32: the three steps are answered OK, and the second clears every flag that could block the third. -/
theorem recoveryClearsTheReferenceTarget : Obligations.RecoveryClearsTheReferenceTarget := by
  intro a s ho hok hp hz hl hbusy hpwr hap hbank
  obtain ⟨_, t, hrun, rfl, htarget, hoe, hwire⟩ := recoveryPath_reference ho ⟨hl, hbusy, hpwr, hap, hbank⟩
  rw [clearError_eq_recoveryPath hok hp hz]
  refine ⟨t, hrun, hoe, hwire, htarget, ?_⟩
  rw [htarget]
  exact stickySet_cleared _

/-! ## Success without effect (R233) -/

theorem onRequest_injectedFault {t : Target} {code : Byte} (hat : t.attached = true) (han : t.answers = [.fault])
    (hne : code ≠ codeRdIdcode) (hw : isRead code = false) (n : Nat) : t.onRequest n code =
      { t with accepting := false, answers := [], ctrlStat := t.ctrlStat ||| stickyErrMask, drive := ackLevels 0b100 } := by
  rw [Target.onRequest, if_pos hat]
  split
  case h_1 hnone => rw [han] at hnone; cases hnone
  case h_2 a rest hsome =>
    obtain ⟨rfl, rfl⟩ : Answer.fault = a ∧ [] = rest := List.cons.inj (han.symm.trans hsome)
    rw [Target.answerInjected, if_neg hne]
    dsimp only
    rw [noteRead_failed, Target.afterFailed, if_neg (by simp [hw])]
    rfl

/-- Settles O33: the FAULT performs nothing, and the recovery that follows does not touch TAR. -/
theorem clearedFaultReportsSuccess : Obligations.ClearedFaultReportsSuccess := by
  intro a s ho hat hproto hsync han hbusy hpwr hap hbank
  have hanswer := onRequest_injectedFault (code := codeWrTar) hat han (by decide) (by decide) s.draws
  obtain ⟨_, t, hrun, rfl, htarget, hoe, hst⟩ :=
    transaction_blocked a legal_wrTar ho (raw := 0b100) (.inr (by decide)) (by rw [hanswer])
  rw [hanswer] at htarget
  have hfault := withFullRetry_of_ne_wait (by decide) hrun
  have hrec : Recoverable t.target := by
    rw [htarget]
    exact ⟨⟨hat, hproto, hsync, rfl⟩, hbusy, hpwr, hap, hbank⟩
  obtain ⟨_, u, hrecover, rfl, hu, hoe, htu⟩ := recoveryPath_reference hoe hrec
  refine ⟨u.setCleared (u.cleared + 1), ?_, hoe, (hst.trans htu).trans (wireOnly_setCleared _ u), ?_, ?_, ?_⟩
  · rw [wrapped, op_bind_ok hfault]
    exact op_bind_ok (by exact hrecover) _
  all_goals
    rw [setCleared_target, hu, htarget, hst.params]
    rfl

end Sys2Proof.Proofs

/-! PROOF. Sessions and host commands (45_session R311-R316; 46_host_adapter R330-R344; 70_reset R391): `close`, the latch of
a sub-chunk, and what a packet decodes to and does. -/

namespace Sys2Proof.Proofs

open Sys2Proof Sys2Proof.Machine Sys2Proof.Laws

/-! ## close (45_session R316) -/

theorem sends_sendSwdToJtag : Sends sendSwdToJtag fun _ => lsbBits 16 (swdToJtagValue.setWidth 32) :=
  sends_of_outCells fun _ ho => ⟨_, _, sendSwdToJtag_eq ho⟩

theorem swdDisconnectSequence_runs (s : State) : Runs swdDisconnectSequence s fun _ t =>
    t.oe = false ∧ WireOnly s t ∧ t.trace = s.trace ++ switchCells s.params swdToJtagValue := by
  have hline : Sends (do lineResetRun; sendSwdToJtag; lineResetRun) fun p =>
      List.replicate p.lrOnes true ++ (lsbBits 16 (swdToJtagValue.setWidth 32) ++ List.replicate p.lrOnes true) :=
    sends_lineResetRun.bind fun _ => sends_sendSwdToJtag.bind fun _ => sends_lineResetRun
  obtain ⟨_, t, hrun, -, hwire, htrace⟩ := hline (s.setOe true) rfl
  have hsplit : swdDisconnectSequence s =
      ((do lineResetRun; sendSwdToJtag; lineResetRun) >>= fun _ => setDataLineInput) (s.setOe true) := by
    rw [swdDisconnectSequence, op_bind_ok (op_setDataLineOutput s)]
    simp only [bind_assoc]
  refine ⟨(), t.setOe false, ?_, rfl, ((wireOnly_setOe true s).trans hwire).trans (wireOnly_setOe false t), ?_⟩
  · rw [hsplit, op_bind_ok hrun, op_setDataLineInput]
  · rw [setOe_trace, htrace, switchCells, List.append_assoc]
    rfl

/-- Settles O48: both transactions end whatever the target does, and the sequence they are followed by releases the line. -/
theorem closeReleasesTheLine : Obligations.CloseReleasesTheLine := by
  intro s ho
  obtain ⟨_, u, hword, -, hu, hoe⟩ := works_writeWord (addr := addrDhcsr) dhcsrDebugRelease (by decide) (s.setCoreId 0) ho
  obtain ⟨_, v, hdown, -, hv, -⟩ := works_wrapped ctrlPwrdn legal_wrCtrlstat u hoe
  obtain ⟨_, w, hseq, hoe, hw, htrace⟩ := swdDisconnectSequence_runs v
  have hrun : closeSession s = .ok ((), w.setSession .closed) := by
    rw [closeSession, op_bind_ok (op_modify _ s), op_bind_ok hword, op_bind_ok hdown, op_bind_ok hseq]
    rfl
  have hwire := (hu.trans hv).trans hw
  obtain ⟨before, hbefore⟩ := (hu.trans hv).trace
  refine ⟨_, before, hrun, hoe, { hwire with session := rfl }, ?_⟩
  have hparams : v.params = s.params := (hu.trans hv).params
  rw [setSession_trace, htrace, hparams, ← hbefore]
  rfl

/-! ## The latch (46_host_adapter R334-R336) -/

/-- The state in which a sub-chunk hands its result over: the latch as the code says, a read's bytes sent (R336). -/
def handed (kind : RangeKind) (e : Code) (bytes : List Byte) (u : State) : State := { u with
  lastStatus := if e = .ok then .ok else .fault
  sent := if kind.isWrite then u.sent else u.sent ++ [bytes] }

theorem subChunk_eq {kind : RangeKind} {a : Word} {n : Nat} {s u : State} {e : Code} {bytes : List Byte}
    (h : layerOp kind a n s = .ok ((e, bytes), u)) : subChunk kind a n s =
      (if e = .ok then pure true else do let _ ← openSession; pure false : Op Bool) (handed kind e bytes u) := by
  rw [subChunk, op_bind_ok h]
  cases kind <;> rfl

theorem subChunk_ok {kind : RangeKind} {a : Word} {n : Nat} {s u : State} {bytes : List Byte}
    (h : layerOp kind a n s = .ok ((.ok, bytes), u)) : subChunk kind a n s = .ok (true, handed kind .ok bytes u) := by
  rw [subChunk_eq h, if_pos rfl]
  rfl

theorem subChunk_failed {kind : RangeKind} {a : Word} {n : Nat} {s u t : State} {e c : Code} {bytes : List Byte}
    (he : e ≠ .ok) (h : layerOp kind a n s = .ok ((e, bytes), u))
    (hopen : openSession (handed kind e bytes u) = .ok (c, t)) : subChunk kind a n s = .ok (false, t) := by
  rw [subChunk_eq h, if_neg he, op_bind_ok hopen]
  rfl

/-- Settles O51: the code of the layer decides whether the sub-chunk ends where it handed its result over or where `open`
ends. -/
theorem latchFollowsTheSubChunk : Obligations.LatchFollowsTheSubChunk := by
  intro kind a n s u e bytes h
  by_cases he : e = .ok
  · subst he
    exact ⟨_, subChunk_ok h, rfl, rfl, fun _ => rfl, fun hne => absurd rfl hne⟩
  · obtain ⟨c, t, hopen, hoe, id, hbelow⟩ := openSession_runs (handed kind e bytes u)
    have habove := hbelow.above
    have hsession : t.session = .opened ∨ t.session = .closed := by
      have hs : t.session = if c = .ok then .opened else .closed := habove.session
      rw [hs]
      split
      · exact .inl rfl
      · exact .inr rfl
    have hfault : handed kind e bytes u = { u with lastStatus := .fault, sent := t.sent } := by
      rw [habove.sent, handed, if_neg he]
      rfl
    refine ⟨t, ?_, habove.lastStatus, habove.sent, fun hok => absurd hok he, fun _ =>
      ⟨⟨c, by rw [← hfault]; exact hopen⟩, hoe, hsession, habove.mode, habove.params, habove.inbox, habove.hostData,
        habove.trace⟩⟩
    rw [subChunk_failed he h hopen, decide_eq_false he]

/-! ## One step (46_host_adapter R344; 70_reset R391) -/

theorem step_of_decode {s : State} {r : Request} {rest : List Request} {d : Decoded} (hin : s.inbox = r :: rest)
    (hd : s.decodeRequest r = .ok d) : step s = runDecoded d (s.setInbox rest) := by
  rw [step, hin]
  dsimp only
  rw [hd]

/-- Settles O56. -/
theorem stepRunsTheDecodedInstruction : Obligations.StepRunsTheDecodedInstruction := by
  intro s
  constructor
  · intro hin
    rw [step, hin]
  · intro r rest i hin hd _
    exact step_of_decode hin hd

/-! ## Packets (46_host_adapter R331-R333) -/

theorem decodeRequest_packet {s : State} {pkt : List Byte} (hlen : pkt.length = 16) (hg : pkt.getD 0 0 = 0xF2) :
    s.decodeRequest (.packet pkt) = .ok (decodeDebug s.params.codes pkt) := by
  show decodePacket s.params.codes pkt = _
  rw [decodePacket, if_pos (by exact hlen)]
  exact if_pos hg

/-- The sub-command bytes are distinct, so a packet of one of them passes by the ones the decoder looks at before (R332). -/
theorem decodeDebug_enterSwd {codes : CmdCodes} {pkt : List Byte} (hwf : codes.wf) (h : pkt.getD 1 0 = codes.enterSwd) :
    decodeDebug codes pkt = .command .enterSwd := by
  have hne := hwf.2
  simp only [List.nodup_cons, List.mem_cons, not_or] at hne
  grind [decodeDebug, subReadMem32]

theorem decodeDebug_readCoreId {codes : CmdCodes} {pkt : List Byte} (hwf : codes.wf)
    (h : pkt.getD 1 0 = codes.readCoreId) : decodeDebug codes pkt = .command .readCoreId := by
  have hne := hwf.2
  simp only [List.nodup_cons, List.mem_cons, not_or] at hne
  grind [decodeDebug, subReadMem32]

theorem decodeDebug_getLastRwStatus {codes : CmdCodes} {pkt : List Byte} (hwf : codes.wf)
    (h : pkt.getD 1 0 = codes.getLastRwStatus) : decodeDebug codes pkt = .command .getLastRwStatus := by
  have hne := hwf.2
  simp only [List.nodup_cons, List.mem_cons, not_or] at hne
  grind [decodeDebug, subReadMem32]

theorem decodeDebug_unsupported {codes : CmdCodes} {pkt : List Byte}
    (h : pkt.getD 1 0 ∉ [0x07, codes.writeMem32, codes.readMem8, codes.writeMem8, codes.enterSwd, codes.exitDebug,
      codes.readCoreId, codes.readReg, codes.writeReg, codes.readAllRegs, codes.getLastRwStatus]) :
    decodeDebug codes pkt = .command .unsupported := by
  simp only [List.mem_cons, List.not_mem_nil, or_false, not_or] at h
  obtain ⟨h0, h1, h2, h3, h4, h5, h6, h7, h8, h9, h10⟩ := h
  rw [decodeDebug, if_neg (by exact h0), if_neg h1, if_neg h2, if_neg h3, if_neg h4, if_neg h5, if_neg h6, if_neg h7, if_neg h8,
    if_neg h9, if_neg h10]

theorem decodePacket_unsupported {codes : CmdCodes} {pkt : List Byte} (hlen : pkt.length = 16)
    (h : pkt.getD 0 0 ∉ [0xF2, codes.getVersion, codes.dfu, codes.getMode, codes.getTargetVoltage]) :
    decodePacket codes pkt = .ok (.command .unsupported) := by
  simp only [List.mem_cons, List.not_mem_nil, or_false, not_or] at h
  obtain ⟨h0, h1, h2, h3, h4⟩ := h
  rw [decodePacket, if_pos (by exact hlen)]
  dsimp only
  rw [if_neg (by exact h0), if_neg h1, if_neg h2, if_neg h3, if_neg h4]

theorem runDecoded_command {c : Command} {s t : State} {r : Int} (h : runCommand c s = .ok (r, t)) :
    runDecoded (.command c) s = .next (t.setResult (.host r)) := by
  rw [runDecoded, Op.outcome, op_bind_ok h]
  rfl

theorem statusBytes_eq (p : Params) (ok : Bool) :
    statusBytes p ok = halfBytes (if ok = true then p.statusOk else p.statusFault) := rfl

/-- Settles O52: both kinds decode to the one unsupported command. -/
theorem unsupportedPacket : Obligations.UnsupportedPacket := by
  intro s pkt rest hin hlen h
  have hd : s.decodeRequest (.packet pkt) = .ok (.command .unsupported) := by
    obtain h | ⟨hg, h⟩ := h
    · exact decodePacket_unsupported hlen h
    · rw [decodeRequest_packet hlen hg, decodeDebug_unsupported h]
  rw [step_of_decode hin hd]
  rfl

/-- Settles O53. -/
theorem statusCommands : Obligations.StatusCommands := by
  intro s pkt rest hin hlen hwf hg
  have hd := decodeRequest_packet (s := s) hlen hg
  constructor
  · intro h
    rw [decodeDebug_readCoreId hwf h] at hd
    rw [step_of_decode hin hd]
    rfl
  · intro h
    rw [decodeDebug_getLastRwStatus hwf h] at hd
    rw [step_of_decode hin hd]
    rw [runDecoded_command (t := (s.setInbox rest).transmit (statusBytes s.params (s.lastStatus == .ok))) rfl,
      statusBytes_eq]
    simp only [beq_iff_eq]
    rfl

/-- Settles O54: what `open` ends with decides the status. -/
theorem enterSwdCommand : Obligations.EnterSwdCommand := by
  intro s pkt rest hin hlen hwf hg h
  have hd := decodeRequest_packet (s := s) hlen hg
  rw [decodeDebug_enterSwd hwf h] at hd
  obtain ⟨c, t, hopen, hoe, id, hbelow⟩ := openSession_runs ((s.setInbox rest).setMode .debugSwd)
  have habove := hbelow.above
  have hrun : step s = .next ((t.transmit (statusBytes t.params (c == .ok))).setResult (.host 0)) := by
    rw [step_of_decode hin hd]
    refine runDecoded_command ?_
    rw [runCommand, op_bind_ok (op_modify _ _), op_bind_ok hopen]
    rfl
  refine ⟨_, hrun, hoe, habove.mode, rfl, habove.inbox, ?_, habove.lastStatus, habove.params, habove.hostData⟩
  have hsent : t.sent = s.sent := habove.sent
  have hparams : t.params = s.params := habove.params
  have hsession : t.session = if c = .ok then .opened else .closed := habove.session
  by_cases hc : c = .ok
  · subst hc
    exact .inl ⟨hsession, by rw [setResult_sent, State.transmit, hsent, hparams]; rfl⟩
  · rw [if_neg hc] at hsession
    refine .inr ⟨hsession, ?_⟩
    rw [setResult_sent, State.transmit, hsent, hparams, beq_false_of_ne hc]
    rfl

end Sys2Proof.Proofs

/-! PROOF. Preconditions of the word operations, and the host read against an arbitrary target (43_memory_access R250;
20_memory R94; 46_host_adapter R334-R338): each sub-chunk ends with the line driven and hands over one buffer, whatever
failed and was reopened on the way. -/

namespace Sys2Proof.Proofs

open Sys2Proof Sys2Proof.Machine Sys2Proof.Laws

/-! ## Alignment (43_memory_access R250) -/

theorem wordAligned_iff {addr : Word} {len : Nat} : wordAligned addr len = true ↔ addr.toNat % 4 = 0 ∧ len % 4 = 0 := by
  simp [wordAligned]

theorem toNat_add_mod4 (a : Word) (c : Nat) : (a + BitVec.ofNat 32 c).toNat % 4 = (a.toNat + c) % 4 := by
  rw [BitVec.toNat_add, BitVec.toNat_ofNat]
  omega

theorem withinPage_iff {addr : Word} {len : Nat} : withinPage addr len = true ↔ addr.toNat % 1024 + len ≤ 1024 := by
  exact decide_eq_true_iff

theorem checkAligned_error {addr : Word} {len : Nat} (h : addr.toNat % 4 ≠ 0 ∨ len % 4 ≠ 0) (s : State) :
    checkAligned addr len s = .error .misalignedWordAccess := by
  rw [checkAligned, if_neg (by rw [wordAligned_iff]; omega)]
  rfl

theorem checkPage_error {addr : Word} {len : Nat} (h : 1024 < addr.toNat % 1024 + len) (s : State) :
    checkPage addr len s = .error .chunkCrossesPage := by
  rw [checkPage, if_neg (by rw [withinPage_iff]; omega)]
  rfl

/-! ## What a host read keeps and hands over (46_host_adapter R334-R336, R339) -/

/-- Buffers were handed to the host; of the core's state above the wire only the latch, the session and `coreId` may have
changed beside them. -/
structure HandedOver (bufs : List (List Byte)) (s t : State) : Prop where
  oe       : t.oe = true
  sent     : t.sent = s.sent ++ bufs
  params   : t.params = s.params
  mode     : t.mode = s.mode
  data     : t.data = s.data
  inbox    : t.inbox = s.inbox
  hostData : t.hostData = s.hostData
  trace    : s.trace <+: t.trace

theorem HandedOver.trans {a b : List (List Byte)} {s t u : State} (h : HandedOver a s t) (k : HandedOver b t u) :
    HandedOver (a ++ b) s u where
  oe := k.oe
  sent := by rw [k.sent, h.sent, List.append_assoc]
  params := k.params.trans h.params
  mode := k.mode.trans h.mode
  data := k.data.trans h.data
  inbox := k.inbox.trans h.inbox
  hostData := k.hostData.trans h.hostData
  trace := h.trace.trans k.trace

theorem handedOver_handed {e : Code} {bytes : List Byte} {s u : State} (h : WireOnly s u) (ho : u.oe = true) :
    HandedOver [bytes] s (handed .r32 e bytes u) where
  oe := ho
  sent := congrArg (· ++ [bytes]) h.sent
  params := h.params
  mode := h.mode
  data := h.data
  inbox := h.inbox
  hostData := h.hostData
  trace := h.trace

/-- A sub-chunk of an aligned read ends and hands over one buffer, whatever the target does: when the layer failed, `open`
ends too. -/
theorem subChunk_read_runs {a : Word} {n : Nat} {s : State} (ho : s.oe = true) (ha : wordAligned a n = true) :
    Runs (subChunk .r32 a n) s fun _ t => ∃ bytes, bytes.length = n ∧ HandedOver [bytes] s t := by
  obtain ⟨⟨e, bytes⟩, u, hread, hlen, hwire, hoe⟩ := works_readMem32 ha s ho
  have hhanded := handedOver_handed (e := e) (bytes := bytes) hwire hoe
  by_cases he : e = .ok
  · subst he
    exact ⟨true, _, subChunk_ok hread, bytes, hlen, hhanded⟩
  · obtain ⟨c, t, hopen, hoe, id, hbelow⟩ := openSession_runs (handed .r32 e bytes u)
    have habove := hbelow.above
    have hreopened : HandedOver [] (handed .r32 e bytes u) t :=
      ⟨hoe, habove.sent.trans (List.append_nil _).symm, habove.params, habove.mode, habove.data, habove.inbox,
        habove.hostData, habove.trace⟩
    exact ⟨false, t, subChunk_failed he hread hopen, bytes, hlen, hhanded.trans hreopened⟩

/-! ## Preconditions of the host read (46_host_adapter R334) -/

/-- A read whose length is no multiple of 4 ends at its last sub-chunk, behind sub-chunks of whole buffers. -/
theorem memRangeLoop_misaligned (fuel : Nat) {a : Word} {remaining : Nat} (allOk : Bool) {s : State} (ho : s.oe = true)
    (ha : a.toNat % 4 = 0) (hr : remaining % 4 ≠ 0) (hf : remaining ≤ fuel) (hpos : 0 < s.params.xferBuf)
    (hx : s.params.xferBuf % 4 = 0) : memRangeLoop .r32 fuel a remaining allOk s = .error .misalignedWordAccess := by
  induction fuel generalizing a remaining allOk s with
  | zero => omega
  | succ fuel ih =>
    rw [memRangeLoop_of_pos _ _ _ (by omega)]
    by_cases hlast : remaining ≤ s.params.xferBuf
    · rw [Nat.min_eq_left hlast]
      have hread : readMem32 a remaining s = .error .misalignedWordAccess :=
        op_bind_error (checkAligned_error (.inr hr) s) _
      exact op_bind_error (op_bind_error hread _) _
    · rw [Nat.min_eq_right (by omega)]
      obtain ⟨good, t, hsub, bytes, -, hkeep⟩ := subChunk_read_runs ho (wordAligned_iff.2 ⟨ha, hx⟩)
      rw [op_bind_ok hsub]
      exact ih (allOk && good) hkeep.oe (by rw [toNat_add_mod4]; omega) (by omega) (by omega)
        (by rw [hkeep.params]; exact hpos) (by rw [hkeep.params]; exact hx)

/-- Settles O36: each operation begins with its checks, and the host read comes to them at its first or its last
sub-chunk. -/
theorem wordOperationPreconditions : Obligations.WordOperationPreconditions := by
  intro addr v len buf s
  refine ⟨fun h => ?readAligned, fun h => ?writeAligned, fun h => ?single, fun ha hl hp => ?readPage,
    fun ha hl hp => ?writePage, fun ha => ?empty, fun n ha hn hx => ?hostAddr, fun n ha hn hpos hx ho => ?hostLen⟩
  case readAligned => exact ⟨op_bind_error (checkAligned_error h s) _, op_bind_error (checkAligned_error h s) _⟩
  case writeAligned => exact ⟨op_bind_error (checkAligned_error h s) _, op_bind_error (checkAligned_error h s) _⟩
  case single =>
    exact ⟨op_bind_error (checkAligned_error (.inl h) s) _,
      op_bind_error (op_bind_error (checkAligned_error (.inl h) s) _) _⟩
  case readPage =>
    rw [readWord32Chunk, op_bind_ok (checkAligned_ok (wordAligned_iff.2 ⟨ha, hl⟩) s)]
    exact op_bind_error (checkPage_error hp s) _
  case writePage =>
    rw [writeWord32Chunk, op_bind_ok (checkAligned_ok (wordAligned_iff.2 ⟨ha, hl⟩) s)]
    exact op_bind_error (checkPage_error hp s) _
  case empty =>
    have haligned := checkAligned_ok (wordAligned_iff.2 ⟨ha, Nat.zero_mod 4⟩) s
    have hpage := checkPage_ok (withinPage_iff.2 (show addr.toNat % 1024 + 0 ≤ 1024 by omega)) s
    refine ⟨op_bind_ok haligned _, op_bind_ok haligned _, ?_, ?_⟩
    · rw [readWord32Chunk, op_bind_ok haligned, op_bind_ok hpage, if_pos rfl]
      rfl
    · rw [writeWord32Chunk]
      exact (op_bind_ok haligned _).trans (op_bind_ok hpage _)
  case hostAddr => exact exec_hostRead_of_error hn (op_bind_error (checkAligned_error (.inl ha) s) _)
  case hostLen =>
    have hloop := memRangeLoop_misaligned n.toNat true ho ha hn le_rfl hpos hx
    exact outcome_of_error (op_bind_error (op_bind_error hloop _) _)

/-! ## The host read against any target (46_host_adapter R334-R338) -/

/-- The buffers of a memory-range read of `n` bytes: none empty, none above `size`, all but the last of `size` (R334). -/
structure Buffers (size n : Nat) (bufs : List (List Byte)) : Prop where
  total : bufs.flatten.length = n
  sizes : ∀ b ∈ bufs, 0 < b.length ∧ b.length ≤ size
  full  : ∀ b ∈ bufs.dropLast, b.length = size

theorem buffers_nil (size : Nat) : Buffers size 0 [] := ⟨rfl, by simp, by simp⟩

theorem Buffers.eq_nil {size : Nat} {bufs : List (List Byte)} (h : Buffers size 0 bufs) : bufs = [] := by
  cases bufs with
  | nil => rfl
  | cons b bufs =>
    have hb := (h.sizes b List.mem_cons_self).1
    have htotal := h.total
    simp only [List.flatten_cons, List.length_append] at htotal
    omega

theorem buffers_cons {size n : Nat} {b : List Byte} {bufs : List (List Byte)} (hsize : 0 < size) (hn : 0 < n)
    (hb : b.length = min n size) (h : Buffers size (n - min n size) bufs) : Buffers size n (b :: bufs) where
  total := by
    rw [List.flatten_cons, List.length_append, h.total, hb]
    omega
  sizes := by
    intro c hc
    obtain rfl | hc := List.mem_cons.1 hc
    · omega
    · exact h.sizes c hc
  full := by
    by_cases hlast : n ≤ size
    · have hnone : n - min n size = 0 := by omega
      rw [hnone] at h
      rw [h.eq_nil]
      simp
    · have hne : bufs ≠ [] := by
        rintro rfl
        have htotal := h.total
        simp only [List.flatten_nil, List.length_nil] at htotal
        omega
      rw [List.dropLast_cons_of_ne_nil hne]
      intro c hc
      obtain rfl | hc := List.mem_cons.1 hc
      · omega
      · exact h.full c hc

theorem memRangeLoop_zero (kind : RangeKind) (fuel : Nat) (a : Word) (allOk : Bool) (s : State) :
    memRangeLoop kind fuel a 0 allOk s = .ok (allOk, s) := by
  cases fuel with
  | zero => rfl
  | succ fuel => rw [memRangeLoop, if_pos rfl, op_pure]

theorem memRangeLoop_read_runs (fuel : Nat) {a : Word} {remaining : Nat} (allOk : Bool) {s : State} (ho : s.oe = true)
    (ha : wordAligned a remaining = true) (hf : remaining ≤ fuel) (hpos : 0 < s.params.xferBuf)
    (hx : s.params.xferBuf % 4 = 0) : Runs (memRangeLoop .r32 fuel a remaining allOk) s fun _ t =>
      ∃ bufs, HandedOver bufs s t ∧ Buffers s.params.xferBuf remaining bufs := by
  induction fuel generalizing a remaining allOk s with
  | zero =>
    obtain rfl : remaining = 0 := by omega
    exact ⟨allOk, s, rfl, [], ⟨ho, by simp, rfl, rfl, rfl, rfl, rfl, List.prefix_rfl⟩, buffers_nil _⟩
  | succ fuel ih =>
    obtain ⟨ha4, hr4⟩ := wordAligned_iff.1 ha
    by_cases hzero : remaining = 0
    · subst hzero
      exact ⟨allOk, s, memRangeLoop_zero _ _ _ _ _, [], ⟨ho, by simp, rfl, rfl, rfl, rfl, rfl, List.prefix_rfl⟩,
        buffers_nil _⟩
    · have hmin : min remaining s.params.xferBuf % 4 = 0 := by omega
      obtain ⟨good, t, hsub, bytes, hlen, hkeep⟩ := subChunk_read_runs ho (wordAligned_iff.2 ⟨ha4, hmin⟩)
      have hnext : wordAligned (a + BitVec.ofNat 32 (min remaining s.params.xferBuf))
          (remaining - min remaining s.params.xferBuf) = true := by
        rw [wordAligned_iff, toNat_add_mod4]
        omega
      obtain ⟨all, u, hloop, bufs, hrest, hbufs⟩ := ih (allOk && good) hkeep.oe hnext (by omega)
        (by rw [hkeep.params]; exact hpos) (by rw [hkeep.params]; exact hx)
      rw [hkeep.params] at hbufs
      refine ⟨all, u, ?_, bytes :: bufs, hkeep.trans hrest, buffers_cons hpos (by omega) hlen hbufs⟩
      rw [memRangeLoop_of_pos _ _ _ hzero, op_bind_ok hsub, hloop]

/-- A host read ends where its loop ends, with internal result 0 (R338). -/
theorem exec_hostRead_of_loop {addr : Word} {len : BitVec 16} {s t : State} {all : Bool}
    (h : memRangeLoop .r32 len.toNat addr len.toNat true s = .ok (all, t)) :
    exec (.hostReadMem32 addr len) s = .next (t.setResult (.host 0)) := by
  have hrange : memRange .r32 addr len.toNat s = .ok ((), t) := by
    rw [memRange, op_bind_ok h]
    rfl
  show Op.outcome _ s = _
  rw [Op.outcome, op_bind_ok hrange]
  rfl

/-- Settles O49. -/
theorem hostReadAlwaysEnds : Obligations.HostReadAlwaysEnds := by
  intro addr len s ho ha hx hpos
  obtain ⟨all, t, hloop, bufs, hkeep, hbufs⟩ := memRangeLoop_read_runs len.toNat true ho ha le_rfl hpos hx
  refine ⟨t.setResult (.host 0), bufs, exec_hostRead_of_loop hloop, hkeep.oe, rfl, hkeep.sent, hbufs.total, hbufs.sizes,
    hbufs.full, fun hzero => ?_, hkeep.mode, hkeep.params, hkeep.data, hkeep.inbox, hkeep.hostData, hkeep.trace⟩
  subst hzero
  cases (memRangeLoop_zero .r32 _ addr true s).symm.trans hloop
  rfl

end Sys2Proof.Proofs

/-! PROOF. Ranges of memory (20_memory R90-R93): the bytes of a range, what storing bytes one after the other does to a
memory, and how the target between two accesses of a range differs from the one before it. -/

namespace Sys2Proof.Proofs

open Sys2Proof Sys2Proof.Machine Sys2Proof.Laws

/-! ## The bytes of a range -/

/-- The `n` bytes of memory from `a` on. -/
def memBytes (m : List Host.Cell) (a : Word) (n : Nat) : List Byte :=
  (List.range n).map fun k => Memory.readByte m (a + BitVec.ofNat 32 k)

@[simp] theorem memBytes_length (m : List Host.Cell) (a : Word) (n : Nat) : (memBytes m a n).length = n := by
  simp [memBytes]

theorem add_ofNat_add (a : Word) (j k : Nat) :
    a + BitVec.ofNat 32 (j + k) = a + BitVec.ofNat 32 j + BitVec.ofNat 32 k := by
  rw [BitVec.ofNat_add, BitVec.add_assoc]

theorem memBytes_add (m : List Host.Cell) (a : Word) (j k : Nat) :
    memBytes m a (j + k) = memBytes m a j ++ memBytes m (a + BitVec.ofNat 32 j) k := by
  simp only [memBytes, List.range_add, List.map_append, List.map_map, Function.comp_def, add_ofNat_add]

theorem wordBytes_readWord {a : Word} (h4 : a.toNat % 4 = 0) (m : List Host.Cell) :
    wordBytes (Memory.readWord m a) = memBytes m a 4 := by
  rw [Memory.readWord, alignWord_of_aligned h4, wordBytes_bytesWord]
  simp [memBytes, List.range_succ]

theorem wordsBytes_append (xs ys : List Word) : wordsBytes (xs ++ ys) = wordsBytes xs ++ wordsBytes ys := by
  induction xs with
  | nil => rfl
  | cons x xs ih => rw [List.cons_append, wordsBytes, wordsBytes, ih, List.append_assoc]

theorem wordsBytes_readWords {a : Word} (h4 : a.toNat % 4 = 0) (m : List Host.Cell) (n : Nat) :
    wordsBytes ((List.range n).map fun i => Memory.readWord m (a + BitVec.ofNat 32 (4 * i))) = memBytes m a (4 * n) := by
  induction n with
  | zero => rfl
  | succ n ih =>
    have h4' : (a + BitVec.ofNat 32 (4 * n)).toNat % 4 = 0 := by
      rw [toNat_add_mod4]
      omega
    rw [List.range_succ, List.map_append, wordsBytes_append, ih, Nat.mul_succ, memBytes_add, ← wordBytes_readWord h4']
    simp [wordsBytes]

/-! ## Storing bytes one after the other -/

/-- `m'` is the memory `m` with these bytes from `a` on, addresses wrapping around at 2^32. -/
structure Stored (m m' : List Host.Cell) (a : Word) (bytes : List Byte) : Prop where
  wf      : Memory.wf m'
  inside  : ∀ k b, bytes[k]? = some b → Memory.readByte m' (a + BitVec.ofNat 32 k) = b
  outside : ∀ b, (∀ k < bytes.length, b ≠ a + BitVec.ofNat 32 k) → Memory.readByte m' b = Memory.readByte m b

theorem stored_nil {m : List Host.Cell} (h : Memory.wf m) (a : Word) : Stored m m a [] :=
  ⟨h, fun k b hk => by simp at hk, fun _ _ => rfl⟩

/-- Two offsets below 2^32 name two addresses. -/
theorem add_ofNat_inj {a : Word} {i j : Nat} (hi : i < 2 ^ 32) (hj : j < 2 ^ 32)
    (h : a + BitVec.ofNat 32 i = a + BitVec.ofNat 32 j) : i = j := by
  have hnat := congrArg BitVec.toNat (BitVec.add_right_inj a |>.1 h)
  rwa [BitVec.toNat_ofNat, BitVec.toNat_ofNat, Nat.mod_eq_of_lt hi, Nat.mod_eq_of_lt hj] at hnat

theorem Stored.append {m m' m'' : List Host.Cell} {a : Word} {xs ys : List Byte} (h : Stored m m' a xs)
    (k : Stored m' m'' (a + BitVec.ofNat 32 xs.length) ys) (hlen : xs.length + ys.length ≤ 2 ^ 32) :
    Stored m m'' a (xs ++ ys) where
  wf := k.wf
  inside := by
    intro i b hi
    by_cases hx : i < xs.length
    · rw [List.getElem?_append_left hx] at hi
      rw [← h.inside i b hi]
      refine k.outside _ fun j hj heq => ?_
      rw [← add_ofNat_add] at heq
      have := add_ofNat_inj (by omega) (by omega) heq
      omega
    · rw [List.getElem?_append_right (by omega)] at hi
      have hsum : a + BitVec.ofNat 32 i = a + BitVec.ofNat 32 xs.length + BitVec.ofNat 32 (i - xs.length) := by
        rw [← add_ofNat_add, Nat.add_sub_cancel' (by omega)]
      rw [hsum]
      exact k.inside _ b hi
  outside := by
    intro b hb
    rw [List.length_append] at hb
    rw [k.outside b fun j hj => by rw [← add_ofNat_add]; exact hb _ (by omega),
      h.outside b fun j hj => hb _ (by omega)]

theorem stored_word {m : List Host.Cell} (h : Memory.wf m) {a : Word} (h4 : a.toNat % 4 = 0) (w : Word) :
    Stored m (Memory.writeWord m a w) a (wordBytes w) where
  wf := writeWord_wf h a w
  inside := by
    intro k b hk
    have hlt : k < 4 := (List.getElem?_eq_some_iff.1 hk).1
    have hlane := readByte_writeWord h a w k hlt
    rw [alignWord_of_aligned h4] at hlane
    rw [hlane]
    obtain rfl | rfl | rfl | rfl : k = 0 ∨ k = 1 ∨ k = 2 ∨ k = 3 := by omega
    all_goals exact Option.some.inj hk
  outside := by
    intro b hb
    refine readByte_writeWord_ne h a b w fun heq => ?_
    have haligned := congrArg BitVec.toNat heq
    rw [alignWord_toNat, alignWord_toNat] at haligned
    refine hb (b.toNat % 4) (Nat.mod_lt _ (by omega)) (BitVec.eq_of_toNat_eq ?_)
    have hlt := b.isLt
    rw [BitVec.toNat_add, BitVec.toNat_ofNat]
    omega

theorem stored_words {m : List Host.Cell} (h : Memory.wf m) {a : Word} (h4 : a.toNat % 4 = 0) (ws : List Word)
    (hlen : 4 * ws.length ≤ 2 ^ 32) : Stored m (storeWords m a ws) a (wordsBytes ws) := by
  induction ws generalizing m a with
  | nil => exact stored_nil h a
  | cons w ws ih =>
    have hfirst := stored_word h h4 w
    have h4' : (a + BitVec.ofNat 32 4).toNat % 4 = 0 := by
      rw [toNat_add_mod4]
      omega
    rw [List.length_cons] at hlen
    refine hfirst.append (ih hfirst.wf h4' (by omega)) ?_
    rw [wordsBytes_length, wordBytes_length]
    omega

/-- Storing bytes and reading the range gives the bytes. -/
theorem Stored.memBytes_eq {m m' : List Host.Cell} {a : Word} {bytes : List Byte} (h : Stored m m' a bytes) :
    memBytes m' a bytes.length = bytes := by
  refine List.ext_getElem (memBytes_length _ _ _) fun k _ hk => ?_
  simp only [memBytes, List.getElem_map, List.getElem_range]
  exact h.inside k _ (List.getElem?_eq_getElem hk)

/-! ## The target between two accesses of a range -/

theorem eq_of_settled {t u : Target} (h : u.settled = t.settled) :
    u = { t with accepting := u.accepting, drive := u.drive } :=
  congrArg (fun v : Target => { v with accepting := u.accepting, drive := u.drive }) h

/-- After word accesses `u` is `t` but for memory, CSW, TAR, the read pipeline and READOK of a target that keeps it
(log 32). -/
def Alike (t u : Target) : Prop := u.settled = Target.settled { t with
  ctrlStat := t.afterRead, mem := u.mem, csw := u.csw, tar := u.tar, rdbuf := u.rdbuf, stale := u.stale }

section
variable {t u v : Target}

theorem alike_of_settled {mem : List Host.Cell} {csw tar rdbuf : Word} {stale : Bool} (h : u.settled = Target.settled { t with
    ctrlStat := t.afterRead, mem := mem, csw := csw, tar := tar, rdbuf := rdbuf, stale := stale }) :
    Alike t u ∧ u.mem = mem ∧ u.csw = csw ∧ u.rdbuf = rdbuf ∧ u.stale = stale := by
  obtain rfl : u.mem = mem := congrArg Target.mem h
  obtain rfl : u.csw = csw := congrArg Target.csw h
  obtain rfl : u.tar = tar := congrArg Target.tar h
  obtain rfl : u.rdbuf = rdbuf := congrArg Target.rdbuf h
  obtain rfl : u.stale = stale := congrArg Target.stale h
  exact ⟨h, rfl, rfl, rfl, rfl⟩

theorem Alike.ctrlStat (h : Alike t u) : u.ctrlStat = t.afterRead := congrArg Target.ctrlStat h

theorem Alike.afterRead (h : Alike t u) : u.afterRead = t.afterRead :=
  (congrArg Target.afterRead h).trans (afterRead_afterRead t)

theorem Alike.trans (h : Alike t u) (k : Alike u v) : Alike t v := by
  have hback : v.settled = { u.settled with
      ctrlStat := u.afterRead, mem := v.mem, csw := v.csw, tar := v.tar, rdbuf := v.rdbuf, stale := v.stale } := k
  rw [h.afterRead, show u.settled = _ from h] at hback
  exact hback

theorem Alike.bank0 (h : Alike t u) (hb : t.Bank0) : u.Bank0 :=
  bank0_keep hb (by rw [h.ctrlStat]; exact clear_afterRead hb) (by rw [h.ctrlStat]; exact h)

theorem Alike.busErrors (h : Alike t u) : u.busErrors = t.busErrors := by
  have hsettled := congrArg Target.busErrors (show u.settled = _ from h)
  exact hsettled

theorem Alike.statusLive (h : Alike t u) : u.statusLive = t.statusLive := by
  have hsettled := congrArg Target.statusLive (show u.settled = _ from h)
  exact hsettled

theorem Alike.plain (h : Alike t u) {a : Word} (hp : t.Plain a) : u.Plain a :=
  ⟨by rw [Target.busError, h.busErrors]; exact hp.bus, hp.dhcsr, hp.dcrsr, hp.dcrdr⟩

/-- READOK is none of the fields that make a write more than a memory write. -/
theorem Alike.normalTransfer (h : Alike t u) (hn : t.normalTransfer = true) : u.normalTransfer = true := by
  have hmask : ∀ c : Word, (c ||| 0x00000040#32) &&& 0x00FFF00C#32 = c &&& 0x00FFF00C#32 := fun c => by
    rw [BitVec.and_or_distrib_right, show (0x00000040#32 &&& 0x00FFF00C#32) = 0#32 by decide, BitVec.or_zero]
  have hctrl : u.ctrlStat &&& 0x00FFF00C#32 = t.ctrlStat &&& 0x00FFF00C#32 := by
    rw [h.ctrlStat, Target.afterRead]
    split
    · exact hmask _
    · rfl
  have hsame : u.normalTransfer = t.normalTransfer := by
    show (!u.statusLive || u.ctrlStat &&& 0x00FFF00C#32 == 0#32) = (!t.statusLive || t.ctrlStat &&& 0x00FFF00C#32 == 0#32)
    rw [h.statusLive, hctrl]
  rw [hsame, hn]

end

end Sys2Proof.Proofs

/-! PROOF. Word operations against the reference target (43_memory_access R251-R255; 46_host_adapter R334-R342): chunk by
chunk, each leaves the target alike and stores or returns the bytes of its part of the range. -/

namespace Sys2Proof.Proofs

open Sys2Proof Sys2Proof.Machine Sys2Proof.Laws

theorem plain_words {t : Target} {a : Word} {n : Nat} (hp : ∀ k < n, t.Plain (a + BitVec.ofNat 32 k)) (hn : n % 4 = 0) :
    ∀ i < n / 4, t.Plain (a + BitVec.ofNat 32 (4 * i)) :=
  fun i hi => hp (4 * i) (by omega)

theorem plain_drop {t : Target} {a : Word} {n c : Nat} (hp : ∀ k < n, t.Plain (a + BitVec.ofNat 32 k)) (hc : c ≤ n) :
    ∀ k < n - c, t.Plain (a + BitVec.ofNat 32 c + BitVec.ofNat 32 k) :=
  fun k hk => by rw [← add_ofNat_add]; exact hp _ (by omega)

/-- The first chunk of an aligned range: aligned, inside its page, not empty, and an aligned range behind it (R253). -/
theorem firstChunk {a : Word} {n : Nat} (h4 : a.toNat % 4 = 0) (hn4 : n % 4 = 0) (hn : 0 < n) :
    chunkSize a n % 4 = 0 ∧ a.toNat % 1024 + chunkSize a n ≤ 1024 ∧ 0 < chunkSize a n ∧ chunkSize a n ≤ n ∧
      (a + BitVec.ofNat 32 (chunkSize a n)).toNat % 4 = 0 := by
  obtain ⟨_, -, haligned, hpage, hne⟩ := chunks_cons (wordAligned_iff.2 ⟨h4, hn4⟩) hn
  have hc4 := (wordAligned_iff.1 haligned).2
  refine ⟨hc4, withinPage_iff.1 hpage, Nat.pos_of_ne_zero hne, Nat.min_le_left _ _, ?_⟩
  rw [toNat_add_mod4]
  omega

/-! ## Writing (R251, R254) -/

/-- A write of bytes to a range took effect, and left the rest of the target alone. -/
structure Written (s t : State) (a : Word) (bytes : List Byte) : Prop where
  took   : Took s t
  alike  : Alike s.target t.target
  rdbuf  : t.target.rdbuf = s.target.rdbuf
  stale  : t.target.stale = s.target.stale
  stored : Stored s.target.mem t.target.mem a bytes

theorem Written.append {s t u : State} {a : Word} {xs ys : List Byte} (h : Written s t a xs)
    (k : Written t u (a + BitVec.ofNat 32 xs.length) ys) (hlen : xs.length + ys.length ≤ 2 ^ 32) :
    Written s u a (xs ++ ys) :=
  ⟨h.took.trans k.took, h.alike.trans k.alike, k.rdbuf.trans h.rdbuf, k.stale.trans h.stale,
    h.stored.append k.stored hlen⟩

/-- What the word operations ask of the state they write from. -/
structure CanWrite (s : State) : Prop where
  oe     : s.oe = true
  bank0  : s.target.Bank0
  normal : s.target.normalTransfer = true
  mode   : WordMode s.params.cswWord
  mem    : Memory.wf s.target.mem

theorem CanWrite.after {s t : State} {a : Word} {bytes : List Byte} (h : CanWrite s) (k : Written s t a bytes) :
    CanWrite t :=
  ⟨k.took.oe, k.alike.bank0 h.bank0, k.alike.normalTransfer h.normal, by rw [k.took.wire.params]; exact h.mode,
    k.stored.wf⟩

theorem writeChunk_reference {a : Word} {buf : List Byte} {s : State} (hs : CanWrite s) (h4 : a.toNat % 4 = 0)
    (hb4 : buf.length % 4 = 0) (hpage : a.toNat % 1024 + buf.length ≤ 1024) (hne : 0 < buf.length)
    (hp : ∀ k < buf.length, s.target.Plain (a + BitVec.ofNat 32 k)) :
    Runs (writeWord32Chunk a buf) s fun c t => c = .ok ∧ Written s t a buf := by
  have hwords := bufWords_length buf
  obtain ⟨_, t, hrun, ⟨u, rfl⟩, htook, tar, htarget⟩ := writeChunkSteps_ok (bufWords buf) hs.oe hs.bank0 hs.normal hs.mode
    h4 (by omega) (by rw [hwords]; exact plain_words hp hb4)
  obtain ⟨halike, hmem, -, hrdbuf, hstale⟩ := alike_of_settled htarget
  have hstored := stored_words hs.mem h4 (bufWords buf) (by omega)
  rw [wordsBytes_bufWords buf hb4, ← hmem] at hstored
  refine ⟨.ok, t, ?_, rfl, htook, halike, hrdbuf, hstale, hstored⟩
  rw [writeWord32Chunk_eq (wordAligned_iff.2 ⟨h4, hb4⟩) (withinPage_iff.2 hpage) (by omega), steps_code_eq,
    op_bind_ok hrun]
  rfl

theorem writeMem32Loop_reference (fuel : Nat) {a : Word} {buf : List Byte} {s : State} (hf : buf.length ≤ fuel)
    (hs : CanWrite s) (h4 : a.toNat % 4 = 0) (hb4 : buf.length % 4 = 0) (hsize : buf.length ≤ 2 ^ 32)
    (hp : ∀ k < buf.length, s.target.Plain (a + BitVec.ofNat 32 k)) :
    Runs (writeMem32Loop (chunkList fuel a buf.length) buf) s fun c t =>
      c = .ok ∧ (buf = [] → t = s) ∧ (buf ≠ [] → Written s t a buf) := by
  induction fuel generalizing a buf s with
  | zero =>
    obtain rfl := List.length_eq_zero_iff.1 (Nat.le_zero.1 hf)
    exact ⟨.ok, s, rfl, rfl, fun _ => rfl, fun h => absurd rfl h⟩
  | succ fuel ih =>
    by_cases hnil : buf = []
    · subst hnil
      exact ⟨.ok, s, rfl, rfl, fun _ => rfl, fun h => absurd rfl h⟩
    · have hpos := List.length_pos_iff.2 hnil
      obtain ⟨hc4, hpage, hcpos, hcle, h4'⟩ := firstChunk h4 hb4 hpos
      rw [chunkList_succ_of_pos fuel a hpos]
      generalize chunkSize a buf.length = c at *
      have htake : (buf.take c).length = c := List.length_take_of_le hcle
      have hdrop : (buf.drop c).length = buf.length - c := List.length_drop
      obtain ⟨_, t, hchunk, rfl, hwritten⟩ := writeChunk_reference (buf := buf.take c) hs h4 (by omega) (by omega)
        (by omega) fun k hk => hp k (by omega)
      obtain ⟨_, u, hloop, rfl, hstop, hmore⟩ := ih (buf := buf.drop c) (by omega) (hs.after hwritten) h4' (by omega)
        (by omega) (by rw [hdrop]; exact fun k hk => hwritten.alike.plain (plain_drop hp hcle k hk))
      rw [hdrop] at hloop
      refine ⟨.ok, u, ?_, rfl, fun h => absurd h hnil, fun _ => ?_⟩
      · have hretried : writeChunkRetried a (buf.take c) s = .ok (.ok, t) := op_bind_ok hchunk _
        exact (op_bind_ok hretried _).trans hloop
      · by_cases hlast : buf.drop c = []
        · rw [hstop hlast]
          have hall : buf.take c = buf := by
            have hsplit := List.take_append_drop c buf
            rwa [hlast, List.append_nil] at hsplit
          rwa [hall] at hwritten
        · have hboth := hwritten.append (by rw [htake]; exact hmore hlast) (by omega)
          rwa [List.take_append_drop] at hboth

theorem writeMem32_reference {a : Word} {buf : List Byte} {s : State} (hs : CanWrite s) (h4 : a.toNat % 4 = 0)
    (hb4 : buf.length % 4 = 0) (hsize : buf.length ≤ 2 ^ 32)
    (hp : ∀ k < buf.length, s.target.Plain (a + BitVec.ofNat 32 k)) :
    Runs (writeMem32 a buf) s fun c t => c = .ok ∧ (buf = [] → t = s) ∧ (buf ≠ [] → Written s t a buf) := by
  obtain ⟨c, t, hloop, hpost⟩ := writeMem32Loop_reference buf.length le_rfl hs h4 hb4 hsize hp
  refine ⟨c, t, ?_, hpost⟩
  rw [writeMem32, op_bind_ok (checkAligned_ok (wordAligned_iff.2 ⟨h4, hb4⟩) s)]
  exact hloop

/-- Settles O37: the chunks store the parts of the buffer one after the other. -/
theorem writeMem32StoresTheBuffer : Obligations.WriteMem32StoresTheBuffer := by
  intro addr buf s ho hb hn hm hwf h4 hb4 hsize hp
  obtain ⟨_, t, hrun, rfl, hstop, hwritten⟩ := writeMem32_reference ⟨ho, hb, hn, hm, hwf⟩ h4 hb4 hsize hp
  by_cases hnil : buf = []
  · subst hnil
    obtain rfl := hstop rfl
    exact ⟨_, hrun, ho, .refl _, rfl, (stored_nil hwf addr).inside, (stored_nil hwf addr).outside⟩
  · have h := hwritten hnil
    refine ⟨t, hrun, h.took.oe, h.took.wire, ?_, h.stored.inside, h.stored.outside⟩
    have htarget := eq_of_settled h.alike
    rw [h.rdbuf, h.stale] at htarget
    rw [if_neg hnil]
    exact htarget

/-! ## Reading (R252, R255) -/

/-- A read of a range left the target alone but for CSW, TAR, the read pipeline and READOK. -/
structure ReadBack (s t : State) : Prop where
  took  : Took s t
  alike : Alike s.target t.target
  mem   : t.target.mem = s.target.mem

theorem ReadBack.trans {s t u : State} (h : ReadBack s t) (k : ReadBack t u) : ReadBack s u :=
  ⟨h.took.trans k.took, h.alike.trans k.alike, k.mem.trans h.mem⟩

/-- What the word operations ask of the state they read from. -/
structure CanRead (s : State) : Prop where
  oe    : s.oe = true
  bank0 : s.target.Bank0
  mode  : WordMode s.params.cswWord

theorem CanRead.after {s t : State} (h : CanRead s) (k : ReadBack s t) : CanRead t :=
  ⟨k.took.oe, k.alike.bank0 h.bank0, by rw [k.took.wire.params]; exact h.mode⟩

theorem readChunk_reference {a : Word} {n : Nat} {s : State} (hs : CanRead s) (h4 : a.toNat % 4 = 0) (hn4 : n % 4 = 0)
    (hpage : a.toNat % 1024 + n ≤ 1024) (hn : 0 < n) (hp : ∀ k < n, s.target.Plain (a + BitVec.ofNat 32 k)) :
    Runs (readWord32Chunk a n) s fun r t => r = (.ok, memBytes s.target.mem a n) ∧ ReadBack s t := by
  obtain ⟨_, t, hrun, rfl, htook, tar, rdbuf, htarget⟩ := readChunkSteps_ok (n / 4) (by omega) hs.oe hs.bank0 hs.mode h4
    (by omega) (plain_words hp hn4)
  obtain ⟨halike, hmem, -⟩ := alike_of_settled htarget
  refine ⟨_, t, ?_, rfl, htook, halike, hmem⟩
  rw [readWord32Chunk_eq (wordAligned_iff.2 ⟨h4, hn4⟩) (withinPage_iff.2 hpage) (by omega), op_bind_ok hrun]
  have hall : n - 4 * ((List.range (n / 4)).map fun i => Memory.readWord s.target.mem (a + BitVec.ofNat 32 (4 * i))).length
      = 0 := by
    rw [List.length_map, List.length_range]
    omega
  dsimp only
  rw [hall, wordsBytes_readWords h4, show 4 * (n / 4) = n by omega]
  show Except.ok ((Code.ok, memBytes s.target.mem a n ++ []), _) = _
  rw [List.append_nil]
  rfl

theorem readMem32Loop_reference (fuel : Nat) {a : Word} {n : Nat} {s : State} (hf : n ≤ fuel) (hs : CanRead s)
    (h4 : a.toNat % 4 = 0) (hn4 : n % 4 = 0) (hp : ∀ k < n, s.target.Plain (a + BitVec.ofNat 32 k)) :
    Runs (readMem32Loop (chunkList fuel a n)) s fun r t =>
      r = (.ok, memBytes s.target.mem a n) ∧ (n = 0 → t = s) ∧ (n ≠ 0 → ReadBack s t) := by
  induction fuel generalizing a n s with
  | zero =>
    obtain rfl : n = 0 := by omega
    exact ⟨_, s, rfl, rfl, fun _ => rfl, fun h => absurd rfl h⟩
  | succ fuel ih =>
    by_cases hzero : n = 0
    · subst hzero
      exact ⟨_, s, rfl, rfl, fun _ => rfl, fun h => absurd rfl h⟩
    · have hpos := Nat.pos_of_ne_zero hzero
      obtain ⟨hc4, hpage, hcpos, hcle, h4'⟩ := firstChunk h4 hn4 hpos
      rw [chunkList_succ_of_pos fuel a hpos]
      generalize chunkSize a n = c at *
      obtain ⟨_, t, hchunk, rfl, hread⟩ := readChunk_reference hs h4 hc4 hpage hcpos fun k hk => hp k (by omega)
      obtain ⟨_, u, hloop, rfl, hstop, hmore⟩ := ih (n := n - c) (by omega) (hs.after hread) h4' (by omega)
        fun k hk => hread.alike.plain (plain_drop hp hcle k hk)
      rw [hread.mem] at hloop
      have hbytes : memBytes s.target.mem a n =
          memBytes s.target.mem a c ++ memBytes s.target.mem (a + BitVec.ofNat 32 c) (n - c) := by
        rw [← memBytes_add, Nat.add_sub_cancel' hcle]
      refine ⟨_, u, ?_, rfl, fun h => absurd h hzero, fun _ => ?_⟩
      · have hretried : readChunkRetried a c s = .ok ((.ok, memBytes s.target.mem a c), t) := op_bind_ok hchunk _
        rw [hbytes]
        exact (op_bind_ok hretried _).trans (op_bind_ok hloop _)
      · by_cases hlast : n - c = 0
        · rwa [hstop hlast]
        · exact hread.trans (hmore hlast)

theorem readMem32_reference {a : Word} {n : Nat} {s : State} (hs : CanRead s) (h4 : a.toNat % 4 = 0) (hn4 : n % 4 = 0)
    (hp : ∀ k < n, s.target.Plain (a + BitVec.ofNat 32 k)) :
    Runs (readMem32 a n) s fun r t =>
      r = (.ok, memBytes s.target.mem a n) ∧ (n = 0 → t = s) ∧ (n ≠ 0 → ReadBack s t) := by
  obtain ⟨r, t, hloop, hpost⟩ := readMem32Loop_reference n le_rfl hs h4 hn4 hp
  refine ⟨r, t, ?_, hpost⟩
  rw [readMem32, op_bind_ok (checkAligned_ok (wordAligned_iff.2 ⟨h4, hn4⟩) s)]
  exact hloop

/-- Settles O38: what was stored is what the read of the same range collects. -/
theorem readAfterWriteReturnsTheBuffer : Obligations.ReadAfterWriteReturnsTheBuffer := by
  intro addr buf s ho hb hn hm hwf h4 hb4 hsize hp
  have hs : CanWrite s := ⟨ho, hb, hn, hm, hwf⟩
  obtain ⟨_, t, hwrite, rfl, hstop, hwritten⟩ := writeMem32_reference hs h4 hb4 hsize hp
  obtain ⟨hread, hplain, hbytes⟩ : CanRead t ∧ (∀ k < buf.length, t.target.Plain (addr + BitVec.ofNat 32 k)) ∧
      memBytes t.target.mem addr buf.length = buf := by
    by_cases hnil : buf = []
    · subst hnil
      rw [hstop rfl]
      exact ⟨⟨ho, hb, hm⟩, hp, rfl⟩
    · have h := hwritten hnil
      have ht := hs.after h
      exact ⟨⟨ht.oe, ht.bank0, ht.mode⟩, fun k hk => h.alike.plain (hp k hk), h.stored.memBytes_eq⟩
  obtain ⟨_, u, hrun, rfl, -, -⟩ := readMem32_reference hread h4 hb4 hplain
  rw [hbytes] at hrun
  exact ⟨t, u, hwrite, hrun⟩

/-! ## The host read (46_host_adapter R334, R342) -/

/-- What the sub-chunks of a host read leave: buffers sent, the latch OK, the target alike. -/
structure HostServed (bufs : List (List Byte)) (s t : State) : Prop where
  oe    : t.oe = true
  wire  : WireOnly { s with sent := s.sent ++ bufs, lastStatus := .ok } t
  alike : Alike s.target t.target
  mem   : t.target.mem = s.target.mem

theorem HostServed.trans {a b : List (List Byte)} {s t u : State} (h : HostServed a s t) (k : HostServed b t u) :
    HostServed (a ++ b) s u where
  oe := k.oe
  wire := { k.wire with
    session := k.wire.session.trans h.wire.session
    coreId := k.wire.coreId.trans h.wire.coreId
    mode := k.wire.mode.trans h.wire.mode
    params := k.wire.params.trans h.wire.params
    data := k.wire.data.trans h.wire.data
    result := k.wire.result.trans h.wire.result
    inbox := k.wire.inbox.trans h.wire.inbox
    hostData := k.wire.hostData.trans h.wire.hostData
    sent := k.wire.sent.trans (by
      show t.sent ++ b = s.sent ++ (a ++ b)
      rw [show t.sent = s.sent ++ a from h.wire.sent, List.append_assoc])
    trace := h.wire.trace.trans k.wire.trace }
  alike := h.alike.trans k.alike
  mem := k.mem.trans h.mem

theorem subChunk_reference {a : Word} {n : Nat} {s : State} (hs : CanRead s) (h4 : a.toNat % 4 = 0) (hn4 : n % 4 = 0)
    (hn : n ≠ 0) (hp : ∀ k < n, s.target.Plain (a + BitVec.ofNat 32 k)) :
    Runs (subChunk .r32 a n) s fun good t => good = true ∧ HostServed [memBytes s.target.mem a n] s t := by
  obtain ⟨_, u, hrun, rfl, -, hread⟩ := readMem32_reference hs h4 hn4 hp
  have h := hread hn
  exact ⟨true, _, subChunk_ok hrun, rfl, h.took.oe,
    { h.took.wire with lastStatus := rfl, sent := congrArg (· ++ [memBytes s.target.mem a n]) h.took.wire.sent },
    h.alike, h.mem⟩

theorem memRangeLoop_reference (fuel : Nat) {a : Word} {n : Nat} (allOk : Bool) {s : State} (hs : CanRead s)
    (h4 : a.toNat % 4 = 0) (hn4 : n % 4 = 0) (hf : n ≤ fuel) (hpos : 0 < s.params.xferBuf)
    (hx : s.params.xferBuf % 4 = 0) (hp : ∀ k < n, s.target.Plain (a + BitVec.ofNat 32 k)) :
    Runs (memRangeLoop .r32 fuel a n allOk) s fun _ t => ∃ bufs, bufs.flatten = memBytes s.target.mem a n ∧
      Buffers s.params.xferBuf n bufs ∧ (n = 0 → t = s) ∧ (n ≠ 0 → HostServed bufs s t) := by
  induction fuel generalizing a n allOk s with
  | zero =>
    obtain rfl : n = 0 := by omega
    exact ⟨allOk, s, rfl, [], rfl, buffers_nil _, fun _ => rfl, fun h => absurd rfl h⟩
  | succ fuel ih =>
    by_cases hzero : n = 0
    · subst hzero
      exact ⟨allOk, s, memRangeLoop_zero _ _ _ _ _, [], rfl, buffers_nil _, fun _ => rfl, fun h => absurd rfl h⟩
    · have hmin : min n s.params.xferBuf % 4 = 0 := by omega
      have hlen : (memBytes s.target.mem a (min n s.params.xferBuf)).length = min n s.params.xferBuf := memBytes_length _ _ _
      have hxne : min n s.params.xferBuf ≠ 0 := by omega
      have hle : min n s.params.xferBuf ≤ n := Nat.min_le_left _ _
      obtain ⟨_, t, hsub, rfl, hserved⟩ := subChunk_reference hs h4 hmin hxne fun k hk => hp k (by omega)
      have hparams : t.params = s.params := hserved.wire.params
      have ht : CanRead t := ⟨hserved.oe, hserved.alike.bank0 hs.bank0, by rw [hparams]; exact hs.mode⟩
      obtain ⟨all, u, hloop, bufs, hflat, hbufs, hstop, hmore⟩ := ih (n := n - min n s.params.xferBuf) (allOk && true) ht
        (by rw [toNat_add_mod4]; omega) (by omega) (by omega) (by rw [hparams]; exact hpos) (by rw [hparams]; exact hx)
        fun k hk => hserved.alike.plain (plain_drop hp hle k hk)
      rw [hparams] at hbufs
      rw [hserved.mem] at hflat
      refine ⟨all, u, ?_, _ :: bufs, ?_, buffers_cons hpos (by omega) hlen hbufs, fun h => absurd h hzero, fun _ => ?_⟩
      · rw [memRangeLoop_of_pos _ _ _ hzero, op_bind_ok hsub, hloop]
      · rw [List.flatten_cons, hflat, ← memBytes_add, Nat.add_sub_cancel' hle]
      · by_cases hlast : n - min n s.params.xferBuf = 0
        · rw [hlast] at hbufs
          rwa [hstop hlast, hbufs.eq_nil]
        · exact hserved.trans (hmore hlast)

/-- Settles O50. -/
theorem hostReadReturnsMemory : Obligations.HostReadReturnsMemory := by
  intro addr len s ho hb hm ha hx hpos hp
  obtain ⟨h4, hn4⟩ := wordAligned_iff.1 ha
  obtain ⟨all, t, hloop, bufs, hflat, hbufs, hstop, hserved⟩ :=
    memRangeLoop_reference len.toNat true ⟨ho, hb, hm⟩ h4 hn4 le_rfl hpos hx hp
  have hexec := exec_hostRead_of_loop hloop
  by_cases hzero : len = 0
  · subst hzero
    obtain rfl := hstop rfl
    obtain rfl := hbufs.eq_nil
    exact ⟨_, [], hexec, ho, { WireOnly.refl t with sent := by simp, result := rfl }, hflat, hbufs.sizes,
      hbufs.full, rfl⟩
  · have h := hserved fun h => hzero (BitVec.eq_of_toNat_eq h)
    refine ⟨_, bufs, hexec, h.oe, ?_, hflat, hbufs.sizes, hbufs.full, ?_⟩
    · rw [if_neg hzero]
      exact { h.wire with result := rfl }
    · have htarget := eq_of_settled h.alike
      rw [h.mem] at htarget
      rw [if_neg hzero]
      exact htarget

end Sys2Proof.Proofs

/-! PROOF. `writeMem8` against the reference target (43_memory_access R256; 20_memory R90, R92; 70_reset R402): CSW to byte
size, each byte through its own TAR and lane, CSW back. -/

namespace Sys2Proof.Proofs

open Sys2Proof Sys2Proof.Machine Sys2Proof.Laws

/-! ## The width switch -/

theorem writeCsw_writeCsw (old a b : Word) : writeCsw (writeCsw old a) b = writeCsw old b := by
  apply BitVec.eq_of_getLsbD_eq
  intro k hk
  rw [getLsbD_writeCsw _ _ hk, getLsbD_writeCsw _ _ hk, getLsbD_writeCsw _ _ hk]
  split <;> rfl

/-- Size is a writable field (log 13). -/
theorem cswSize_writeCsw (old w : Word) : cswSize (writeCsw old w) = cswSize w := by
  apply BitVec.eq_of_getLsbD_eq
  intro k hk
  have hwritable : ∀ k < 3, ¬ cswReadOnly.getLsbD k = true := by decide
  rw [cswSize, cswSize, BitVec.getLsbD_extractLsb', BitVec.getLsbD_extractLsb', Nat.zero_add,
    getLsbD_writeCsw _ _ (by omega), if_neg (hwritable k hk)]

theorem wrapped_csw_reference {s : State} (ho : s.oe = true) (hb : s.target.Bank0) (w : Word) :
    Runs (wrapped codeWrCsw w) s fun r t => r.1 = .ok ∧ t.oe = true ∧ WireOnly s t ∧
      t.target = Target.settled { s.target with csw := writeCsw s.target.csw w } := by
  obtain ⟨_, t, hrun, rfl, ⟨n, htarget⟩, hoe, hwire, -⟩ :=
    ok_wrapped_write w legal_wrCsw ho (by decide) (ready_answersOk hb.ready _)
  exact ⟨_, t, hrun, rfl, hoe, hwire, htarget.trans (wrote_csw hb n w)⟩

/-! ## The bytes -/

theorem stored_lane {m : List Host.Cell} (h : Memory.wf m) (a : Word) (b : Byte) :
    Stored m (Memory.writeLane m a (laneWord a b)) a [b] where
  wf := writeLane_wf h a _
  inside := by
    intro k c hk
    obtain rfl : k = 0 := by
      have hlt := (List.getElem?_eq_some_iff.1 hk).1
      rw [List.length_singleton] at hlt
      omega
    obtain rfl : b = c := Option.some.inj hk
    rw [BitVec.add_zero, readByte_writeLane h, if_pos rfl, laneByte_laneWord]
  outside := by
    intro c hc
    have hne : c ≠ a := by
      have h0 := hc 0 (by rw [List.length_singleton]; omega)
      rwa [BitVec.add_zero] at h0
    rw [readByte_writeLane h, if_neg hne]

/-- Byte writes took effect and left the target alone but for memory and TAR. -/
structure BytesWritten (s t : State) (a : Word) (bytes : List Byte) : Prop where
  oe     : t.oe = true
  wire   : WireOnly s t
  target : t.target.settled = Target.settled { s.target with mem := t.target.mem, tar := t.target.tar }
  stored : Stored s.target.mem t.target.mem a bytes

/-- What byte writes ask of the state they run from. -/
structure CanWriteBytes (s : State) : Prop where
  oe     : s.oe = true
  bank0  : s.target.Bank0
  normal : s.target.normalTransfer = true
  size   : cswSize s.target.csw = 0b000#3
  mem    : Memory.wf s.target.mem

theorem CanWriteBytes.after {s t : State} {a : Word} {bytes : List Byte} (h : CanWriteBytes s)
    (k : BytesWritten s t a bytes) : CanWriteBytes t where
  oe := k.oe
  bank0 := bank0_of_settled (t := { s.target with mem := t.target.mem, tar := t.target.tar })
    ⟨⟨h.bank0.ready.attached, h.bank0.ready.protocol, h.bank0.ready.inSync, h.bank0.ready.answers, h.bank0.ready.clear,
      h.bank0.ready.idle⟩, h.bank0.ap, h.bank0.bank⟩ k.target
  normal := (congrArg Target.normalTransfer k.target).trans h.normal
  size := (congrArg (fun t : Target => cswSize t.csw) k.target).trans h.size
  mem := k.stored.wf

theorem BytesWritten.busError {s t : State} {a : Word} {bytes : List Byte} (k : BytesWritten s t a bytes) (b : Word) :
    t.target.busError b = s.target.busError b := by
  have hsettled := congrArg (fun t : Target => t.busError b) k.target
  exact hsettled

theorem BytesWritten.append {s t u : State} {a : Word} {xs ys : List Byte} (h : BytesWritten s t a xs)
    (k : BytesWritten t u (a + BitVec.ofNat 32 xs.length) ys) (hlen : xs.length + ys.length ≤ 2 ^ 32) :
    BytesWritten s u a (xs ++ ys) where
  oe := k.oe
  wire := h.wire.trans k.wire
  target := k.target.trans
    (congrArg (fun v : Target => { v with mem := u.target.mem, tar := u.target.tar }) h.target)
  stored := h.stored.append k.stored hlen

theorem byteWrite_reference {a : Word} (b : Byte) {s : State} (hs : CanWriteBytes s) (hbus : s.target.busError a = false) :
    Runs (byteWrite a b).code s fun c t => c = .ok ∧ BytesWritten s t a [b] := by
  have hrun : Runs (byteWrite a b).run s fun r t => (∃ u, r = .ok u) ∧ BytesWritten s t a [b] := by
    refine runs_steps_bind ((step_wrTar hs.oe hs.bank0 a).mono fun r t ⟨u, hr, ht⟩ => ⟨u, hr, ht⟩) ?_
    rintro _ t ⟨hst, ht⟩
    have hb : t.target.Bank0 := bank0_keep hs.bank0 (by rw [ht]; exact hs.bank0.ready.clear) (by rw [ht]; rfl)
    obtain ⟨r, u, hrun, rfl, ⟨n, hu⟩, hoe, htu, -⟩ :=
      ok_wrapWrite (laneWord a b) legal_wrDrw hst.oe (by decide) (ready_answersOk hb.ready _)
    rw [wrote_drw_byte hb (by rw [ht]; exact hs.normal) (by rw [ht]; exact hs.size) (by rw [ht]; exact hbus), ht] at hu
    refine ⟨_, u, hrun, ⟨_, rfl⟩, hoe, hst.wire.trans htu, by rw [hu]; rfl, ?_⟩
    rw [show u.target.mem = Memory.writeLane s.target.mem a (laneWord a b) by rw [hu]; rfl]
    exact stored_lane hs.mem a b
  obtain ⟨_, t, hrun, ⟨_, rfl⟩, hwritten⟩ := hrun
  refine ⟨.ok, t, ?_, rfl, hwritten⟩
  rw [steps_code_eq, op_bind_ok hrun]
  rfl

theorem writeBytesLoop_reference {a : Word} {bs : List Byte} {s : State} (hs : CanWriteBytes s)
    (hsize : bs.length ≤ 2 ^ 32) (hbus : ∀ k < bs.length, s.target.busError (a + BitVec.ofNat 32 k) = false) :
    Runs (writeBytesLoop a bs) s fun c t => c = .ok ∧ BytesWritten s t a bs := by
  induction bs generalizing a s with
  | nil => exact ⟨.ok, s, rfl, rfl, hs.oe, .refl s, rfl, stored_nil hs.mem a⟩
  | cons b bs ih =>
    rw [List.length_cons] at hsize hbus
    have h0 := hbus 0 (by omega)
    rw [BitVec.add_zero] at h0
    obtain ⟨_, t, hbyte, rfl, hwritten⟩ := byteWrite_reference b hs h0
    obtain ⟨_, u, hloop, rfl, hmore⟩ := ih (a := a + BitVec.ofNat 32 1) (hs.after hwritten) (by omega) fun k hk => by
      rw [hwritten.busError, ← add_ofNat_add]
      exact hbus _ (by omega)
    refine ⟨.ok, u, ?_, rfl, hwritten.append hmore (by rw [List.length_singleton]; omega)⟩
    rw [writeBytesLoop, op_bind_ok hbyte]
    exact hloop

/-- Settles O39: the loop runs in byte size, and the second CSW write undoes the first. -/
theorem writeMem8StoresTheBytes : Obligations.WriteMem8StoresTheBytes := by
  intro addr buf s ho hb hn hbyte hwf hsize hbus
  obtain ⟨⟨_, _⟩, t, hswitch, rfl, hoe, hst, ht⟩ := wrapped_csw_reference ho hb s.params.cswByte
  have hbt : t.target.Bank0 := bank0_keep hb (by rw [ht]; exact hb.ready.clear) (by rw [ht]; rfl)
  have hcan : CanWriteBytes t := ⟨hoe, hbt, by rw [ht]; exact hn, by
    rw [ht]
    exact (cswSize_writeCsw _ _).trans hbyte, by rw [ht]; exact hwf⟩
  obtain ⟨_, u, hloop, rfl, hwritten⟩ := writeBytesLoop_reference hcan hsize (by rw [ht]; exact hbus)
  have hcanu := hcan.after hwritten
  obtain ⟨⟨_, _⟩, v, hrestore, rfl, hoe, huv, hv⟩ := wrapped_csw_reference hcanu.oe hcanu.bank0 s.params.cswWord
  have hmem : v.target.mem = u.target.mem := by rw [hv]; rfl
  have hold : t.target.mem = s.target.mem := by rw [ht]; rfl
  have hcsw : v.target.csw = writeCsw s.target.csw s.params.cswWord := by
    have hu : u.target.csw = t.target.csw := by
      have hsettled := congrArg Target.csw hwritten.target
      exact hsettled
    rw [hv, ← writeCsw_writeCsw s.target.csw s.params.cswByte]
    show writeCsw u.target.csw _ = _
    rw [hu, ht]
    rfl
  have hstored := hwritten.stored
  rw [hold, ← hmem] at hstored
  refine ⟨v, ?_, hoe, (hst.trans hwritten.wire).trans huv, hcsw, hstored.inside, hstored.outside⟩
  rw [writeMem8, op_bind_ok (op_get s), op_bind_ok hswitch]
  exact (op_bind_ok hloop _).trans (op_bind_ok hrestore _)

end Sys2Proof.Proofs

/-! PROOF. Core registers against the reference target (44_core_register R280-R283; 10_state R75): a single word access of a
debug register does to the target what 10_state R75 says and no more; the three operations follow the transfer from there. -/

namespace Sys2Proof.Proofs

open Sys2Proof Sys2Proof.Machine Sys2Proof.Laws

/-! ## The debug side of the target (10_state R75) -/

/-- The fields of the target that an access of a debug register may change. -/
structure CoreSide where
  dcrdr    : Word
  debugEn  : Bool
  regReady : Bool
  transfer : Option RegTransfer
  regLeft  : Option Nat
  coreRegs : List (Nat × Word)

def coreSide (t : Target) : CoreSide := ⟨t.dcrdr, t.debugEn, t.regReady, t.transfer, t.regLeft, t.coreRegs⟩

def withCore (c : CoreSide) (t : Target) : Target := { t with
  dcrdr := c.dcrdr, debugEn := c.debugEn, regReady := c.regReady, transfer := c.transfer, regLeft := c.regLeft,
  coreRegs := c.coreRegs }

theorem withCore_self {t : Target} {c : CoreSide} (h : coreSide t = c) : withCore c t = t := by
  subst h
  rfl

/-- Two targets that agree on what an access of a debug register looks at. -/
def SameCore (t u : Target) : Prop := coreSide u = coreSide t ∧ u.regDelay = t.regDelay

theorem Alike.withCore {t u : Target} (h : Alike t u) (c : CoreSide) : Alike (withCore c t) (withCore c u) :=
  congrArg (Proofs.withCore c) h

theorem Alike.sameCore {t u : Target} (h : Alike t u) : SameCore t u := by
  have hcore := congrArg coreSide (show u.settled = _ from h)
  have hdelay := congrArg Target.regDelay (show u.settled = _ from h)
  exact ⟨hcore, hdelay⟩

theorem bank0_withCore {t : Target} (h : t.Bank0) (c : CoreSide) : (withCore c t).Bank0 :=
  ⟨⟨h.ready.attached, h.ready.protocol, h.ready.inSync, h.ready.answers, h.ready.clear, h.ready.idle⟩, h.ap, h.bank⟩

/-! ## Single words at a debug register (43_memory_access R258, R259) -/

/-- What the single-word operations ask of the state they run from. -/
structure CanDebug (s : State) : Prop where
  oe     : s.oe = true
  bank0  : s.target.Bank0
  normal : s.target.normalTransfer = true
  mode   : WordMode s.params.cswWord
  bus    : s.target.busErrors = []

/-- An access of a debug register took effect: of the target only what `c` gives changed, but for CSW at
`CSW_WORD`, TAR, the read pipeline and READOK. -/
structure Accessed (s t : State) (c : CoreSide) : Prop where
  took  : Took s t
  alike : Alike (withCore c s.target) t.target
  mem   : t.target.mem = s.target.mem
  csw   : t.target.csw = writeCsw s.target.csw s.params.cswWord

theorem Accessed.trans {s t u : State} {c d : CoreSide} (h : Accessed s t c) (k : Accessed t u d) : Accessed s u d :=
  ⟨h.took.trans k.took, (h.alike.withCore d).trans k.alike, k.mem.trans h.mem,
    by rw [k.csw, h.csw, h.took.wire.params, writeCsw_writeCsw]⟩

theorem Accessed.coreSide {s t : State} {c : CoreSide} (h : Accessed s t c) : coreSide t.target = c := h.alike.sameCore.1

theorem Accessed.regDelay {s t : State} {c : CoreSide} (h : Accessed s t c) : t.target.regDelay = s.target.regDelay :=
  h.alike.sameCore.2

theorem CanDebug.after {s t : State} {c : CoreSide} (h : CanDebug s) (k : Accessed s t c) : CanDebug t :=
  ⟨k.took.oe, k.alike.bank0 (bank0_withCore h.bank0 c), k.alike.normalTransfer h.normal,
    by rw [k.took.wire.params]; exact h.mode, k.alike.busErrors.trans h.bus⟩

theorem busError_none {t : Target} (h : t.busErrors = []) (a : Word) : t.busError a = false := by
  rw [Target.busError, h]
  rfl

/-- CSW and TAR for a word access at `a`, the first two transactions of every chunk (R251, R252), and what follows. -/
theorem runs_addressed {β : Type} {s : State} (hs : CanDebug s) {a : Word} {f : Steps β} {Q : Except Code β → State → Prop}
    (hf : ∀ t, Took s t → t.target = Target.settled
      { s.target with csw := writeCsw s.target.csw s.params.cswWord, tar := a } → Runs f.run t Q) :
    Runs (do
      wrapWrite codeWrCsw s.params.cswWord
      wrapWrite codeWrTar a
      f : Steps β).run s Q := by
  refine runs_steps_bind ((step_wrCsw hs.oe hs.bank0 _).mono fun r t ⟨u, hr, ht⟩ => ⟨u, hr, ht⟩) ?_
  rintro _ t ⟨hst, ht⟩
  have hb : t.target.Bank0 := bank0_keep hs.bank0 (by rw [ht]; exact hs.bank0.ready.clear) (by rw [ht]; rfl)
  refine runs_steps_bind ((step_wrTar hst.oe hb a).mono fun r t ⟨u, hr, ht⟩ => ⟨u, hr, ht⟩) ?_
  rintro _ u ⟨htu, hu⟩
  exact hf u (hst.trans htu) (by rw [hu, ht]; rfl)

theorem CanDebug.addressed {s t : State} {a : Word} (hs : CanDebug s) (ht : t.target = Target.settled
    { s.target with csw := writeCsw s.target.csw s.params.cswWord, tar := a }) :
    t.target.Bank0 ∧ WordMode t.target.csw ∧ t.target.normalTransfer = true ∧ t.target.busErrors = [] ∧
      t.target.tar = a ∧ SameCore s.target t.target := by
  refine ⟨bank0_keep hs.bank0 (by rw [ht]; exact hs.bank0.ready.clear) (by rw [ht]; rfl), ?_, ?_, ?_, ?_, ?_⟩
  all_goals rw [ht]
  exacts [wordMode_writeCsw hs.mode, hs.normal, hs.bus, rfl, ⟨rfl, rfl⟩]

theorem busWrite_debug {t u : Target} (hm : WordMode t.csw) (hbus : t.busErrors = []) {w : Word}
    (hw : t.debugWrite (alignWord t.tar) w = some u) (n : Nat) : t.busWrite n w = u := by
  rw [Target.busWrite, if_neg (by simp [busError_none hbus])]
  simp only [sizeBytes_word hm, hw]

theorem busRead_debug {t : Target} {r : Word × Target} (hm : WordMode t.csw) (hbus : t.busErrors = []) {n : Nat}
    (hr : t.debugRead (Config.drawWord n) (alignWord t.tar) = some r) : t.busRead n = r := by
  rw [Target.busRead, if_neg (by simp [busError_none hbus])]
  simp only [sizeBytes_word hm, hr]

theorem step_wrDebug {s : State} (ho : s.oe = true) (hb : s.target.Bank0) (hm : WordMode s.target.csw)
    (hn : s.target.normalTransfer = true) (hbus : s.target.busErrors = []) (h4 : s.target.tar.toNat % 4 = 0)
    {w : Word} {c : CoreSide}
    (hw : ∀ u, SameCore s.target u → u.debugWrite s.target.tar w = some (withCore c u)) :
    Runs (wrapWrite codeWrDrw w).run s fun r t => ∃ x, r = .ok x ∧ Took s t ∧ ∃ tar,
      t.target = Target.settled { withCore c s.target with tar := tar } := by
  obtain ⟨r, t, hrun, rfl, ⟨n, ht⟩, hoe, hwire, hcleared⟩ :=
    ok_wrapWrite w legal_wrDrw ho (by decide) (ready_answersOk hb.ready _)
  have hwrite : (receiving s.target).busWrite n w = withCore c (receiving s.target) :=
    busWrite_debug (t := receiving s.target) hm hbus (by
      show (receiving s.target).debugWrite (alignWord s.target.tar) w = _
      rw [alignWord_of_aligned h4]
      exact hw _ ⟨rfl, rfl⟩) n
  rw [wrote_drw_normal hb hn, hwrite] at ht
  exact ⟨_, t, hrun, (), rfl, ⟨hoe, hwire, hcleared⟩, _, ht⟩

theorem step_rdDebug {s : State} (ho : s.oe = true) (hb : s.target.Bank0) (hm : WordMode s.target.csw)
    (hbus : s.target.busErrors = []) (h4 : s.target.tar.toNat % 4 = 0) {v : Word} {c : CoreSide}
    (hr : ∀ fresh u, SameCore s.target u → u.debugRead fresh s.target.tar = some (v, withCore c u)) :
    Runs (wrapRead codeRdDrw).run s fun r t => ∃ x, r = .ok x ∧ Took s t ∧ ∃ tar, t.target = Target.settled
      { withCore c s.target with ctrlStat := s.target.afterRead, rdbuf := v, stale := false, tar := tar } := by
  obtain ⟨r, t, hrun, n, rfl, ht, hoe, hwire, hcleared⟩ :=
    ok_wrapRead legal_rdDrw ho (by decide) (ready_answersOk hb.ready _)
  have hread : (hearing s.target).busRead n = (v, withCore c (hearing s.target)) :=
    busRead_debug (t := hearing s.target) hm hbus (by
      show (hearing s.target).debugRead _ (alignWord s.target.tar) = _
      rw [alignWord_of_aligned h4]
      exact hr _ _ ⟨rfl, rfl⟩)
  rw [(performRead_drw hb n).2, hread] at ht
  exact ⟨_, t, hrun, _, rfl, ⟨hoe, hwire, hcleared⟩, _, ht⟩

theorem SameCore.trans {t u v : Target} (h : SameCore t u) (k : SameCore u v) : SameCore t v :=
  ⟨k.1.trans h.1, k.2.trans h.2⟩

/-- A word written to a debug register has the effect the register gives it (R258). -/
theorem writeWord_debug {a w : Word} {c : CoreSide} {s : State} (hs : CanDebug s) (h4 : a.toNat % 4 = 0)
    (hw : ∀ u, SameCore s.target u → u.debugWrite a w = some (withCore c u)) :
    Runs (writeWord a w) s fun e t => e = .ok ∧ Accessed s t c := by
  have hsteps : Runs (writeChunkSteps a [w]).run s fun r t => (∃ x, r = .ok x) ∧ Accessed s t c := by
    unfold writeChunkSteps
    refine runs_steps_bind (P := fun x t => s = x ∧ s = t) ⟨_, s, rfl, s, rfl, rfl, rfl⟩ ?_
    rintro _ _ ⟨rfl, rfl⟩
    refine runs_addressed hs fun t hst ht => ?_
    obtain ⟨hb, hm, hn, hbus, htar, hsame⟩ := hs.addressed ht
    refine runs_steps_bind (P := fun _ u => Took t u ∧ ∃ tar, u.target = Target.settled
      { withCore c t.target with tar := tar }) ?_ ?_
    · rw [writeWordsLoop]
      refine runs_steps_bind ((step_wrDebug (c := c) hst.oe hb hm hn hbus (by rw [htar]; exact h4)
        fun u hu => by rw [htar]; exact hw u (hsame.trans hu)).mono fun r t ⟨u, hr, ht⟩ => ⟨u, hr, ht⟩) ?_
      rintro _ u hu
      exact ⟨_, u, rfl, (), rfl, hu⟩
    · rintro _ u ⟨htu, tar, hu⟩
      have hbu : u.target.Bank0 := by rw [hu]; exact bank0_settled (bank0_keep (bank0_withCore hb c) hb.ready.clear rfl)
      refine runs_steps_bind ((step_rdRdbuff htu.oe hbu.ready).mono fun r t ⟨w, hr, ht⟩ => ⟨w, hr, ht⟩) ?_
      rintro _ v ⟨-, huv, hv⟩
      rw [hu, ht] at hv
      have hall : v.target.settled = Target.settled { withCore c s.target with
          ctrlStat := (withCore c s.target).afterRead, mem := s.target.mem,
          csw := writeCsw s.target.csw s.params.cswWord, tar := tar, rdbuf := s.target.rdbuf,
          stale := s.target.stale } := by rw [hv]; rfl
      obtain ⟨halike, hmem, hcsw, -⟩ := alike_of_settled hall
      exact ⟨_, v, rfl, ⟨_, rfl⟩, hst.trans (htu.trans huv), halike, hmem, hcsw⟩
  obtain ⟨_, t, hrun, ⟨_, rfl⟩, hacc⟩ := hsteps
  refine ⟨.ok, t, ?_, rfl, hacc⟩
  rw [writeWord, writeWord32Chunk_eq (buf := wordBytes w) (wordAligned_iff.2 ⟨h4, by rw [wordBytes_length]⟩)
    (withinPage_word h4) (by simp), bufWords_wordBytes, steps_code_eq, op_bind_ok hrun]
  rfl

/-- A word read from a debug register is the one the register gives (R259). -/
theorem readWord_debug {a v : Word} {c : CoreSide} {s : State} (hs : CanDebug s) (h4 : a.toNat % 4 = 0)
    (hr : ∀ fresh u, SameCore s.target u → u.debugRead fresh a = some (v, withCore c u)) :
    Runs (readWord a) s fun r t => r = (.ok, v) ∧ Accessed s t c := by
  have hstart : Runs (startRead a).run s fun r t => (∃ x, r = .ok x) ∧ Took s t ∧ ∃ tar, t.target = Target.settled
      { withCore c s.target with
        ctrlStat := s.target.afterRead, csw := writeCsw s.target.csw s.params.cswWord, rdbuf := v, stale := false,
        tar := tar } := by
    unfold startRead
    refine runs_steps_bind (P := fun x t => s = x ∧ s = t) ⟨_, s, rfl, s, rfl, rfl, rfl⟩ ?_
    rintro _ _ ⟨rfl, rfl⟩
    refine runs_addressed hs fun t hst ht => ?_
    obtain ⟨hb, hm, -, hbus, htar, hsame⟩ := hs.addressed ht
    refine runs_steps_bind ((step_rdDebug (v := v) (c := c) hst.oe hb hm hbus (by rw [htar]; exact h4)
      fun fresh u hu => by rw [htar]; exact hr fresh u (hsame.trans hu)).mono fun r t ⟨u, hr, ht⟩ => ⟨u, hr, ht⟩) ?_
    rintro _ u ⟨htu, tar, hu⟩
    exact ⟨_, u, rfl, ⟨_, rfl⟩, hst.trans htu, tar, by rw [hu, ht]; rfl⟩
  obtain ⟨_, t, hrun, ⟨_, rfl⟩, hst, tar, ht⟩ := hstart
  have hcode : (startRead a).code s = .ok (.ok, t) := by
    rw [steps_code_eq, op_bind_ok hrun]
    rfl
  have hb : t.target.Bank0 := by
    rw [ht]
    exact bank0_settled (bank0_keep (bank0_withCore hs.bank0 c) (clear_afterRead hs.bank0) rfl)
  obtain ⟨_, u, hreads, rfl, htu, tar', rdbuf, hu⟩ := readsStored_ok 0 (a := a) hst.oe hb
    (by rw [ht]; exact wordMode_writeCsw hs.mode) h4 (by omega) (by rw [ht]; rfl) (by simp) (by simp)
  have hafter : t.target.afterRead = s.target.afterRead := by rw [ht]; exact afterRead_afterRead s.target
  have hall : u.target.settled = Target.settled { withCore c s.target with
      ctrlStat := (withCore c s.target).afterRead, mem := s.target.mem,
      csw := writeCsw s.target.csw s.params.cswWord, tar := tar', rdbuf := rdbuf, stale := false } := by
    rw [hu, hafter, ht]
    rfl
  obtain ⟨halike, hmem, hcsw, -⟩ := alike_of_settled hall
  have hrd : t.target.rdbuf = v := by rw [ht]; rfl
  rw [hst.cleared, hrd] at hreads
  refine ⟨_, u, ?_, rfl, hst.trans htu, halike, hmem, hcsw⟩
  have hsteps : readChunkSteps a (4 / 4) s = .ok ((.ok, [v]), u) := by
    rw [readChunkSteps, op_bind_ok (op_get s), op_bind_ok hcode, if_pos rfl]
    exact hreads
  have hchunk : readWord32Chunk a 4 s = .ok ((.ok, wordBytes v), u) := by
    rw [readWord32Chunk_eq (wordAligned_iff.2 ⟨h4, rfl⟩) (withinPage_word h4) (by decide), op_bind_ok hsteps]
    rfl
  rw [readWord, op_bind_ok hchunk]
  dsimp only
  rw [bufWords_wordBytes]
  rfl

end Sys2Proof.Proofs

/-! PROOF. The core register operations (44_core_register R280-R283): the writes and reads of DCRSR, DCRDR and DHCSR they are
made of, with a transfer that finishes at once and with one that never does. -/

namespace Sys2Proof.Proofs

open Sys2Proof Sys2Proof.Machine Sys2Proof.Laws

/-! ## What each debug register does (10_state R75) -/

theorem debugWrite_dcrdr (t : Target) (w : Word) :
    t.debugWrite addrDcrdr w = some (withCore { coreSide t with dcrdr := w } t) := by
  rw [Target.debugWrite, if_neg (by decide), if_neg (by decide), if_pos rfl]
  rfl

theorem debugWrite_dcrsr (t : Target) (w : Word) : t.debugWrite addrDcrsr w = some (t.startTransfer w) := by
  rw [Target.debugWrite, if_neg (by decide), if_pos rfl]

/-- The debug side after a transfer of register `x` that finished at once. -/
def transferred (c : CoreSide) (x : RegTransfer) : CoreSide :=
  if x.isWrite then
    { c with coreRegs := sparseSet 0 c.coreRegs x.index.toNat c.dcrdr, regReady := true, transfer := none, regLeft := none }
  else { c with dcrdr := sparseGet 0 c.coreRegs x.index.toNat, regReady := true, transfer := none, regLeft := none }

theorem finishTransfer_eq {t : Target} {x : RegTransfer} (h : t.transfer = some x) :
    t.finishTransfer = withCore (transferred (coreSide t) x) t := by
  rw [Target.finishTransfer, h, transferred]
  dsimp only
  split <;> rfl

theorem startTransfer_atOnce {t : Target} (h : t.regDelay = some 0) (w : Word) :
    t.startTransfer w = withCore (transferred (coreSide t) ⟨w.extractLsb' 0 8, w.getLsbD 16⟩) t := by
  rw [Target.startTransfer]
  generalize (⟨w.extractLsb' 0 8, w.getLsbD 16⟩ : RegTransfer) = x
  dsimp only
  rw [if_pos h, finishTransfer_eq rfl, transferred, transferred]
  split <;> rfl

theorem startTransfer_never {t : Target} (h : t.regDelay = none) (w : Word) : t.startTransfer w =
    withCore { coreSide t with transfer := some ⟨w.extractLsb' 0 8, w.getLsbD 16⟩, regReady := false, regLeft := none } t := by
  rw [Target.startTransfer]
  dsimp only
  rw [if_neg (by rw [h]; decide)]
  conv_rhs => rw [← h]
  rfl

theorem debugRead_dhcsr {t : Target} (h : t.regLeft = none) (fresh : Word) :
    t.debugRead fresh addrDhcsr = some (t.dhcsrWord, t) := by
  rw [Target.debugRead, if_pos rfl, Target.countRegRead, h]

theorem debugRead_dcrdr {t : Target} (h : t.transfer = none) (fresh : Word) :
    t.debugRead fresh addrDcrdr = some (t.dcrdr, t) := by
  rw [Target.debugRead, if_neg (by decide), if_neg (by decide), if_pos rfl, if_pos h]

/-- DHCSR read back as a word shows S_REGRDY exactly when no transfer is pending. -/
theorem dhcsrWord_ready_iff (t : Target) : t.dhcsrWord &&& sRegRdy ≠ 0 ↔ t.regReady = true := by
  unfold Target.dhcsrWord
  cases t.regReady <;> cases t.debugEn <;> decide

section
variable {t u : Target}

theorem SameCore.regReady (h : SameCore t u) : u.regReady = t.regReady := congrArg CoreSide.regReady h.1
theorem SameCore.debugEn (h : SameCore t u) : u.debugEn = t.debugEn := congrArg CoreSide.debugEn h.1
theorem SameCore.regLeft (h : SameCore t u) : u.regLeft = t.regLeft := congrArg CoreSide.regLeft h.1
theorem SameCore.transfer (h : SameCore t u) : u.transfer = t.transfer := congrArg CoreSide.transfer h.1
theorem SameCore.dcrdr (h : SameCore t u) : u.dcrdr = t.dcrdr := congrArg CoreSide.dcrdr h.1

end

/-! ## The same, as single-word operations -/

theorem writeWord_dcrdr {s : State} (hs : CanDebug s) (w : Word) :
    Runs (writeWord addrDcrdr w) s fun e t => e = .ok ∧ Accessed s t { coreSide s.target with dcrdr := w } :=
  writeWord_debug hs (by decide) fun u hu => by rw [debugWrite_dcrdr, hu.1]

theorem writeWord_dcrsr_atOnce {s : State} (hs : CanDebug s) (hd : s.target.regDelay = some 0) (w : Word) :
    Runs (writeWord addrDcrsr w) s fun e t =>
      e = .ok ∧ Accessed s t (transferred (coreSide s.target) ⟨w.extractLsb' 0 8, w.getLsbD 16⟩) :=
  writeWord_debug hs (by decide) fun u hu => by rw [debugWrite_dcrsr, startTransfer_atOnce (hu.2.trans hd), hu.1]

theorem writeWord_dcrsr_never {s : State} (hs : CanDebug s) (hd : s.target.regDelay = none) (w : Word) :
    Runs (writeWord addrDcrsr w) s fun e t => e = .ok ∧ Accessed s t { coreSide s.target with
      transfer := some ⟨w.extractLsb' 0 8, w.getLsbD 16⟩, regReady := false, regLeft := none } :=
  writeWord_debug hs (by decide) fun u hu => by rw [debugWrite_dcrsr, startTransfer_never (hu.2.trans hd), hu.1]

theorem readWord_dhcsr {s : State} (hs : CanDebug s) (hl : s.target.regLeft = none) :
    Runs (readWord addrDhcsr) s fun r t => r = (.ok, s.target.dhcsrWord) ∧ Accessed s t (coreSide s.target) :=
  readWord_debug hs (by decide) fun fresh u hu => by
    rw [debugRead_dhcsr (hu.regLeft.trans hl), withCore_self hu.1, Target.dhcsrWord, Target.dhcsrWord, hu.regReady,
      hu.debugEn]

theorem readWord_dcrdr {s : State} (hs : CanDebug s) (ht : s.target.transfer = none) :
    Runs (readWord addrDcrdr) s fun r t => r = (.ok, s.target.dcrdr) ∧ Accessed s t (coreSide s.target) :=
  readWord_debug hs (by decide) fun fresh u hu => by
    rw [debugRead_dcrdr (hu.transfer.trans ht), withCore_self hu.1, hu.dcrdr]

/-! ## The ready poll (44_core_register R280) -/

theorem pollReady_ready {s : State} (hs : CanDebug s) (hpoll : 1 ≤ s.params.regPollMax) (hl : s.target.regLeft = none)
    (hr : s.target.regReady = true) :
    Runs pollReady s fun e t => e = .ok ∧ Accessed s t (coreSide s.target) := by
  obtain ⟨_, t, hread, rfl, hacc⟩ := readWord_dhcsr hs hl
  obtain ⟨k, hk⟩ : ∃ k, s.params.regPollMax = k + 1 := ⟨s.params.regPollMax - 1, by omega⟩
  refine ⟨.ok, t, ?_, rfl, hacc⟩
  rw [pollReady, op_bind_ok (op_get s), hk, pollReadyLoop, op_bind_ok hread]
  dsimp only
  rw [if_pos rfl, if_pos ((dhcsrWord_ready_iff _).2 hr)]
  rfl

/-- With a transfer that never finishes every attempt reads S_REGRDY as 0 (R283). -/
theorem pollReadyLoop_never (k : Nat) {s : State} (hs : CanDebug s) (hl : s.target.regLeft = none)
    (hr : s.target.regReady = false) :
    Runs (pollReadyLoop k) s fun e t => e = .soft ∧ t.oe = true ∧ WireOnly s t := by
  induction k generalizing s with
  | zero => exact ⟨.soft, s, rfl, rfl, hs.oe, .refl s⟩
  | succ k ih =>
    obtain ⟨_, t, hread, rfl, hacc⟩ := readWord_dhcsr hs hl
    have hsame := hacc.coreSide
    obtain ⟨e, u, hloop, hsoft, hoe, hwire⟩ := ih (hs.after hacc) ((congrArg CoreSide.regLeft hsame).trans hl)
      ((congrArg CoreSide.regReady hsame).trans hr)
    refine ⟨e, u, ?_, hsoft, hoe, hacc.took.wire.trans hwire⟩
    rw [pollReadyLoop, op_bind_ok hread]
    dsimp only
    rw [if_pos rfl, if_neg (by rw [dhcsrWord_ready_iff, hr]; decide)]
    split
    · exact hloop
    · exact hloop

/-! ## The three operations (R281, R282, R283) -/

/-- DCRSR names the register in bits [7:0] and a write in bit 16 (10_state R75). -/
theorem dcrsr_read (index : Byte) : (⟨(index.setWidth 32).extractLsb' 0 8, (index.setWidth 32).getLsbD 16⟩ : RegTransfer) =
    ⟨index, false⟩ := by
  revert index
  decide

theorem dcrsr_write (index : Byte) : (⟨(index.setWidth 32 ||| writeFlag).extractLsb' 0 8,
    (index.setWidth 32 ||| writeFlag).getLsbD 16⟩ : RegTransfer) = ⟨index, true⟩ := by
  revert index
  decide

/-- Settles O41: the transfer fills DCRDR, the poll sees it ready, the read gives DCRDR. -/
theorem readCoreRegReturnsTheRegister : Obligations.ReadCoreRegReturnsTheRegister := by
  intro index s ho hb hn hm hpoll hd hbus
  have hs : CanDebug s := ⟨ho, hb, hn, hm, hbus⟩
  obtain ⟨_, t, hstart, rfl, hst⟩ := writeWord_dcrsr_atOnce hs hd (index.setWidth 32)
  rw [dcrsr_read] at hst
  have ht := hs.after hst
  have hcore : coreSide t.target = transferred (coreSide s.target) ⟨index, false⟩ := hst.coreSide
  obtain ⟨_, u, hready, rfl, htu⟩ := pollReady_ready ht (by rw [hst.took.wire.params]; exact hpoll)
    (congrArg CoreSide.regLeft hcore) (congrArg CoreSide.regReady hcore)
  have hcoreu : coreSide u.target = transferred (coreSide s.target) ⟨index, false⟩ := htu.coreSide.trans hcore
  obtain ⟨_, v, hread, rfl, huv⟩ := readWord_dcrdr (ht.after htu) (congrArg CoreSide.transfer hcoreu)
  have hvalue : u.target.dcrdr = sparseGet 0 s.target.coreRegs index.toNat := congrArg CoreSide.dcrdr hcoreu
  have hall := (hst.trans htu).trans huv
  rw [hvalue] at hread
  refine ⟨v, ?_, hall.took.oe, hall.took.wire, ?_, hall.mem⟩
  · rw [readCoreReg, op_bind_ok hstart, if_pos rfl, op_bind_ok hready, if_pos rfl, op_bind_ok hread]
    rfl
  · exact congrArg CoreSide.coreRegs (huv.coreSide.trans hcoreu)

/-- Settles O42: DCRDR holds the value when the transfer takes it. -/
theorem writeCoreRegSetsTheRegister : Obligations.WriteCoreRegSetsTheRegister := by
  intro index v s ho hb hn hm hpoll hd hbus hwf
  have hs : CanDebug s := ⟨ho, hb, hn, hm, hbus⟩
  obtain ⟨_, t, hvalue, rfl, hst⟩ := writeWord_dcrdr hs v
  have ht := hs.after hst
  obtain ⟨_, u, hstart, rfl, htu⟩ := writeWord_dcrsr_atOnce ht (hst.regDelay.trans hd) (index.setWidth 32 ||| writeFlag)
  rw [dcrsr_write, hst.coreSide] at htu
  have hu := ht.after htu
  have hcore := htu.coreSide
  obtain ⟨_, x, hready, rfl, hux⟩ := pollReady_ready hu
    (by rw [htu.took.wire.params, hst.took.wire.params]; exact hpoll)
    (congrArg CoreSide.regLeft hcore) (congrArg CoreSide.regReady hcore)
  have hall := (hst.trans htu).trans hux
  have hregs : x.target.coreRegs = sparseSet 0 s.target.coreRegs index.toNat v :=
    congrArg CoreSide.coreRegs (hux.coreSide.trans hcore)
  refine ⟨x, ?_, hall.took.oe, hall.took.wire, fun j => ?_, hall.mem⟩
  · rw [writeCoreReg, op_bind_ok hvalue, if_pos rfl, op_bind_ok hstart, if_pos rfl]
    exact hready
  · rw [hregs, sparseGet_sparseSet hwf]
    simp only [BitVec.toNat_inj]

/-- Settles O43: the poll runs out of attempts. -/
theorem registerTimeoutIsSoft : Obligations.RegisterTimeoutIsSoft := by
  intro index s ho hb hn hm hd hbus
  have hs : CanDebug s := ⟨ho, hb, hn, hm, hbus⟩
  obtain ⟨_, t, hstart, rfl, hst⟩ := writeWord_dcrsr_never hs hd (index.setWidth 32)
  have hcore := hst.coreSide
  obtain ⟨_, u, hpoll, rfl, hoe, htu⟩ := pollReadyLoop_never t.params.regPollMax (hs.after hst)
    (congrArg CoreSide.regLeft hcore) (congrArg CoreSide.regReady hcore)
  have hready : pollReady t = .ok (.soft, u) := by
    rw [pollReady, op_bind_ok (op_get t)]
    exact hpoll
  refine ⟨Config.drawWord u.draws, u.setDraws (u.draws + 1), ?_, hoe,
    (hst.took.wire.trans htu).trans (wireOnly_setDraws _ u)⟩
  rw [readCoreReg, op_bind_ok hstart, if_pos rfl, op_bind_ok hready]
  rfl

end Sys2Proof.Proofs

/-! PROOF. `open` on the reference target (45_session R301-R308; 10_state R63, R71, R72, R75): the line reset brings the port
to SWD and the IDCODE, ABORT clears the flags, and from there every step is answered OK. -/

namespace Sys2Proof.Proofs

open Sys2Proof Sys2Proof.Machine Sys2Proof.Laws

/-! ## The line reset (42_error_recovery R224, R225; 10_state R71) -/

/-- Whatever protocol the port spoke, the switch sequence and the line reset behind it leave it in SWD, waiting for the
IDCODE read. -/
theorem onLineReset_onSwitch {t : Target} (hat : t.attached = true) (n m : Nat) :
    ((t.onLineReset n).onSwitch .swd).onLineReset m =
      { t with protocol := .swd, expectsIdcode := true, stale := true, rdbuf := Config.drawWord m } := by
  by_cases hp : t.protocol = .swd <;> simp [Target.onLineReset, Target.onSwitch, hat, hp]

theorem swdConnectSequence_reference {s : State} (hat : s.target.attached = true) :
    Runs swdConnectSequence s fun _ t => t.oe = true ∧ WireOnly s t ∧ ∃ rdbuf, t.target =
      { s.target with protocol := .swd, expectsIdcode := true, stale := true, rdbuf := rdbuf } := by
  obtain ⟨_, t, hrun, -, hwire, hoe⟩ := swdConnectSequence_runs s
  refine ⟨(), t, hrun, hoe, hwire, ?_⟩
  obtain ⟨u, n, hfirst, hu⟩ := lineResetRun_eq (s := s.setOe true) rfl
  have hou : u.oe = true := by rw [hu, setDraws_oe, setTarget_oe, outCells_oe, setOe_oe]
  have htu : u.target = s.target.onLineReset n := by rw [hu]; rfl
  have hswitch := sendJtagToSwd_eq hou
  generalize hv : ((State.outCells (lsbBits 16 (jtagToSwdValue.setWidth 32)) u).setTarget (u.target.onSwitch .swd)).setDraws
    (u.draws + targetDraws) = v at hswitch
  have hov : v.oe = true := by rw [← hv, setDraws_oe, setTarget_oe, outCells_oe, hou]
  have htv : v.target = (s.target.onLineReset n).onSwitch .swd := by rw [← hv, setDraws_target, setTarget_target, htu]
  obtain ⟨w, m, hsecond, hw⟩ := lineResetRun_eq hov
  have how : w.oe = true := by rw [hw, setDraws_oe, setTarget_oe, outCells_oe, hov]
  have htw : w.target = ((s.target.onLineReset n).onSwitch .swd).onLineReset m := by
    rw [hw, setDraws_target, setTarget_target, htv]
  have hall : swdConnectSequence s = .ok ((), State.outCells (List.replicate w.params.idleBits false) w) := by
    rw [swdConnectSequence, op_bind_ok (op_setDataLineOutput s), op_bind_ok hfirst, op_bind_ok hswitch,
      op_bind_ok hsecond, idleRun_eq how]
  cases hrun.symm.trans hall
  exact ⟨_, by rw [outCells_target, htw, onLineReset_onSwitch hat]⟩

/-- A line reset gives the IDCODE and a port that answers; what the read pipeline holds is unspecified (log 11). -/
theorem lineReset_reference {s : State} (hat : s.target.attached = true) (han : s.target.answers = []) :
    Runs lineReset s fun r t => r = (.ok, s.target.idcode) ∧ t.oe = true ∧ WireOnly s t ∧ ∃ rdbuf, t.target =
      Target.settled { s.target with protocol := .swd, expectsIdcode := false, stale := true, rdbuf := rdbuf } := by
  refine Runs.bind (swdConnectSequence_reference hat) ?_
  rintro _ t ⟨hoe, hst, rdbuf, ht⟩
  refine runs_bind_of_ok (t := t.setDraws (t.draws + 1)) rfl ?_
  have hanswers : AnswersOk (t.setDraws (t.draws + 1)).target codeRdIdcode := by
    rw [setDraws_target, ht]
    exact answersOk_rdIdcode hat rfl han
  refine (ok_read (s := t.setDraws (t.draws + 1)) _ legal_rdIdcode hoe (by decide) hanswers).mono ?_
  rintro _ u ⟨rfl, hu, hoe, htu⟩
  refine ⟨?_, hoe, (hst.trans (wireOnly_setDraws _ t)).trans htu, rdbuf, ?_⟩
  · rw [performRead_rdIdcode, setDraws_target, ht]
    rfl
  · rw [hu, performRead_rdIdcode, setDraws_target, ht]
    rfl

/-! ## CTRL/STAT while `open` runs (10_state R54, R72) -/

theorem and_of_and {c m v k : Word} (h : c &&& m = v) (hk : m &&& k = k) : c &&& k = v &&& k := by
  rw [← h, BitVec.and_assoc, hk]

/-- Powered up, no sticky flag, no transfer mode or count: what `open` writes and finds (R304, R306). -/
def Powered (c : Word) : Prop := c &&& 0xF0FFF0BE#32 = 0xF0000000#32

theorem Powered.clear {c : Word} (h : Powered c) : stickySet c = false := by
  have hz : c &&& stickyMask = 0 := (and_of_and h (by decide)).trans (by decide)
  rw [stickySet, hz]
  rfl

theorem Powered.acknowledged {c : Word} (h : Powered c) : c &&& ctrlPwrupAckMask = ctrlPwrupAckMask :=
  (and_of_and h (by decide)).trans (by decide)

theorem Powered.normal {c : Word} (h : Powered c) : c &&& 0x00FFF00C = 0 :=
  (and_of_and h (by decide)).trans (by decide)

theorem Powered.status {c : Word} (h : Powered c) : c &&& 0xF00000B2#32 = 0xF0000000#32 :=
  (and_of_and h (by decide)).trans (by decide)

theorem Powered.afterRead {t : Target} (h : Powered t.ctrlStat) : Powered t.afterRead := by
  unfold Target.afterRead
  split
  · rw [Powered, BitVec.and_or_distrib_right, show (0x00000040 &&& 0xF0FFF0BE#32) = 0#32 by decide, BitVec.or_zero]
    exact h
  · exact h

theorem getLsbD_of_stickySet {c : Word} (h : stickySet c = false) {k : Nat} (hk : stickyMask.getLsbD k = true) :
    c.getLsbD k = false := by
  have hz : c &&& stickyMask = 0 := by simpa [stickySet] using h
  have hbit := congrArg (fun w : Word => w.getLsbD k) hz
  simp only [BitVec.getLsbD_and, hk, Bool.and_true] at hbit
  simpa using hbit

/-- With a power-up delay of 0 the power-up request is acknowledged as it is written (R72). -/
theorem powered_written {t : Target} (hs : stickySet t.ctrlStat = false) :
    Powered (settlePower (t.statusWritten ctrlPwrupReq)) := by
  apply BitVec.eq_of_getLsbD_eq
  intro k hk
  have hcases : ∀ k < 32, (0xF0FFF0BE#32).getLsbD k = false ∧ (0xF0000000#32).getLsbD k = false ∨
      (0xF0FFF0BE#32).getLsbD k = true ∧ k ≠ 27 ∧
        (k = 31 ∨ k = 29 ∨ k ≠ 31 ∧ k ≠ 29 ∧ ctrlStatWritable.getLsbD k = true ∧
            ctrlPwrupReq.getLsbD k = (0xF0000000#32).getLsbD k ∨
          k ≠ 31 ∧ k ≠ 29 ∧ ctrlStatWritable.getLsbD k = false ∧ stickyMask.getLsbD k = true ∧
            (0xF0000000#32).getLsbD k = false) := by decide
  have hreq : ∀ k ∈ [28, 30], (t.statusWritten ctrlPwrupReq).getLsbD k = true := by
    intro k hk
    have hw : ∀ k ∈ [28, 30], k < 32 ∧ k ≠ 27 ∧ ctrlStatWritable.getLsbD k = true ∧ ctrlPwrupReq.getLsbD k = true := by
      decide
    obtain ⟨h32, h27, hm, hv⟩ := hw k hk
    rw [getLsbD_statusWritten _ _ h32, if_neg fun h => h27 h.1, if_pos hm, hv]
  rw [BitVec.getLsbD_and]
  obtain ⟨hm, hv⟩ | ⟨hm, h27, hbit⟩ := hcases k hk
  · rw [hm, hv, Bool.and_false]
  · rw [hm, Bool.and_true, getLsbD_settlePower _ hk]
    obtain rfl | rfl | ⟨h31, h29, hw, hv⟩ | ⟨h31, h29, hw, hsticky, hv⟩ := hbit
    · rw [if_pos rfl, hreq 30 (by simp)]
      rfl
    · rw [if_neg (by decide), if_pos rfl, hreq 28 (by simp)]
      rfl
    · rw [if_neg h31, if_neg h29, getLsbD_statusWritten _ _ hk, if_neg fun h => h27 h.1, if_pos hw, hv]
    · rw [if_neg h31, if_neg h29, getLsbD_statusWritten _ _ hk, if_neg fun h => h27 h.1, if_neg (by rw [hw]; decide),
        getLsbD_of_stickySet hs hsticky, hv]

/-! ## One step answered OK, and what follows it -/

theorem runs_wrapWrite {β : Type} {code : Byte} {data : Word} {f : Unit → Steps β} {s : State}
    {Q : Except Code β → State → Prop} (hc : isLegalCode code = true) (ho : s.oe = true) (hw : isRead code = false)
    (h : AnswersOk s.target code)
    (hf : ∀ t n, Took s t → t.target = wrote n code data s.target → Runs (f ()).run t Q) :
    Runs (wrapWrite code data >>= f).run s Q := by
  refine runs_steps_bind (P := fun _ t => Took s t ∧ ∃ n, t.target = wrote n code data s.target) ?_ ?_
  · obtain ⟨_, t, hrun, rfl, ⟨n, ht⟩, hoe, hwire, hcleared⟩ := ok_wrapWrite data hc ho hw h
    exact ⟨_, t, hrun, (), rfl, ⟨hoe, hwire, hcleared⟩, n, ht⟩
  · rintro _ t ⟨hst, n, ht⟩
    exact hf t n hst ht

theorem runs_wrapRead {β : Type} {code : Byte} {f : Word → Steps β} {s : State}
    {Q : Except Code β → State → Prop} (hc : isLegalCode code = true) (ho : s.oe = true) (hr : isRead code = true)
    (h : AnswersOk s.target code)
    (hf : ∀ t n, Took s t → t.target = wasRead n code s.target →
      Runs (f ((heard code s.target).performRead n code).1).run t Q) :
    Runs (wrapRead code >>= f).run s Q := by
  refine runs_steps_bind (P := fun w t => Took s t ∧ ∃ n, w = ((heard code s.target).performRead n code).1 ∧
    t.target = wasRead n code s.target) ?_ ?_
  · obtain ⟨_, t, hrun, n, rfl, ht, hoe, hwire, hcleared⟩ := ok_wrapRead hc ho hr h
    exact ⟨_, t, hrun, _, rfl, ⟨hoe, hwire, hcleared⟩, n, rfl, ht⟩
  · rintro _ t ⟨hst, n, rfl, ht⟩
    exact hf t n hst ht

/-! ## The steps of `open` (45_session R302-R308) -/

theorem powerUpPoll_reference {s : State} (ho : s.oe = true) (hl : s.target.Listening) (hb : dpBankSel s.target.select = 0)
    (hleft : s.target.pwrLeft = none) (hp : Powered s.target.ctrlStat) (hpoll : 1 ≤ s.params.pwrPollMax) :
    Runs powerUpPoll.run s fun r t => ∃ u, r = .ok u ∧ Took s t ∧ t.target = s.target.settled := by
  obtain ⟨k, hk⟩ : ∃ k, s.params.pwrPollMax = k + 1 := ⟨s.params.pwrPollMax - 1, by omega⟩
  unfold powerUpPoll
  refine runs_steps_bind (P := fun x t => s = x ∧ s = t) ⟨_, s, rfl, s, rfl, rfl, rfl⟩ ?_
  rintro _ _ ⟨rfl, rfl⟩
  rw [hk, powerUpPollLoop]
  refine runs_wrapRead legal_rdCtrlstat ho (by decide) (listening_answersOk hl (by decide)) fun t n hst ht => ?_
  rw [heard_of_ne (by decide), performRead_ctrlStat (by exact hb), readCtrlStat_fst,
    if_pos (by exact hp.acknowledged)]
  exact ⟨_, t, rfl, (), rfl, hst, ht.trans (wasRead_ctrlStat_idle hleft n)⟩

/-- The AP identification reads the IDR through the pipeline and RDBUFF (R307). -/
theorem identifyAp_reference {s : State} (ho : s.oe = true) (hr : s.target.Ready)
    (hidr : s.params.idrCheck = true → s.target.idr ≠ 0) :
    Runs identifyAp.run s fun r t => ∃ u, r = .ok u ∧ Took s t ∧ t.target = Target.settled { s.target with
      ctrlStat := s.target.afterRead, select := selectIdrBank, rdbuf := s.target.idr, stale := false } := by
  unfold identifyAp
  refine runs_wrapWrite legal_wrSelect ho (by decide) (ready_answersOk hr _) fun t n hst ht => ?_
  rw [wrote_select] at ht
  have hrt : t.target.Ready := by
    rw [ht]
    exact ⟨hr.attached, hr.protocol, hr.inSync, hr.answers, hr.clear, hr.idle⟩
  have hselect : t.target.select = selectIdrBank := by rw [ht]
  have hap : apSel t.target.select = 0 := by rw [hselect]; decide
  have hbank : apBankSel t.target.select = 0xF := by rw [hselect]; decide
  refine runs_wrapRead legal_rdIdr hst.oe (by decide) (ready_answersOk hrt _) fun u m htu hu => ?_
  rw [wasRead_of_ne (by decide), performRead_idr (by exact hap) (by exact hbank)] at hu
  have hu' : u.target = Target.settled { s.target with
      ctrlStat := s.target.afterRead, select := selectIdrBank, rdbuf := s.target.idr, stale := false } := by
    rw [hu, ht]
    rfl
  have hru : u.target.Ready := by
    rw [hu']
    exact ⟨hr.attached, hr.protocol, hr.inSync, hr.answers, (stickySet_afterRead _).trans hr.clear, hr.idle⟩
  refine runs_wrapRead legal_rdRdbuff htu.oe (by decide) (ready_answersOk hru _) fun v k huv hv => ?_
  obtain ⟨hleft, hword⟩ := wasRead_rdbuff hru k
  rw [hleft] at hv
  have hsame : u.target.afterRead = s.target.afterRead := by rw [hu']; exact afterRead_afterRead s.target
  have hidrRead : u.target.rdbuf = s.target.idr := by rw [hu']; rfl
  rw [hword, hidrRead]
  refine runs_steps_bind (P := fun x t => v = x ∧ v = t) ⟨_, v, rfl, v, rfl, rfl, rfl⟩ ?_
  rintro _ _ ⟨rfl, rfl⟩
  have hparams : v.params = s.params := ((hst.trans htu).trans huv).wire.params
  have hcheck : ¬ (v.params.idrCheck && s.target.idr == 0) = true := by
    rw [hparams]
    simpa using hidr
  rw [if_neg hcheck]
  refine ⟨_, v, rfl, (), rfl, (hst.trans htu).trans huv, ?_⟩
  rw [hv, hsame, hu']
  rfl

/-- What `open` asks of the reference target behind its line reset. -/
structure CanOpen (s : State) : Prop where
  oe     : s.oe = true
  listen : s.target.Listening
  idle   : s.target.busy = 0
  delay  : s.target.pwrDelay = some 0
  bus    : s.target.busErrors = []
  mode   : WordMode s.params.cswWord
  poll   : 1 ≤ s.params.pwrPollMax
  idr    : s.params.idrCheck = true → s.target.idr ≠ 0

/-- The target between two steps of `open`: only these fields have changed. -/
def stage (t : Target) (ctrlStat select rdbuf : Word) (stale : Bool) (pwrLeft : Option Nat) (csw : Word) : Target :=
  Target.settled { t with
    ctrlStat := ctrlStat, select := select, rdbuf := rdbuf, stale := stale, pwrLeft := pwrLeft, csw := csw }

section
variable {t : Target} {c sel rd csw : Word} {st : Bool} {left : Option Nat}

theorem stage_listening (h : t.Listening) : (stage t c sel rd st left csw).Listening :=
  ⟨h.attached, h.protocol, h.inSync, h.answers⟩

theorem stage_bank0 (h : t.Listening) (hi : t.busy = 0) (hc : stickySet c = false) (hap : apSel sel = 0)
    (hbank : apBankSel sel = 0) : (stage t c sel rd st left csw).Bank0 :=
  ⟨⟨h.attached, h.protocol, h.inSync, h.answers, hc, hi⟩, hap, hbank⟩

end

theorem wrote_powerUp {t : Target} (hb : dpBankSel t.select = 0) (hd : t.pwrDelay = some 0) (n : Nat) :
    wrote n codeWrCtrlstat ctrlPwrupReq t =
      { t.settled with ctrlStat := settlePower (t.statusWritten ctrlPwrupReq), pwrLeft := none } := by
  rw [wrote_ctrlStat hb, if_pos hd, if_pos hd]

/-- The steps up to the second CTRL/STAT write (R302-R306), and what follows them. -/
theorem runs_powerUp {β : Type} {s : State} (hs : CanOpen s) {f : Steps β} {Q : Except Code β → State → Prop}
    (hf : ∀ t c, Powered c → Took s t →
      t.target = stage s.target c selectBank0 s.target.rdbuf true none s.target.csw → Runs f.run t Q) :
    Runs (do
      wrapWrite codeWrAbort abortClearAll
      wrapWrite codeWrSelect selectBank0
      wrapWrite codeWrCtrlstat ctrlPwrupReq
      powerUpPoll
      wrapWrite codeWrCtrlstat ctrlPwrupReq
      f : Steps β).run s Q := by
  refine runs_wrapWrite legal_wrAbort hs.oe (by decide) (listening_answersOk hs.listen (by decide)) fun t n hst ht => ?_
  have ht' : t.target = stage s.target (s.target.ctrlStat &&& 0xFFFFFF4D#32) s.target.select s.target.rdbuf
      s.target.stale s.target.pwrLeft s.target.csw := by rw [ht, wrote_abortClearAll]; rfl
  have hlt : t.target.Listening := ht' ▸ stage_listening hs.listen
  refine runs_wrapWrite legal_wrSelect hst.oe (by decide) (listening_answersOk hlt (by decide)) fun u n htu hu => ?_
  have hu' : u.target = stage s.target (s.target.ctrlStat &&& 0xFFFFFF4D#32) selectBank0 s.target.rdbuf true
      s.target.pwrLeft s.target.csw := by rw [hu, wrote_select, ht']; rfl
  have hlu : u.target.Listening := hu' ▸ stage_listening hs.listen
  have hclear : stickySet u.target.ctrlStat = false := by rw [hu']; exact stickySet_cleared _
  have hbank : dpBankSel selectBank0 = 0 := by decide
  refine runs_wrapWrite legal_wrCtrlstat htu.oe (by decide) (listening_answersOk hlu (by decide)) fun v n huv hv => ?_
  rw [wrote_powerUp (by rw [hu']; exact hbank) (by rw [hu']; exact hs.delay)] at hv
  have hpv : Powered v.target.ctrlStat := by rw [hv]; exact powered_written hclear
  have hv' : v.target = stage s.target v.target.ctrlStat selectBank0 s.target.rdbuf true none s.target.csw := by
    rw [hv, hu']
    rfl
  have hlv : v.target.Listening := hv' ▸ stage_listening hs.listen
  have hsv := (hst.trans htu).trans huv
  refine runs_steps_bind ((powerUpPoll_reference huv.oe hlv (by rw [hv']; exact hbank) (by rw [hv']; rfl) hpv
    (by rw [hsv.wire.params]; exact hs.poll)).mono fun r t ⟨u, hr, ht⟩ => ⟨u, hr, ht⟩) ?_
  rintro _ w ⟨hvw, hw⟩
  have hlw : w.target.Listening := by rw [hw]; exact ⟨hlv.attached, hlv.protocol, hlv.inSync, hlv.answers⟩
  refine runs_wrapWrite legal_wrCtrlstat hvw.oe (by decide) (listening_answersOk hlw (by decide)) fun x n hwx hx => ?_
  rw [wrote_powerUp (by rw [hw, hv']; exact hbank) (by rw [hw, hv']; exact hs.delay)] at hx
  have hpx : Powered x.target.ctrlStat := by
    rw [hx]
    exact powered_written (by rw [hw]; exact hpv.clear)
  refine hf x x.target.ctrlStat hpx ((hsv.trans hvw).trans hwx) ?_
  rw [hx, hw, hv']
  rfl

theorem debugWrite_dhcsr_enable (t : Target) :
    t.debugWrite addrDhcsr dhcsrDebugEnable = some (withCore { coreSide t with debugEn := true } t) := by
  rw [Target.debugWrite, if_pos rfl, if_pos (by decide)]
  rfl

/-- The last step of `open` (R308). -/
theorem writeWord_dhcsr_enable {s : State} (hs : CanDebug s) : Runs (writeWord addrDhcsr dhcsrDebugEnable) s fun e t =>
    e = .ok ∧ Accessed s t { coreSide s.target with debugEn := true } :=
  writeWord_debug hs (by decide) fun u hu => by rw [debugWrite_dhcsr_enable, hu.1]

theorem openSteps_reference {s : State} (hs : CanOpen s) : Runs openSteps.run s fun r t => (∃ u, r = .ok u) ∧
    Took s t ∧ ∃ u : State, (∃ c, Powered c ∧
      u.target = stage s.target c selectBank0 s.target.idr true none (writeCsw s.target.csw s.params.cswWord)) ∧
      u.params = s.params ∧ Accessed u t { coreSide s.target with debugEn := true } := by
  unfold openSteps
  refine runs_powerUp hs fun t c hc hst ht => ?_
  have hbt : t.target.Bank0 := ht ▸ stage_bank0 hs.listen hs.idle hc.clear (by decide) (by decide)
  have hpt : Powered t.target.afterRead := Powered.afterRead (by rw [ht]; exact hc)
  refine runs_steps_bind ((identifyAp_reference hst.oe hbt.ready
    (by rw [hst.wire.params, ht]; exact hs.idr)).mono fun r t ⟨u, hr, ht⟩ => ⟨u, hr, ht⟩) ?_
  rintro _ u ⟨htu, hu⟩
  have hu' : u.target = stage s.target t.target.afterRead selectIdrBank s.target.idr false none s.target.csw := by
    rw [hu, ht]
    rfl
  have hlu : u.target.Listening := hu' ▸ stage_listening hs.listen
  refine runs_wrapWrite legal_wrSelect htu.oe (by decide) (listening_answersOk hlu (by decide)) fun v n huv hv => ?_
  have hv' : v.target = stage s.target t.target.afterRead selectBank0 s.target.idr true none s.target.csw := by
    rw [hv, wrote_select, hu']
    rfl
  have hbv : v.target.Bank0 := hv' ▸ stage_bank0 hs.listen hs.idle hpt.clear (by decide) (by decide)
  have hsv := (hst.trans htu).trans huv
  refine runs_steps_bind (P := fun x t => v = x ∧ v = t) ⟨_, v, rfl, v, rfl, rfl, rfl⟩ ?_
  rintro _ _ ⟨rfl, rfl⟩
  refine runs_wrapWrite legal_wrCsw huv.oe (by decide) (ready_answersOk hbv.ready _) fun w n hvw hw => ?_
  have hsw := hsv.trans hvw
  have hw' : w.target = stage s.target t.target.afterRead selectBank0 s.target.idr true none
      (writeCsw s.target.csw s.params.cswWord) := by
    rw [hw, wrote_csw hbv, hsv.wire.params, hv']
    rfl
  have hbw : w.target.Bank0 := hw' ▸ stage_bank0 hs.listen hs.idle hpt.clear (by decide) (by decide)
  have hcan : CanDebug w := by
    refine ⟨hvw.oe, hbw, ?_, by rw [hsw.wire.params]; exact hs.mode, by rw [hw']; exact hs.bus⟩
    rw [hw', Target.normalTransfer]
    show (!_ || t.target.afterRead &&& 0x00FFF00C == 0) = true
    rw [hpt.normal, beq_self_eq_true, Bool.or_true]
  refine runs_steps_bind (runs_steps_lift (writeWord_dhcsr_enable hcan)) ?_
  rintro _ x ⟨rfl, hwx⟩
  have hcore : coreSide w.target = coreSide s.target := by rw [hw']; rfl
  rw [hcore] at hwx
  exact ⟨_, x, rfl, ⟨_, rfl⟩, hsw.trans hwx.took, w, ⟨_, hpt, hw'⟩, hsw.wire.params, hwx⟩

/-- Settles O47: the frame above the wire is that of every `open`; the target is the one of the last stage but for what the
DHCSR write did. -/
theorem openOnTheReferenceTarget : Obligations.OpenOnTheReferenceTarget := by
  intro s hat han hidle hdelay hbus hm hpoll hidr
  obtain ⟨_, t, hreset, rfl, hoe, hst, rdbuf, ht⟩ := lineReset_reference (s := s.setSession .connecting) hat han
  have hpst : t.params = s.params := hst.params
  have hcan : CanOpen (t.setCoreId s.target.idcode) := by
    refine ⟨hoe, ?_, ?_, ?_, ?_, ?_, ?_, ?_⟩
    all_goals simp only [setCoreId_target, setCoreId_params, ht, hpst]
    exacts [⟨hat, rfl, rfl, han⟩, hidle, hdelay, hbus, hm, hpoll, hidr]
  obtain ⟨_, x, hsteps, ⟨_, rfl⟩, htx, u, ⟨c, hc, hu⟩, hpu, hux⟩ := openSteps_reference hcan
  have hrun : openSession s = .ok (.ok, x.setSession .opened) := by
    rw [openSession, op_bind_ok (op_modify _ s), op_bind_ok hreset]
    dsimp only
    rw [if_pos rfl, op_bind_ok (op_modify _ t)]
    exact op_bind_ok hsteps _
  have hwire : WireOnly { s with session := .opened, coreId := s.target.idcode } (x.setSession .opened) := by
    obtain ⟨_, _, hrun', -, id, hbelow⟩ := openSession_runs s
    cases hrun.symm.trans hrun'
    obtain rfl : id = s.target.idcode := hbelow.above.coreId.symm.trans htx.wire.coreId
    exact hbelow.above
  have hbu : u.target.Bank0 := hu ▸ stage_bank0 hcan.listen hcan.idle hc.clear (by decide) (by decide)
  rw [setCoreId_target, ht] at hu
  have hselect : x.target.select = u.target.select := by
    have hsettled := congrArg Target.select (show x.target.settled = _ from hux.alike)
    exact hsettled
  have hctrl : x.target.ctrlStat = u.target.afterRead := hux.alike.ctrlStat
  have hpowered : Powered x.target.ctrlStat := by
    rw [hctrl]
    exact Powered.afterRead (by rw [hu]; exact hc)
  refine ⟨x.setSession .opened, hrun, htx.oe, hwire, hux.alike.bank0 (bank0_withCore hbu _), hpowered.status, ?_, ?_,
    congrArg CoreSide.debugEn hux.coreSide, ?_, ?_⟩
  · rw [setSession_target, hselect, hu]
    rfl
  · rw [setSession_target, hux.csw, hpu, setCoreId_params, hpst, hu]
    exact writeCsw_writeCsw _ _ _
  · rw [setSession_target, hux.mem, hu]
    rfl
  · have hregs := congrArg CoreSide.coreRegs hux.coreSide
    rw [setSession_target, show x.target.coreRegs = _ from hregs, setCoreId_target, ht]
    rfl

end Sys2Proof.Proofs
